-- ==== Sys2Proof/Word.lean ====
section
/-! DEFINITION. The widths of the block's data (spec/00_scope.md R12 to R14).

Byte strings are kept in order, first byte first. A string of fixed length that the spec computes with
(a 16-byte block, the 32-byte key) is held as ONE bit vector whose most significant byte is the string's
first byte, so that the spec's `be128(x)` of a block `x` is `x.toNat` (R14), its `⊕` is `^^^` (R13) and its
`0^16` is `0#128`. -/

namespace Sys2Proof

/-- A byte (R12). -/
abbrev Byte := BitVec 8

/-- A 16-bit operand or wire address (R24, R25, R86). -/
abbrev Half := BitVec 16

/-- A 32-bit bus word or command word (R23, R70). -/
abbrev Word := BitVec 32

/-- A 16-byte block, first byte most significant (R13, R14). -/
abbrev Block := BitVec 128

/-- A 32-byte key, first byte most significant (R31). -/
abbrev Key := BitVec 256

end Sys2Proof
end

