-- ==== Sys2Proof/Syntax.lean ====
section
/-! DEFINITION. The block's instructions: the nineteen operations of the opcode map (spec/30_encoding.md R71), and
the fields of a command word (R70). A command word carries no operand: operands stand in ARG0, ARG1 and
MSGLEN and are latched at issue (R74), so no constructor has an argument. -/

namespace Sys2Proof

/-- One constructor per row of spec/opcode_table.json (R71). -/
inductive Instr where
  /-- KEYLOAD (R121). -/
  | keyload
  /-- CBCENC (R122). -/
  | cbcenc
  /-- CBCDEC (R123). -/
  | cbcdec
  /-- MACINIT (R141). -/
  | macinit
  /-- MACUPD (R142). -/
  | macupd
  /-- MACCALC (R143). -/
  | maccalc
  /-- MACSTORE (R144). -/
  | macstore
  /-- MACCMP (R145). -/
  | maccmp
  /-- MACVFY (R146). -/
  | macvfy
  /-- CTRLOAD (R171). -/
  | ctrload
  /-- CTRSTORE (R172). -/
  | ctrstore
  /-- CTRXOR (R173). -/
  | ctrxor
  /-- CNTINC (R175). -/
  | cntinc
  /-- CNTCMP (R176). -/
  | cntcmp
  /-- DECODE (R200). -/
  | decode
  /-- ENCODE.SETADDR (R216). -/
  | encodeSetaddr
  /-- ENCODE.PROGRAM (R217). -/
  | encodeProgram
  /-- ENCODE.CHANGEKEY (R218). -/
  | encodeChangekey
  /-- ENCODE.AUTH (R219). -/
  | encodeAuth
  deriving DecidableEq, Repr

/-- The three fields of the one command format, CMD32 (R70). -/
structure CmdFields where
  /-- CMD[31:12], must be 0. -/
  reserved : BitVec 20
  /-- CMD[11:8], used by ENCODE only. -/
  kind : BitVec 4
  /-- CMD[7:0]. -/
  opcode : BitVec 8
  deriving DecidableEq, Repr

end Sys2Proof
end

