-- ==== Sys2Proof/WellFormed.lean ====
section
/-! DEFINITION. Which command words are legal (spec/30_encoding.md R72), one check for each reason the rule gives.
An `Instr` has no operand field, so every instruction is well formed; what can be ill formed is a command word. -/

namespace Sys2Proof

/-- OPCODE is in the opcode map: 0x01 to 0x0E, 0x10 and 0x11 (R71, R72). -/
def CmdFields.opcodeKnown (f : CmdFields) : Bool :=
  (1 ≤ f.opcode.toNat && f.opcode.toNat ≤ 0x0E) || f.opcode == 0x10#8 || f.opcode == 0x11#8

/-- OPCODE is ENCODE's, or KIND is 0 (R72). -/
def CmdFields.kindUnused (f : CmdFields) : Bool :=
  f.opcode == 0x11#8 || f.kind == 0#4

/-- OPCODE is not ENCODE's, or KIND is 1, 2, 3 or 4 (R72). -/
def CmdFields.kindInRange (f : CmdFields) : Bool :=
  f.opcode != 0x11#8 || (1 ≤ f.kind.toNat && f.kind.toNat ≤ 4)

/-- CMD[31:12] is 0 (R72). -/
def CmdFields.reservedZero (f : CmdFields) : Bool :=
  f.reserved == 0#20

/-- A legal command word: none of R72's reasons holds. -/
def CmdFields.wf (f : CmdFields) : Bool :=
  f.opcodeKnown && f.kindUnused && f.kindInRange && f.reservedZero

/-- The fields of a command word (R70). -/
def CmdFields.ofWord (w : Word) : CmdFields :=
  { reserved := w.extractLsb' 12 20, kind := w.extractLsb' 8 4, opcode := w.extractLsb' 0 8 }

/-- The command word of three fields (R70). -/
def CmdFields.toWord (f : CmdFields) : Word :=
  f.reserved ++ f.kind ++ f.opcode

end Sys2Proof
end

