-- ==== Sys2Proof/Decode.lean ====
section
/-! DEFINITION. Decoding a command word into an operation, total on every word and rejecting by name, and the
encoder (spec/30_encoding.md R70 to R73). A word's bytes are in the order of the block's bus lanes: least
significant byte at the lowest offset (spec/20_memory.md R51). -/

namespace Sys2Proof

/-- Why bytes are no command word. Every reason but `truncated` makes the word ILLEGAL (R72). -/
inductive DecodeReject where
  /-- Fewer than four bytes. -/
  | truncated
  /-- CMD[31:12] is not 0. -/
  | reservedNotZero
  /-- OPCODE is in no row of the opcode map. -/
  | opcodeUnknown
  /-- KIND is not 0 for an operation other than ENCODE. -/
  | kindNotZero
  /-- KIND is not 1, 2, 3 or 4 for ENCODE. -/
  | kindOutOfRange
  deriving DecidableEq, Repr

/-- The operations other than ENCODE by their OPCODE (R71). -/
def plainOperation : Nat → Option Instr
  | 0x01 => some .keyload
  | 0x02 => some .cbcenc
  | 0x03 => some .cbcdec
  | 0x04 => some .macinit
  | 0x05 => some .macupd
  | 0x06 => some .maccalc
  | 0x07 => some .macstore
  | 0x08 => some .maccmp
  | 0x09 => some .macvfy
  | 0x0A => some .ctrload
  | 0x0B => some .ctrstore
  | 0x0C => some .ctrxor
  | 0x0D => some .cntinc
  | 0x0E => some .cntcmp
  | 0x10 => some .decode
  | _ => none

/-- ENCODE's operations by their KIND (R71). -/
def encodeOperation : Nat → Option Instr
  | 1 => some .encodeSetaddr
  | 2 => some .encodeProgram
  | 3 => some .encodeChangekey
  | 4 => some .encodeAuth
  | _ => none

/-- The operation of three command fields, or the reason the word is illegal (R71, R72). -/
def decodeFields (f : CmdFields) : Except DecodeReject Instr :=
  if f.reserved ≠ 0#20 then .error .reservedNotZero
  else if f.opcode = 0x11#8 then
    match encodeOperation f.kind.toNat with
    | some i => .ok i
    | none => .error .kindOutOfRange
  else
    match plainOperation f.opcode.toNat with
    | none => .error .opcodeUnknown
    | some i => if f.kind = 0#4 then .ok i else .error .kindNotZero

/-- The operation of a command word (R73: decoding needs no state). -/
def decodeWord (w : Word) : Except DecodeReject Instr :=
  decodeFields (CmdFields.ofWord w)

/-- Four bytes as a word, least significant byte first (R51). -/
def wordOfBytes (b0 b1 b2 b3 : Byte) : Word :=
  b3 ++ b2 ++ b1 ++ b0

/-- A word's bytes, least significant byte first (R51). -/
def bytesOfWord (w : Word) : List Byte :=
  [w.extractLsb' 0 8, w.extractLsb' 8 8, w.extractLsb' 16 8, w.extractLsb' 24 8]

/-- The operation the first four bytes encode, with the bytes after them. -/
def decode : List Byte → Except DecodeReject (Instr × List Byte)
  | b0 :: b1 :: b2 :: b3 :: rest =>
    match decodeWord (wordOfBytes b0 b1 b2 b3) with
    | .ok i => .ok (i, rest)
    | .error e => .error e
  | _ => .error .truncated

/-- The command word of each operation (R71, the column "CMD word"). -/
def encode : Instr → Word
  | .keyload => 0x00000001#32
  | .cbcenc => 0x00000002#32
  | .cbcdec => 0x00000003#32
  | .macinit => 0x00000004#32
  | .macupd => 0x00000005#32
  | .maccalc => 0x00000006#32
  | .macstore => 0x00000007#32
  | .maccmp => 0x00000008#32
  | .macvfy => 0x00000009#32
  | .ctrload => 0x0000000A#32
  | .ctrstore => 0x0000000B#32
  | .ctrxor => 0x0000000C#32
  | .cntinc => 0x0000000D#32
  | .cntcmp => 0x0000000E#32
  | .decode => 0x00000010#32
  | .encodeSetaddr => 0x00000111#32
  | .encodeProgram => 0x00000211#32
  | .encodeChangekey => 0x00000311#32
  | .encodeAuth => 0x00000411#32

/-- An operation's command word in memory order. -/
def encodeBytes (i : Instr) : List Byte :=
  bytesOfWord (encode i)

/-- What the decoder reads from an instruction whose bits are `w`, numbered as spec/opcode_table.json numbers
them. Every row of the table has 32 bits; bits from `nbits` on are 0. -/
def decodeTableWord (nbits w : Nat) : Option Instr :=
  match decode (bytesOfWord (BitVec.ofNat 32 (w % 2 ^ nbits))) with
  | .ok (i, []) => some i
  | _ => none

end Sys2Proof
end

