-- ==== Sys2Proof/Machine/BlockCipher.lean ====
section
/-! DEFINITION. The block cipher primitive, AES-256 (spec/40_block_cipher.md R100 to R110). Everything is a function of the
key and the block alone (R100); no round key or round state is kept (R38, R110). -/

namespace Sys2Proof.Machine

/-- Byte `i` of a byte string held as a bit vector, counting the first byte as 0 (R13). -/
def strByte {w : Nat} (x : BitVec w) (i : Nat) : Byte :=
  x.extractLsb' (w - 8 * (i + 1)) 8

/-- Row `r` of R103's table of `S`: the sixteen bytes of the row, in order. -/
def sboxRow : Nat → Block
  | 0 => 0x637c777bf26b6fc53001672bfed7ab76#128
  | 1 => 0xca82c97dfa5947f0add4a2af9ca472c0#128
  | 2 => 0xb7fd9326363ff7cc34a5e5f171d83115#128
  | 3 => 0x04c723c31896059a071280e2eb27b275#128
  | 4 => 0x09832c1a1b6e5aa0523bd6b329e32f84#128
  | 5 => 0x53d100ed20fcb15b6acbbe394a4c58cf#128
  | 6 => 0xd0efaafb434d338545f9027f503c9fa8#128
  | 7 => 0x51a3408f929d38f5bcb6da2110fff3d2#128
  | 8 => 0xcd0c13ec5f974417c4a77e3d645d1973#128
  | 9 => 0x60814fdc222a908846eeb814de5e0bdb#128
  | 10 => 0xe0323a0a4906245cc2d3ac629195e479#128
  | 11 => 0xe7c8376d8dd54ea96c56f4ea657aae08#128
  | 12 => 0xba78252e1ca6b4c6e8dd741f4bbd8b8a#128
  | 13 => 0x703eb5664803f60e613557b986c11d9e#128
  | 14 => 0xe1f8981169d98e949b1e87e9ce5528df#128
  | _ => 0x8ca1890dbfe6426841992d0fb054bb16#128

/-- Row `r` of R103's table of `S^-1`: the sixteen bytes of the row, in order. -/
def invSboxRow : Nat → Block
  | 0 => 0x52096ad53036a538bf40a39e81f3d7fb#128
  | 1 => 0x7ce339829b2fff87348e4344c4dee9cb#128
  | 2 => 0x547b9432a6c2233dee4c950b42fac34e#128
  | 3 => 0x082ea16628d924b2765ba2496d8bd125#128
  | 4 => 0x72f8f66486689816d4a45ccc5d65b692#128
  | 5 => 0x6c704850fdedb9da5e154657a78d9d84#128
  | 6 => 0x90d8ab008cbcd30af7e45805b8b34506#128
  | 7 => 0xd02c1e8fca3f0f02c1afbd0301138a6b#128
  | 8 => 0x3a9111414f67dcea97f2cfcef0b4e673#128
  | 9 => 0x96ac7422e7ad3585e2f937e81c75df6e#128
  | 10 => 0x47f11a711d29c5896fb7620eaa18be1b#128
  | 11 => 0xfc563e4bc6d279209adbc0fe78cd5af4#128
  | 12 => 0x1fdda8338807c731b11210592780ec5f#128
  | 13 => 0x60517fa919b54a0d2de57a9f93c99cef#128
  | 14 => 0xa0e03b4dae2af5b0c8ebbb3c83539961#128
  | _ => 0x172b047eba77d626e169146355210c7d#128
/-- The S-box `S` (R103), `b = 16 * row + column`. -/
def sbox (b : Byte) : Byte :=
  strByte (sboxRow (b.toNat / 16)) (b.toNat % 16)

/-- The inverse S-box `S^-1` (R103). -/
def invSbox (b : Byte) : Byte :=
  strByte (invSboxRow (b.toNat / 16)) (b.toNat % 16)

/-- `xtime` (R102). -/
def xtime (b : Byte) : Byte :=
  (b <<< 1) ^^^ (if b.msb then 0x1B#8 else 0#8)

/-- `xtime^i` (R102). -/
def xtimes : Nat → Byte → Byte
  | 0, b => b
  | i + 1, b => xtime (xtimes i b)

/-- The product `a • b` in GF(2^8): the XOR of `xtime^i(a)` over the bits `i` set in `b` (R102). -/
def gmul (a b : Byte) : Byte :=
  (List.range 8).foldl (fun sum i => if b.getLsbD i then sum ^^^ xtimes i a else sum) 0#8

/-- A column of the state, or a word of the key schedule: rows 0 to 3 (R101, R104). -/
structure Column where
  /-- Row 0. -/
  r0 : Byte
  /-- Row 1. -/
  r1 : Byte
  /-- Row 2. -/
  r2 : Byte
  /-- Row 3. -/
  r3 : Byte
  deriving DecidableEq, Repr

/-- The cipher's 4 x 4 array of bytes, column by column (R101), or a round key (R104). -/
structure Square where
  /-- Column 0. -/
  c0 : Column
  /-- Column 1. -/
  c1 : Column
  /-- Column 2. -/
  c2 : Column
  /-- Column 3. -/
  c3 : Column
  deriving DecidableEq, Repr

/-- A byte function on every row. -/
def Column.map (f : Byte → Byte) (c : Column) : Column :=
  ⟨f c.r0, f c.r1, f c.r2, f c.r3⟩

/-- Bytewise XOR of two columns. -/
def Column.xor (c d : Column) : Column :=
  ⟨c.r0 ^^^ d.r0, c.r1 ^^^ d.r1, c.r2 ^^^ d.r2, c.r3 ^^^ d.r3⟩

/-- A function on every column. -/
def Square.map (f : Column → Column) (s : Square) : Square :=
  ⟨f s.c0, f s.c1, f s.c2, f s.c3⟩

/-- Four bytes of a string from byte `i` on, as a column. -/
def columnAt {w : Nat} (x : BitVec w) (i : Nat) : Column :=
  ⟨strByte x i, strByte x (i + 1), strByte x (i + 2), strByte x (i + 3)⟩

/-- Loading an input block: `s[r][c] = in[r + 4c]` (R101). -/
def Square.load (x : Block) : Square :=
  ⟨columnAt x 0, columnAt x 4, columnAt x 8, columnAt x 12⟩

/-- A column's bytes, row 0 first. -/
def Column.bits (c : Column) : BitVec 32 :=
  c.r0 ++ c.r1 ++ c.r2 ++ c.r3

/-- The output block: `out[r + 4c] = s[r][c]` (R101). -/
def Square.store (s : Square) : Block :=
  s.c0.bits ++ s.c1.bits ++ s.c2.bits ++ s.c3.bits

/-- `RotWord` (R104). -/
def rotWord (c : Column) : Column :=
  ⟨c.r1, c.r2, c.r3, c.r0⟩

/-- `SubWord` (R104). -/
def subWord (c : Column) : Column :=
  c.map sbox

/-- `Rcon[j] = (x^(j-1), 0, 0, 0)` (R104). -/
def rcon (j : Nat) : Column :=
  ⟨xtimes (j - 1) 0x01#8, 0#8, 0#8, 0#8⟩

/-- The zero word. -/
def Column.zero : Column :=
  ⟨0#8, 0#8, 0#8, 0#8⟩

/-- `w[i]` for `i ≥ 8` from the words before it, newest first (R104). -/
def scheduleWord (i : Nat) (before : List Column) : Column :=
  let last := before.getD 0 Column.zero
  let t :=
    if i % 8 = 0 then (subWord (rotWord last)).xor (rcon (i / 8))
    else if i % 8 = 4 then subWord last
    else last
  (before.getD 7 Column.zero).xor t

/-- The words `w[0 .. 8 + n)` of a key's schedule, newest first (R104). -/
def scheduleFrom (k : Key) : Nat → List Column
  | 0 => [columnAt k 28, columnAt k 24, columnAt k 20, columnAt k 16, columnAt k 12, columnAt k 8, columnAt k 4, columnAt k 0]
  | n + 1 =>
    let before := scheduleFrom k n
    scheduleWord (n + 8) before :: before

/-- The key schedule `w[0..59]` (R104). -/
def schedule (k : Key) : List Column :=
  (scheduleFrom k 52).reverse

/-- Round key `r`: the words `w[4r .. 4r+3]` (R104). -/
def roundKey (ws : List Column) (r : Nat) : Square :=
  ⟨ws.getD (4 * r) Column.zero, ws.getD (4 * r + 1) Column.zero, ws.getD (4 * r + 2) Column.zero, ws.getD (4 * r + 3) Column.zero⟩

/-- `SubBytes` (R105). -/
def subBytes (s : Square) : Square :=
  s.map (fun c => c.map sbox)

/-- `InvSubBytes` (R107). -/
def invSubBytes (s : Square) : Square :=
  s.map (fun c => c.map invSbox)

/-- `ShiftRows`: `s'[r][c] = s[r][(c + r) mod 4]` (R105). -/
def shiftRows (s : Square) : Square :=
  ⟨⟨s.c0.r0, s.c1.r1, s.c2.r2, s.c3.r3⟩, ⟨s.c1.r0, s.c2.r1, s.c3.r2, s.c0.r3⟩,
   ⟨s.c2.r0, s.c3.r1, s.c0.r2, s.c1.r3⟩, ⟨s.c3.r0, s.c0.r1, s.c1.r2, s.c2.r3⟩⟩

/-- `InvShiftRows`: `s'[r][c] = s[r][(c - r) mod 4]` (R107). -/
def invShiftRows (s : Square) : Square :=
  ⟨⟨s.c0.r0, s.c3.r1, s.c2.r2, s.c1.r3⟩, ⟨s.c1.r0, s.c0.r1, s.c3.r2, s.c2.r3⟩,
   ⟨s.c2.r0, s.c1.r1, s.c0.r2, s.c3.r3⟩, ⟨s.c3.r0, s.c2.r1, s.c1.r2, s.c0.r3⟩⟩

/-- One column of `MixColumns` (R105). -/
def mixColumn (c : Column) : Column :=
  ⟨gmul c.r0 2#8 ^^^ gmul c.r1 3#8 ^^^ c.r2 ^^^ c.r3,
   c.r0 ^^^ gmul c.r1 2#8 ^^^ gmul c.r2 3#8 ^^^ c.r3,
   c.r0 ^^^ c.r1 ^^^ gmul c.r2 2#8 ^^^ gmul c.r3 3#8,
   gmul c.r0 3#8 ^^^ c.r1 ^^^ c.r2 ^^^ gmul c.r3 2#8⟩

/-- One column of `InvMixColumns` (R107). -/
def invMixColumn (c : Column) : Column :=
  ⟨gmul c.r0 14#8 ^^^ gmul c.r1 11#8 ^^^ gmul c.r2 13#8 ^^^ gmul c.r3 9#8,
   gmul c.r0 9#8 ^^^ gmul c.r1 14#8 ^^^ gmul c.r2 11#8 ^^^ gmul c.r3 13#8,
   gmul c.r0 13#8 ^^^ gmul c.r1 9#8 ^^^ gmul c.r2 14#8 ^^^ gmul c.r3 11#8,
   gmul c.r0 11#8 ^^^ gmul c.r1 13#8 ^^^ gmul c.r2 9#8 ^^^ gmul c.r3 14#8⟩

/-- `AddRoundKey` (R105). -/
def addRoundKey (k s : Square) : Square :=
  ⟨s.c0.xor k.c0, s.c1.xor k.c1, s.c2.xor k.c2, s.c3.xor k.c3⟩

/-- One of the rounds 1 to 13 of encryption (R106). -/
def encryptRound (s k : Square) : Square :=
  addRoundKey k ((shiftRows (subBytes s)).map mixColumn)

/-- One of the rounds 13 down to 1 of decryption (R108). -/
def decryptRound (s k : Square) : Square :=
  (addRoundKey k (invSubBytes (invShiftRows s))).map invMixColumn

/-- The round keys 1 to 13, in order (R106). -/
def middleKeys (ws : List Column) : List Square :=
  [1, 2, 3, 4, 5, 6, 7, 8, 9, 10, 11, 12, 13].map (roundKey ws)

/-- Encryption `E_K(x)` (R106). Irreducible, so that no proof unfolds the rounds by accident. -/
@[irreducible]
def encrypt (k : Key) (x : Block) : Block :=
  let ws := schedule k
  let first := addRoundKey (roundKey ws 0) (Square.load x)
  let middle := (middleKeys ws).foldl encryptRound first
  (addRoundKey (roundKey ws 14) (shiftRows (subBytes middle))).store

/-- Decryption `D_K(y)` (R108). Irreducible, so that no proof unfolds the rounds by accident. -/
@[irreducible]
def decrypt (k : Key) (y : Block) : Block :=
  let ws := schedule k
  let first := addRoundKey (roundKey ws 14) (Square.load y)
  let middle := (middleKeys ws).reverse.foldl decryptRound first
  (addRoundKey (roundKey ws 0) (invSubBytes (invShiftRows middle))).store

end Sys2Proof.Machine
end

