-- ==== Sys2Proof/Config.lean ====
section
/-! DEFINITION. What one implementation of the block fixes (spec/00_scope.md R5 to R11) and what the spec
leaves free (spec/93_implementation_defined.md). Every constant here is opaque: no proof sees its value. -/

namespace Sys2Proof

/-- The parameters of R5 to R11, in coordinates in which EVERY value meets the spec's constraints and every
allowed choice is reached (Sys2Proof/Machine/Parameters.lean derives the spec's own quantities from them, and
Sys2Proof/Laws/Parameters.lean shows both directions). See notes/assumptions/1.md. -/
structure Params where
  /-- `P_PAGE_SIZE = 2^(pageLog + 5)`: the powers of two from 32 to 16384 (R5, with R10's upper bound). -/
  pageLog : Fin 10
  /-- How many 4-byte words BUF holds beyond the least size `N + 48` (R10). -/
  bufExtra : Nat
  /-- `P_BOOT_START`, taken modulo `2^P_ADDR_BITS` (R6). -/
  bootRaw : Nat
  /-- `P_START_APP`, the start-application sentinel (R7). -/
  startApp : Half
  /-- `P_WIDE_ADDR` (R9). -/
  wideAddr : Bool
  /-- `P_BASE`, where the platform places the window (R11). -/
  base : Nat
  deriving DecidableEq, Repr, Inhabited

/-- The parameters of the block at power-on: OPEN in the spec (92_eei_decisions.md D39, D48 to D53). -/
opaque Config.params : Params

/-- `P_BOOT_KEY` at power-on (R8, R271): OPEN in the spec (D51). -/
opaque Config.bootKey : Key

/-- `P_BUF_RESET` (R11, R272): the byte BUF holds at an offset nothing has written since power-on. Free. -/
opaque Config.bufReset : Nat → Byte

/-- The value a bus read of BUF, MSGLEN, RESULT, RDADDR, PGADDR or CTRSTAT returns while BUSY = 1
(R60), one draw per read: the argument is the number of draws made before. Free. -/
opaque Config.busyRead : Nat → Word

/-- `P_LATENCY` (R11, R283), counted in turns of the bus that pass between an issue and its performance. It may
depend on the issue (the first argument numbers it), on the command word, on `L` and on MSGLEN, not on KEY or the contents
of BUF (R148, R283). DESIGN CHOICE (notes/assumptions/5.md): `L` is given as ARG1 for every command word, also where the
operation reads ARG1 as `B` or `W` or not at all. Free and finite. -/
opaque Config.latency : Nat → Word → Half → Half → Nat

end Sys2Proof
end

