-- ==== Sys2Proof/Machine/Parameters.lean ====
section
/-! DEFINITION. The spec's parameters (spec/00_scope.md R5 to R11) from the model's coordinates. -/

namespace Sys2Proof

/-- `P_PAGE_SIZE`, written `N` (R5). -/
def Params.pageSize (p : Params) : Nat :=
  2 ^ (p.pageLog.val + 5)

/-- `P_ADDR_BITS` (R9). -/
def Params.addrBits (p : Params) : Nat :=
  if p.wideAddr then 16 + (p.pageLog.val + 5) else 16

/-- `P_BUF_SIZE` (R10). -/
def Params.bufSize (p : Params) : Nat :=
  min (p.pageSize + 48 + 4 * p.bufExtra) 32768

/-- `P_BOOT_START` (R6). -/
def Params.bootStart (p : Params) : Nat :=
  p.bootRaw % 2 ^ p.addrBits

/-- The window offset a bus address falls at, if it falls in the block's 64 KiB window at `P_BASE` (R50). -/
def Params.windowOffset (p : Params) (addr : Nat) : Option Half :=
  if p.base ≤ addr ∧ addr < p.base + 0x10000 then some (BitVec.ofNat 16 (addr - p.base)) else none

end Sys2Proof
end

