-- ==== Sys2Proof/Machine/State.lean ====
section
/-! DEFINITION. The state of the block as plain data (spec/10_state.md), of the bus and the host that drive it
(spec/20_memory.md R61, spec/60_exceptions.md R256), and the state after reset (spec/70_reset_and_hazards.md R270). BUSY is not stored a second
time: it is 1 exactly while the operation latch holds an operation (R37, R39); ERR is 1 exactly when an error
code is held (R27). -/

namespace Sys2Proof.Machine

/-- STATUS.ERRCODE when ERR = 1 (spec/60_exceptions.md R240); codes 4 to 15 are never produced. -/
inductive ErrCode where
  /-- Code 1: the command word is none of the nineteen. -/
  | illegal
  /-- Code 2: a BUF region the operation needs is not in bounds. -/
  | bounds
  /-- Code 3: `L mod 16 ≠ 0` for an operation on whole blocks. -/
  | notBlockAligned
  deriving DecidableEq, Repr

/-- RESULT.KIND (R28). -/
inductive Kind where
  /-- No shape matches, or none reported. -/
  | none
  /-- SetAddress. -/
  | setaddr
  /-- ProgramPage. -/
  | program
  /-- ChangeKey. -/
  | changekey
  /-- Authenticate. -/
  | auth
  deriving DecidableEq, Repr

/-- RESULT.ACTION (R28). -/
inductive Action where
  /-- Rejected, or not a DECODE. -/
  | none
  /-- Remember a read address. -/
  | setReadAddr
  /-- Start the application. -/
  | startApp
  /-- Program a page. -/
  | programPage
  /-- The key was changed. -/
  | keyChanged
  /-- Send the recovered challenge back. -/
  | authResponse
  deriving DecidableEq, Repr

/-- RESULT.ORDER (R28, R176). -/
inductive Order where
  /-- Value 0. -/
  | equal
  /-- Value 1. -/
  | less
  /-- Value 2. -/
  | greater
  deriving DecidableEq, Repr

/-- The operation latch (R37): the issued command word and the operand registers as they were at the issue. -/
structure Latch where
  /-- The command word. -/
  cmd : Word
  /-- ARG0[15:0] at the issue. -/
  arg0 : Half
  /-- ARG1[15:0] at the issue. -/
  arg1 : Half
  /-- MSGLEN[15:0] at the issue. -/
  msglen : Half
  deriving DecidableEq, Repr

/-- The width of a bus access (R51 to R53). -/
inductive Width where
  /-- 8 bits. -/
  | byte
  /-- 16 bits. -/
  | half
  /-- 32 bits. -/
  | word
  deriving DecidableEq, Repr

/-- A move of the host that keeps its duties (R256): a bus access, something the transport brings it, what it must do
with the block's results, or what it means to do. -/
inductive HostMove where
  /-- A bus write of a value at an offset. -/
  | write (width : Width) (offset : Half) (value : Word)
  /-- A bus read at an offset. -/
  | read (width : Width) (offset : Half)
  /-- Read STATUS again and again until a read returns BUSY = 0 (R75). -/
  | poll
  /-- The transport delivers the bytes of a message. -/
  | receive (message : List Byte)
  /-- `readPage` at RDADDR, checked at use time against the flash's bounds, which R256 does not give: DESIGN CHOICE
  (notes/assumptions/19.md), the move carries them, the first byte of the flash and the byte after its last. -/
  | readPage (flashStart flashEnd : Nat)
  /-- `programPage(PGADDR, BUF[32..32+N))`, and whether the flash reported an error. -/
  | programPage (failed : Bool)
  /-- "Re-enable read access" after a page write. -/
  | reenableReads
  /-- Surface a flash error. -/
  | surfaceFlashError
  /-- Persist BUF[16..48) as the stored key. -/
  | persistKey
  /-- Send BUF[16..32) back to the sender. -/
  | sendResponse
  /-- Leave bootloader mode and start the application. -/
  | startApplication
  /-- Give the sender of a rejected message the transport-level stall. -/
  | stall
  /-- The device's response to the challenge has come, and is compared with it. -/
  | compareResponse (response : Block)
  /-- The key the host means ENCODE to run under, or any key. -/
  | encodeUnder (k : Option Key)
  /-- Whether the host wants its CTR stream read under one key. -/
  | keepStreamKey (on : Bool)
  deriving DecidableEq, Repr

/-- One move on the bus or of the platform. Offsets are from `P_BASE`, in the 64 KiB window (R50). `write`, `read` and
`poll` are accesses of any master, whether it keeps the duties of R256 or not (R250); the host that keeps them moves
by `host`. -/
inductive BusEvent where
  /-- A move of the host under R256: it is not made if it would break a "must". -/
  | host (m : HostMove)
  /-- A bus write of a value at an offset. -/
  | write (width : Width) (offset : Half) (value : Word)
  /-- A bus read at an offset. -/
  | read (width : Width) (offset : Half)
  /-- Read STATUS again and again until a read returns BUSY = 0 (R75). -/
  | poll
  /-- The platform's reset input (R270), with the key in persistent storage at that reset (R271) and the bytes
  BUF holds after it, from offset 0 on (R272: any bytes, those held before among them). -/
  | reset (bootKey : Key) (image : List Byte)
  deriving DecidableEq, Repr

/-- BUF as the bytes written since power-on: addresses strictly rising, a byte nothing has written unlisted. -/
abbrev Memory := List Host.Cell

/-- What the host still owes on the block's results (R256). -/
inductive Debt where
  /-- PROGRAM_PAGE: the page in BUF[32..32+N) is to be programmed. -/
  | program
  /-- Read access is to be re-enabled after a page write. -/
  | reenable
  /-- A flash error is to be surfaced. -/
  | surface
  /-- KEY_CHANGED: the new key in BUF[16..48) is to be persisted. -/
  | persist
  /-- The persisted key is to be overwritten at these offsets of BUF (R285). -/
  | scrub (left : List Nat)
  /-- AUTH_RESPONSE: BUF[16..32) is to be sent back. -/
  | respond
  /-- START_APP: the application is to be started. -/
  | start
  /-- A reject: the sender is to be given the stall. -/
  | stall
  /-- ENCODE.AUTH: the response is to be compared with this challenge. -/
  | compare (challenge : Block)
  deriving DecidableEq, Repr

/-- What the host has done outside the block (R256). -/
inductive Deed where
  /-- A page was read at this address. -/
  | pageRead (address : Word)
  /-- A page was programmed at this address with these bytes. -/
  | programmed (address : Word) (payload : List Byte)
  /-- Read access was re-enabled. -/
  | readsReenabled
  /-- A flash error was surfaced. -/
  | flashErrorSurfaced
  /-- This key was persisted. -/
  | persisted (k : Key)
  /-- This block was sent back. -/
  | responded (r : Block)
  /-- The application was started. -/
  | started
  /-- A stall was given. -/
  | stalled
  /-- A response was compared, with this result. -/
  | compared (equal : Bool)
  deriving DecidableEq, Repr

/-- An operation the host has issued and not yet seen completed. -/
structure Awaited where
  /-- The command word. -/
  cmd : Word
  /-- It is a DECODE of a message the transport delivered. -/
  fromSender : Bool
  deriving DecidableEq, Repr

/-- Where KEY comes from, as the host knows it (R256 row "host-side encoding", R273 item 3). -/
inductive KeySource where
  /-- The block's reset: `P_BOOT_KEY`. -/
  | boot
  /-- The host's last KEYLOAD, of this key. -/
  | loaded (k : Key)
  /-- A ChangeKey the block accepted. -/
  | changed
  deriving DecidableEq, Repr

/-- The host's own record of its duties (R256). -/
structure Duties where
  /-- The operation issued, until a read of STATUS has returned BUSY = 0. -/
  awaited : Option Awaited
  /-- The host has written ARG0 since reset. -/
  arg0Written : Bool
  /-- The host has written ARG1 since reset. -/
  arg1Written : Bool
  /-- The host has written MSGLEN since reset. -/
  msglenWritten : Bool
  /-- The message the transport delivered, until a DECODE of it. -/
  message : Option (List Byte)
  /-- What the host owes. -/
  debts : List Debt
  /-- Where KEY comes from: the reset, a KEYLOAD of the host's, or a ChangeKey. -/
  keySource : KeySource
  /-- The key the host means to encode under, if it means one. -/
  encodeKey : Option Key
  /-- The challenges ENCODE.AUTH was given, newest first. -/
  challenges : List Block
  /-- The host wants its CTR stream read under one key. -/
  oneStreamKey : Bool
  /-- What the host did outside the block, newest first. -/
  deeds : List Deed
  deriving DecidableEq, Repr

/-- The record of a host that has done nothing. -/
def Duties.fresh : Duties :=
  { awaited := none
    arg0Written := false
    arg1Written := false
    msglenWritten := false
    message := none
    debts := []
    keySource := .boot
    encodeKey := none
    challenges := []
    oneStreamKey := false
    deeds := [] }

/-- The block, the accesses to come on the bus, what bus reads returned, and the host's record of its duties. -/
structure State where
  /-- The parameters of R5 to R11: configuration, not state (R22). No step changes them. They stand here
  because `exec` and `step` take the state alone, so that every statement is about every parameter choice. -/
  params : Params
  /-- ARG0[15:0] (R24). -/
  arg0 : Half
  /-- ARG1[15:0] (R25). -/
  arg1 : Half
  /-- MSGLEN[15:0] (R26). -/
  msglen : Half
  /-- STATUS.ERR and STATUS.ERRCODE (R27): `none` is ERR = 0, ERRCODE = 0. -/
  err : Option ErrCode
  /-- STATUS.MISMATCH (R27). -/
  mismatch : Bool
  /-- STATUS.VERDICT (R27). -/
  verdict : Bool
  /-- STATUS.EXITED (R27, R249). -/
  exited : Bool
  /-- STATUS.COLL (R27, R59). -/
  coll : Bool
  /-- RESULT.KIND (R28). -/
  kind : Kind
  /-- RESULT.ACTION (R28). -/
  action : Action
  /-- RESULT.ORDER (R28). -/
  order : Order
  /-- RDADDR (R29). -/
  rdaddr : Word
  /-- PGADDR (R29). -/
  pgaddr : Word
  /-- BUF (R30). -/
  buf : Memory
  /-- KEY (R31). -/
  key : Key
  /-- ACC (R32). -/
  acc : Block
  /-- CTR (R33). -/
  ctr : Block
  /-- KS (R34). -/
  ks : Block
  /-- UNUSED (R35), read at CTRSTAT (R36). -/
  unused : Nat
  /-- The operation latch (R37); STATUS.BUSY is 1 exactly while it is not empty. -/
  latch : Option Latch
  /-- The model's own: turns of the bus still to pass before the operation in flight performs (R283). -/
  wait : Nat
  /-- The model's own: free values drawn so far (notes/assumptions/4.md). -/
  draws : Nat
  /-- The model's own: the moves to come on the bus, oldest first (R61, R63). -/
  bus : List BusEvent
  /-- The model's own: what bus reads have returned, newest first. -/
  responses : List Word
  /-- The model's own: the host's record of its duties (R256). -/
  duties : Duties
  deriving DecidableEq, Repr

/-- A step of the block never faults: an error is a result in STATUS, "not a stuck, faulted or refused machine
state" (R244), and there is no trap (R247). No constructor, so nothing raises one. Safe. -/
inductive Fault where
  deriving DecidableEq, Repr

/-- Why a step has no meaning. -/
inductive Refusal where
  /-- Raised by `exec` for an instruction the model gives no meaning yet: none is left. Safe. -/
  | notModelled (mnemonic : String)
  deriving DecidableEq, Repr

/-- The state after power-on reset (R270 to R272): KEY is `P_BOOT_KEY`, nothing has written BUF, everything else
the spec names is 0 or empty, and nothing has moved on the bus. -/
def State.reset : State :=
  { params := Config.params
    arg0 := 0#16
    arg1 := 0#16
    msglen := 0#16
    err := none
    mismatch := false
    verdict := false
    exited := false
    coll := false
    kind := .none
    action := .none
    order := .equal
    rdaddr := 0#32
    pgaddr := 0#32
    buf := []
    key := Config.bootKey
    acc := 0#128
    ctr := 0#128
    ks := 0#128
    unused := 0
    latch := none
    wait := 0
    draws := 0
    bus := []
    responses := []
    duties := Duties.fresh }

end Sys2Proof.Machine
end

