-- ==== Sys2Proof/Machine/Ops.lean ====
section
/-! DEFINITION. The named operations over BUF, byte strings and the block's registers: `MemRead` and `MemWrite`
(spec/00_scope.md R15), issuing and completing an operation (spec/20_memory.md R58), raising an error
(spec/60_exceptions.md R241; the block has no trap, R247) and reset (spec/70_reset_and_hazards.md R270). -/

namespace Sys2Proof.Machine

/-! ### BUF as data -/

/-- The byte last written at an address, if one was. -/
def Memory.lookup : Memory → Nat → Option Byte
  | [], _ => none
  | (k, v) :: m, a => if k = a then some v else Memory.lookup m a

/-- `BUF[a]` (R13): the byte last written, or the free power-on byte where nothing was written (R272). -/
def Memory.read (m : Memory) (a : Nat) : Byte :=
  (Memory.lookup m a).getD (Config.bufReset a)

/-- `BUF[a] <- v`, keeping the addresses rising. A written byte is always listed: an unlisted address reads as
a free value, which no byte can be known to equal. -/
def Memory.put : Memory → Nat → Byte → Memory
  | [], a, v => [(a, v)]
  | (k, w) :: m, a, v =>
    if a < k then (a, v) :: (k, w) :: m
    else if a = k then (a, v) :: m
    else (k, w) :: Memory.put m a v

/-- Addresses strictly rising from `low` on. -/
def Memory.risingFrom : Nat → Memory → Bool
  | _, [] => true
  | low, (k, _) :: m => low ≤ k && Memory.risingFrom (k + 1) m

/-- The canonical form: addresses strictly rising. -/
def Memory.wf (m : Memory) : Bool :=
  Memory.risingFrom 0 m

/-- Every listed address lies in `[0, size)`. -/
def Memory.within (m : Memory) (size : Nat) : Bool :=
  m.all (fun cell => cell.1 < size)

/-- `MemRead(a, n)`: the byte string `BUF[a..a+n)` (R15). -/
def Memory.readBytes (m : Memory) (a : Nat) : Nat → List Byte
  | 0 => []
  | n + 1 => Memory.read m a :: Memory.readBytes m (a + 1) n

/-- `MemWrite(a, n, v)` for the string `v` of length `n` (R15). -/
def Memory.writeBytes (m : Memory) (a : Nat) : List Byte → Memory
  | [] => m
  | b :: bs => Memory.writeBytes (Memory.put m a b) (a + 1) bs

/-! ### Byte strings as bit vectors -/

/-- A byte string read as an integer, first byte most significant: `be128` on a block (R14). -/
def beNat (bs : List Byte) : Nat :=
  bs.foldl (fun n b => 256 * n + b.toNat) 0

/-- The bytes of a string held as a bit vector, first byte first. -/
def strBytes {w : Nat} (x : BitVec w) : List Byte :=
  (List.range (w / 8)).map (strByte x)

/-- `MemRead(a, w / 8)` as a bit vector. Irreducible, so that no proof unfolds it into its bytes by accident. -/
@[irreducible]
def Memory.readStr (m : Memory) (w a : Nat) : BitVec w :=
  BitVec.ofNat w (beNat (Memory.readBytes m a (w / 8)))

/-- `MemWrite(a, w / 8, x)`. Irreducible, as above. -/
@[irreducible]
def Memory.writeStr {w : Nat} (m : Memory) (a : Nat) (x : BitVec w) : Memory :=
  Memory.writeBytes m a (strBytes x)

/-- `MemRead(a, 16)` as a block. -/
def Memory.readBlock (m : Memory) (a : Nat) : Block :=
  Memory.readStr m 128 a

/-- `MemRead(a, 32)` as a key. -/
def Memory.readKey (m : Memory) (a : Nat) : Key :=
  Memory.readStr m 256 a

/-- `MemWrite(a, 16, x)` for a block `x`. -/
def Memory.writeBlock (m : Memory) (a : Nat) (x : Block) : Memory :=
  Memory.writeStr m a x

/-- The `n` consecutive blocks from `a` on, in order (R120, R140). -/
def Memory.readBlocks (m : Memory) (a : Nat) : Nat → List Block
  | 0 => []
  | n + 1 => Memory.readBlock m a :: Memory.readBlocks m (a + 16) n

/-- Consecutive blocks written from `a` on. -/
def Memory.writeBlocks (m : Memory) (a : Nat) : List Block → Memory
  | [] => m
  | x :: xs => Memory.writeBlocks (Memory.writeBlock m a x) (a + 16) xs

/-- `n` bytes from `a` on as an integer, first byte least significant: `le16` (R14) and the bus lanes (R51). -/
def Memory.readLe (m : Memory) (a : Nat) : Nat → Nat
  | 0 => 0
  | n + 1 => (Memory.read m a).toNat + 256 * Memory.readLe m (a + 1) n

/-- The low `n` bytes of an integer written from `a` on, least significant first (R51). -/
def Memory.writeLe (m : Memory) (a : Nat) : Nat → Nat → Memory
  | 0, _ => m
  | n + 1, v => Memory.writeLe (Memory.put m a (BitVec.ofNat 8 v)) (a + 1) n (v / 256)

/-! ### The operation's life (R58) -/

/-- STATUS.BUSY: an operation is in flight (R37, R39). -/
def State.busy (s : State) : Bool :=
  s.latch.isSome

/-- Issuing a command word: the latch is taken, the flags and RESULT of the operation before are cleared, BUSY
becomes 1 and a latency is drawn (R58, R39, R283). EXITED, RDADDR, PGADDR and UNUSED keep their values (D12). DESIGN
CHOICE (notes/assumptions/5.md): the latency is drawn with ARG1 in the place of `L` for every command word. -/
def State.issue (s : State) (cmd : Word) : State :=
  { s with
    latch := some { cmd := cmd, arg0 := s.arg0, arg1 := s.arg1, msglen := s.msglen }
    err := none
    mismatch := false
    verdict := false
    coll := false
    kind := .none
    action := .none
    order := .equal
    wait := Config.latency s.draws cmd s.arg1 s.msglen
    draws := s.draws + 1 }

/-- The end of a performance: BUSY becomes 0 and the latch is empty (R58, R37). -/
def State.complete (s : State) : State :=
  { s with latch := none, wait := 0 }

/-- `raise Error(code)`: the performance ends with ERR = 1 and the code, and nothing else changes (R241). -/
def State.raiseError (s : State) (code : ErrCode) : State :=
  { s with err := some code, latch := none, wait := 0 }

/-- `raise Error(code)` in MACCMP and MACVFY: the same step also sets MISMATCH (R242). -/
def State.raiseVerifyError (s : State) (code : ErrCode) : State :=
  { s with err := some code, mismatch := true, latch := none, wait := 0 }

/-- `accept(action)` (R200). -/
def State.accept (s : State) (action : Action) : State :=
  { s with verdict := true, action := action }

/-- A DECODE that accepts SetAddress with the sentinel: EXITED is set and stays set (R204). -/
def State.exit (s : State) : State :=
  { s with exited := true }

/-- The operation a latched command word names (R65, R73). -/
def Latch.fetch (l : Latch) : Except DecodeReject Instr :=
  match decode (bytesOfWord l.cmd) with
  | .ok (i, _) => .ok i
  | .error e => .error e

/-- The performance of an illegal command word: `raise Error(ILLEGAL)` (R72, R220). -/
def State.performIllegal (s : State) : State :=
  s.raiseError .illegal

/-! ### Reset -/

/-- The bytes of BUF a debt needs as they are until it is paid: offset and length (R256). -/
def Debt.held (p : Params) : Debt → Option (Nat × Nat)
  | .program => some (32, p.pageSize)
  | .persist => some (16, 32)
  | .respond => some (16, 16)
  | .reenable => none
  | .surface => none
  | .scrub _ => none
  | .start => none
  | .stall => none
  | .compare _ => none

/-- The host's record after a reset of the block (R270, R272): nothing is awaited or written, KEY is the boot key (R271), and a debt whose bytes
were in BUF can no longer be paid; what is owed besides, such as the scrub of a key a reset does not scrub (R285), stays. -/
def Duties.afterReset (d : Duties) (p : Params) : Duties :=
  { d with
    awaited := none
    arg0Written := false
    arg1Written := false
    msglenWritten := false
    message := none
    debts := d.debts.filter (fun debt => (debt.held p).isNone)
    keySource := .boot }

/-- The platform's reset (R270): an operation in flight is abandoned; KEY becomes the key of this reset (R271) and
BUF the bytes drawn for it (R272). Parameters are configuration (R22); the moves to come on the bus, what was
read and the count of draws are not the block's, and stay. The host keeps of its duties what a reset leaves
(`Duties.afterReset`). -/
def State.applyReset (s : State) (bootKey : Key) (image : List Byte) : State :=
  { State.reset with
    params := s.params
    key := bootKey
    buf := Memory.writeBytes [] 0 (image.take s.params.bufSize)
    draws := s.draws
    bus := s.bus
    responses := s.responses
    duties := s.duties.afterReset s.params }

end Sys2Proof.Machine
end

