-- ==== Sys2Proof/Machine/Modes.lean ====
section
/-! DEFINITION. The cipher modes on block strings: CBC (spec/41_key_cbc.md R120 to R123), CBC-MAC and its in-place
verifier (spec/42_cbc_mac.md R143, R146), the CTR stream (spec/43_ctr.md R173, R174), and the bodies of CBCENC, CBCDEC and MACVFY
that DECODE and ENCODE use (R207, R208, R218). Inputs are read before results are written (R57). -/

namespace Sys2Proof.Machine

/-- CBC encryption of a string of blocks after the previous ciphertext block `prev` (R122). -/
def cbcEncrypt (k : Key) (prev : Block) : List Block → List Block
  | [] => []
  | x :: xs =>
    let c := encrypt k (x ^^^ prev)
    c :: cbcEncrypt k c xs

/-- CBC decryption of a string of blocks after the previous ciphertext block `prev` (R123). -/
def cbcDecrypt (k : Key) (prev : Block) : List Block → List Block
  | [] => []
  | c :: cs => (decrypt k c ^^^ prev) :: cbcDecrypt k c cs

/-- Absorbing blocks into a running tag: `ACC <- E(ACC ⊕ x)` for each block in order (R142). -/
def macAbsorb (k : Key) (acc : Block) (xs : List Block) : Block :=
  xs.foldl (fun tag x => encrypt k (tag ^^^ x)) acc

/-- `CBC-MAC_K(x)` (R143). -/
def cbcMac (k : Key) (xs : List Block) : Block :=
  macAbsorb k 0#128 xs

/-- The verifier's walk from a claimed tag, last block first: `T <- D(T) ⊕ x` (R146). -/
def macUnwind (k : Key) (tag : Block) (xs : List Block) : Block :=
  xs.foldr (fun x t => decrypt k t ^^^ x) tag

/-- CBCENC after its error checks, on `A = a`, `L = l` (R122): the IV slot is forced to zero, then every block
from `a + 16` on is encrypted in place. -/
def State.cbcEncBody (s : State) (a l : Nat) : State :=
  let xs := Memory.readBlocks s.buf (a + 16) (l / 16)
  { s with buf := Memory.writeBlocks (Memory.writeBlock s.buf a 0#128) (a + 16) (cbcEncrypt s.key 0#128 xs) }

/-- CBCDEC after its error checks, on `A = a`, `L = l` (R123). -/
def State.cbcDecBody (s : State) (a l : Nat) : State :=
  let cs := Memory.readBlocks s.buf (a + 16) (l / 16)
  { s with buf := Memory.writeBlocks (Memory.writeBlock s.buf a 0#128) (a + 16) (cbcDecrypt s.key 0#128 cs) }

/-- The residual `T` the verifier ends with on `A = a`, `L = l` (R146). -/
def State.macResidual (s : State) (a l : Nat) : Block :=
  macUnwind s.key (Memory.readBlock s.buf (a + l)) (Memory.readBlocks s.buf a (l / 16))

/-- `MACVFY-step(a, l)` (R207): MACVFY's walk, with the residual stored in the tag slot when at least one
step ran and STATUS.MISMATCH not written. -/
def State.macVerifyStep (s : State) (a l : Nat) : State :=
  if l / 16 = 0 then s
  else { s with buf := Memory.writeBlock s.buf (a + l) (s.macResidual a l) }

/-- `inc128` (R174): one more as a big-endian integer, modulo 2^128. -/
def inc128 (x : Block) : Block :=
  x + 1#128

/-- The CTR context: counter, cached keystream block and count of its unused bytes (R33 to R35). -/
structure CtrContext where
  /-- CTR. -/
  ctr : Block
  /-- KS. -/
  ks : Block
  /-- UNUSED. -/
  unused : Nat
  deriving DecidableEq, Repr

/-- A new keystream block is generated when the cache is exhausted (R173). -/
def CtrContext.refill (k : Key) (c : CtrContext) : CtrContext :=
  if c.unused = 0 then { c with ks := encrypt k c.ctr, unused := 16 } else c

/-- One byte of the cache is used; the counter is incremented when it was the block's last (R173). -/
def CtrContext.consume (c : CtrContext) : CtrContext :=
  if c.unused - 1 = 0 then { c with unused := 0, ctr := inc128 c.ctr } else { c with unused := c.unused - 1 }

/-- The next keystream byte, `KS[16 - UNUSED]` (R35, R173). -/
def CtrContext.byte (c : CtrContext) : Byte :=
  strByte c.ks (16 - c.unused)

/-- The context after `n` bytes of CTRXOR (R173). -/
def CtrContext.advance (k : Key) : Nat → CtrContext → CtrContext
  | 0, c => c
  | n + 1, c => CtrContext.advance k n (c.refill k).consume

/-- CTRXOR on a byte string (R173). -/
def CtrContext.xorBytes (k : Key) : CtrContext → List Byte → List Byte
  | _, [] => []
  | c, b :: bs => (b ^^^ (c.refill k).byte) :: CtrContext.xorBytes k (c.refill k).consume bs

/-- The block's CTR context. -/
def State.ctrContext (s : State) : CtrContext :=
  { ctr := s.ctr, ks := s.ks, unused := s.unused }

/-- The block's CTR context replaced. -/
def State.withCtrContext (s : State) (c : CtrContext) : State :=
  { s with ctr := c.ctr, ks := c.ks, unused := c.unused }

end Sys2Proof.Machine
end

