-- ==== Sys2Proof/Machine/Operands.lean ====
section
/-! DEFINITION. The operands an operation reads (spec/30_encoding.md R74), the bounds of its BUF regions
(spec/20_memory.md R55, R56) and the message fields of DECODE and ENCODE (R84 to R91). -/

namespace Sys2Proof.Machine

/-- The values latched at the issue (R37, R74). With an empty latch, in which no operation performs, the
operand registers themselves (notes/assumptions/11.md). -/
def State.operands (s : State) : Latch :=
  s.latch.getD { cmd := 0#32, arg0 := s.arg0, arg1 := s.arg1, msglen := s.msglen }

/-- `A = zext_32(ARG0[15:0])` (R74). -/
def State.opA (s : State) : Nat :=
  s.operands.arg0.toNat

/-- `L = zext_32(ARG1[15:0])`, a length in bytes (R74). -/
def State.opL (s : State) : Nat :=
  s.operands.arg1.toNat

/-- `B = zext_32(ARG1[15:0])`, CNTCMP's second offset (R74). -/
def State.opB (s : State) : Nat :=
  s.operands.arg1.toNat

/-- `W = ARG1[15:0]`, ENCODE's wire address (R74). -/
def State.opW (s : State) : Half :=
  s.operands.arg1

/-- `M = MSGLEN[15:0]`, DECODE's only operand (R74, R200). -/
def State.opM (s : State) : Nat :=
  s.operands.msglen.toNat

/-- The region `[a, a + n)` is in bounds, without wrap-around (R56). -/
abbrev State.inBounds (s : State) (a n : Nat) : Prop :=
  a + n ≤ s.params.bufSize

/-- Classification of a message by its length (R85, R202). -/
def classify (p : Params) (m : Nat) : Kind :=
  if m = 2 then .setaddr
  else if m = p.pageSize + 32 then .program
  else if m = 48 then .changekey
  else if m = 32 then .auth
  else .none

/-- The wire address in the message: `W = le16(m[0], m[1])` with `m[i] = BUF[16 + i]` (R84, R86). -/
def State.wireAddress (s : State) : Half :=
  BitVec.ofNat 16 (Memory.readLe s.buf 16 2)

/-- `widen(W)`: the byte address of a wire address (R91, R210). -/
def widen (p : Params) (w : Half) : Nat :=
  if p.wideAddr then w.toNat * p.pageSize else w.toNat

/-- The address block of a ProgramPage: `[W mod 256, W div 256] ‖ 0^14` (R87, R217). -/
def addressBlock (w : Half) : List Byte :=
  w.setWidth 8 :: w.extractLsb' 8 8 :: List.replicate 14 0#8

/-- The address-block padding `m[2..16)` is `0^14` (R206). -/
def State.paddingZero (s : State) : Bool :=
  Memory.readBytes s.buf 18 14 == List.replicate 14 0#8

/-- ProgramPage's address policy passes (R206). -/
def State.policyPasses (s : State) : Bool :=
  widen s.params s.wireAddress % s.params.pageSize == 0
    && widen s.params s.wireAddress < s.params.bootStart
    && s.paddingZero

end Sys2Proof.Machine
end

