-- ==== Sys2Proof/Machine/Codec.lean ====
section
/-! DEFINITION. DECODE and the four ENCODE operations (spec/44_command_codec.md). Messages stand in BUF from offset 16 on
(spec/30_encoding.md R84). -/

namespace Sys2Proof.Machine

/-! ### DECODE -/

/-- SetAddress (R204, R205). -/
def State.decodeSetaddr (s : State) : State :=
  if s.wireAddress = s.params.startApp then s.exit.accept .startApp
  else ({ s with rdaddr := BitVec.ofNat 32 (widen s.params s.wireAddress) } : State).accept .setReadAddr

/-- ProgramPage (R206, R207): the address policy before any MAC step, then the MAC over `m[0..16+N)`. -/
def State.decodeProgram (s : State) : State :=
  let l := 16 + s.params.pageSize
  if ¬ s.policyPasses then s
  else if s.macResidual 16 l ≠ 0#128 then s.macVerifyStep 16 l
  else
    ({ s.macVerifyStep 16 l with
       pgaddr := BitVec.ofNat 32 (widen s.params s.wireAddress) } : State).accept .programPage

/-- ChangeKey (R208): the MAC first, then the decryption, then the new key. -/
def State.decodeChangekey (s : State) : State :=
  if s.macResidual 16 32 ≠ 0#128 then s.macVerifyStep 16 32
  else
    let t := (s.macVerifyStep 16 32).cbcDecBody 0 32
    ({ t with key := Memory.readKey t.buf 16 } : State).accept .keyChanged

/-- Authenticate (R209). -/
def State.decodeAuth (s : State) : State :=
  if s.macResidual 16 16 ≠ 0#128 then s.macVerifyStep 16 16
  else ((s.macVerifyStep 16 16).cbcDecBody 0 16).accept .authResponse

/-- The validation of a message of kind `k` in the mode ACCEPTING (R200, R203). -/
def State.decodeKind (s : State) : Kind → State
  | .none => s
  | .setaddr => s.decodeSetaddr
  | .program => s.decodeProgram
  | .changekey => s.decodeChangekey
  | .auth => s.decodeAuth

/-- DECODE's performance (R200, R202). -/
def performDecode (s : State) : State :=
  let k := classify s.params s.opM
  let t : State := { s with kind := k }
  (if s.exited then t else t.decodeKind k).complete

/-- DECODE (R200). -/
def execDecode (s : State) : Host.Outcome State Fault Refusal :=
  .next (performDecode s)

/-! ### ENCODE -/

/-- MSGLEN and RESULT.KIND as ENCODE sets them (R215). -/
def State.encoded (s : State) (length : Nat) (k : Kind) : State :=
  { s with msglen := BitVec.ofNat 16 length, kind := k }

/-- `ACC <- tag`, and the tag written at `a` (R217 to R219). -/
def State.appendTag (s : State) (a : Nat) (tag : Block) : State :=
  { s with acc := tag, buf := Memory.writeBlock s.buf a tag }

/-- ENCODE.SETADDR's performance (R216). -/
def performEncodeSetaddr (s : State) : State :=
  (({ s with buf := Memory.writeLe s.buf 16 2 s.opW.toNat } : State).encoded 2 .setaddr).complete

/-- ENCODE.SETADDR (R216). -/
def execEncodeSetaddr (s : State) : Host.Outcome State Fault Refusal :=
  .next (performEncodeSetaddr s)

/-- ENCODE.PROGRAM's address block written at offset 16 (R217). -/
def State.placeAddressBlock (s : State) : State :=
  { s with buf := Memory.writeBytes s.buf 16 (addressBlock s.opW) }

/-- ENCODE.PROGRAM's performance (R217): the MAC covers the address block and the `N` payload bytes. -/
def performEncodeProgram (s : State) : State :=
  let n := s.params.pageSize
  let t := s.placeAddressBlock
  ((t.appendTag (32 + n) (cbcMac t.key (Memory.readBlocks t.buf 16 (n / 16 + 1)))).encoded (n + 32) .program).complete

/-- ENCODE.PROGRAM (R217). -/
def execEncodeProgram (s : State) : Host.Outcome State Fault Refusal :=
  .next (performEncodeProgram s)

/-- ENCODE.CHANGEKEY's performance (R218). -/
def performEncodeChangekey (s : State) : State :=
  let t := s.cbcEncBody 0 32
  ((t.appendTag 48 (cbcMac t.key (Memory.readBlocks t.buf 16 2))).encoded 48 .changekey).complete

/-- ENCODE.CHANGEKEY (R218). -/
def execEncodeChangekey (s : State) : Host.Outcome State Fault Refusal :=
  .next (performEncodeChangekey s)

/-- ENCODE.AUTH's performance (R219). -/
def performEncodeAuth (s : State) : State :=
  let t := s.cbcEncBody 0 16
  ((t.appendTag 32 (encrypt t.key (Memory.readBlock t.buf 16))).encoded 32 .auth).complete

/-- ENCODE.AUTH (R219). -/
def execEncodeAuth (s : State) : Host.Outcome State Fault Refusal :=
  .next (performEncodeAuth s)

end Sys2Proof.Machine
end

