-- ==== Sys2Proof/Machine/Ctr.lean ====
section
/-! DEFINITION. CTRLOAD, CTRSTORE, CTRXOR, CNTINC and CNTCMP (spec/43_ctr.md). -/

namespace Sys2Proof.Machine

/-- CTRLOAD's performance (R171). -/
def performCtrload (s : State) : State :=
  if s.inBounds s.opA 16 then
    (s.withCtrContext { ctr := Memory.readBlock s.buf s.opA, ks := 0#128, unused := 0 }).complete
  else s.raiseError .bounds

/-- CTRLOAD (R171). -/
def execCtrload (s : State) : Host.Outcome State Fault Refusal :=
  .next (performCtrload s)

/-- CTRSTORE's performance (R172). -/
def performCtrstore (s : State) : State :=
  if s.inBounds s.opA 16 then
    ({ s with buf := Memory.writeBlock s.buf s.opA s.ctr } : State).complete
  else s.raiseError .bounds

/-- CTRSTORE (R172). -/
def execCtrstore (s : State) : Host.Outcome State Fault Refusal :=
  .next (performCtrstore s)

/-- CTRXOR after its bounds check, on `A = a`, `L = l` (R173). -/
def State.ctrXorBody (s : State) (a l : Nat) : State :=
  ({ s with
     buf := Memory.writeBytes s.buf a (CtrContext.xorBytes s.key s.ctrContext (Memory.readBytes s.buf a l)) } : State).withCtrContext
    (CtrContext.advance s.key l s.ctrContext)

/-- CTRXOR's performance (R173). -/
def performCtrxor (s : State) : State :=
  if s.inBounds s.opA s.opL then (s.ctrXorBody s.opA s.opL).complete
  else s.raiseError .bounds

/-- CTRXOR (R173). -/
def execCtrxor (s : State) : Host.Outcome State Fault Refusal :=
  .next (performCtrxor s)

/-- CNTINC's performance (R175). -/
def performCntinc (s : State) : State :=
  if s.inBounds s.opA 16 then
    ({ s with buf := Memory.writeBlock s.buf s.opA (inc128 (Memory.readBlock s.buf s.opA)) } : State).complete
  else s.raiseError .bounds

/-- CNTINC (R175). -/
def execCntinc (s : State) : Host.Outcome State Fault Refusal :=
  .next (performCntinc s)

/-- The order of two counters as big-endian integers (R176). -/
def counterOrder (x y : Block) : Order :=
  if x.toNat = y.toNat then .equal else if x.toNat < y.toNat then .less else .greater

/-- CNTCMP's performance (R176). -/
def performCntcmp (s : State) : State :=
  if s.inBounds s.opA 16 ∧ s.inBounds s.opB 16 then
    ({ s with order := counterOrder (Memory.readBlock s.buf s.opA) (Memory.readBlock s.buf s.opB) } : State).complete
  else s.raiseError .bounds

/-- CNTCMP (R176). -/
def execCntcmp (s : State) : Host.Outcome State Fault Refusal :=
  .next (performCntcmp s)

end Sys2Proof.Machine
end

