-- ==== Sys2Proof/Machine/KeyCbc.lean ====
section
/-! DEFINITION. KEYLOAD, CBCENC and CBCDEC (spec/41_key_cbc.md). Each meaning is the performance of an issued operation;
error checks come in the order of spec/60_exceptions.md R243. -/

namespace Sys2Proof.Machine

/-- KEYLOAD's performance (R121). -/
def performKeyload (s : State) : State :=
  if s.inBounds s.opA 32 then
    ({ s with key := Memory.readKey s.buf s.opA } : State).complete
  else s.raiseError .bounds

/-- KEYLOAD (R121). -/
def execKeyload (s : State) : Host.Outcome State Fault Refusal :=
  .next (performKeyload s)

/-- CBCENC's performance (R122). -/
def performCbcenc (s : State) : State :=
  if ¬ s.inBounds s.opA (16 + s.opL) then s.raiseError .bounds
  else if s.opL % 16 ≠ 0 then s.raiseError .notBlockAligned
  else (s.cbcEncBody s.opA s.opL).complete

/-- CBCENC (R122). -/
def execCbcenc (s : State) : Host.Outcome State Fault Refusal :=
  .next (performCbcenc s)

/-- CBCDEC's performance (R123). -/
def performCbcdec (s : State) : State :=
  if ¬ s.inBounds s.opA (16 + s.opL) then s.raiseError .bounds
  else if s.opL % 16 ≠ 0 then s.raiseError .notBlockAligned
  else (s.cbcDecBody s.opA s.opL).complete

/-- CBCDEC (R123). -/
def execCbcdec (s : State) : Host.Outcome State Fault Refusal :=
  .next (performCbcdec s)

end Sys2Proof.Machine
end

