-- ==== Sys2Proof/Machine/Mac.lean ====
section
/-! DEFINITION. MACINIT, MACUPD, MACCALC, MACSTORE, MACCMP and MACVFY (spec/42_cbc_mac.md). -/

namespace Sys2Proof.Machine

/-- MACINIT's performance (R141). -/
def performMacinit (s : State) : State :=
  ({ s with acc := 0#128 } : State).complete

/-- MACINIT (R141). -/
def execMacinit (s : State) : Host.Outcome State Fault Refusal :=
  .next (performMacinit s)

/-- MACUPD's performance (R142). -/
def performMacupd (s : State) : State :=
  if ¬ s.inBounds s.opA s.opL then s.raiseError .bounds
  else if s.opL % 16 ≠ 0 then s.raiseError .notBlockAligned
  else ({ s with acc := macAbsorb s.key s.acc (Memory.readBlocks s.buf s.opA (s.opL / 16)) } : State).complete

/-- MACUPD (R142). -/
def execMacupd (s : State) : Host.Outcome State Fault Refusal :=
  .next (performMacupd s)

/-- The tag MACCALC computes, `CBC-MAC_KEY(BUF[A..A+L))` (R143). -/
def State.calcTag (s : State) (a l : Nat) : Block :=
  cbcMac s.key (Memory.readBlocks s.buf a (l / 16))

/-- MACCALC's performance (R143): the tag in ACC and in the tag slot. -/
def performMaccalc (s : State) : State :=
  if ¬ s.inBounds s.opA (s.opL + 16) then s.raiseError .bounds
  else if s.opL % 16 ≠ 0 then s.raiseError .notBlockAligned
  else
    ({ s with
       acc := s.calcTag s.opA s.opL
       buf := Memory.writeBlock s.buf (s.opA + s.opL) (s.calcTag s.opA s.opL) } : State).complete

/-- MACCALC (R143). -/
def execMaccalc (s : State) : Host.Outcome State Fault Refusal :=
  .next (performMaccalc s)

/-- MACSTORE's performance (R144). -/
def performMacstore (s : State) : State :=
  if s.inBounds s.opA 16 then
    ({ s with buf := Memory.writeBlock s.buf s.opA s.acc } : State).complete
  else s.raiseError .bounds

/-- MACSTORE (R144). -/
def execMacstore (s : State) : Host.Outcome State Fault Refusal :=
  .next (performMacstore s)

/-- MACCMP's `diff`: the OR over all sixteen bytes of `ACC[i] XOR BUF[a + i]` is nonzero exactly when this block
is (R145). -/
def State.tagDifference (s : State) (a : Nat) : Block :=
  s.acc ^^^ Memory.readBlock s.buf a

/-- MACCMP's performance (R145, R242). -/
def performMaccmp (s : State) : State :=
  if s.inBounds s.opA 16 then
    ({ s with mismatch := s.tagDifference s.opA != 0#128 } : State).complete
  else s.raiseVerifyError .bounds

/-- MACCMP (R145). -/
def execMaccmp (s : State) : Host.Outcome State Fault Refusal :=
  .next (performMaccmp s)

/-- MACVFY's performance (R146, R242). -/
def performMacvfy (s : State) : State :=
  if ¬ s.inBounds s.opA (s.opL + 16) then s.raiseVerifyError .bounds
  else if s.opL % 16 ≠ 0 then s.raiseVerifyError .notBlockAligned
  else
    ({ s.macVerifyStep s.opA s.opL with mismatch := s.macResidual s.opA s.opL != 0#128 } : State).complete

/-- MACVFY (R146). -/
def execMacvfy (s : State) : Host.Outcome State Fault Refusal :=
  .next (performMacvfy s)

end Sys2Proof.Machine
end

