-- ==== Sys2Proof/Machine/Dispatch.lean ====
section
/-! DEFINITION. The performance of each operation of the opcode map (spec/30_encoding.md R71). -/

namespace Sys2Proof.Machine

def exec (i : Instr) (s : State) : Host.Outcome State Fault Refusal :=
  match i with
  | .keyload => Sys2Proof.Machine.execKeyload s
  | .cbcenc => Sys2Proof.Machine.execCbcenc s
  | .cbcdec => Sys2Proof.Machine.execCbcdec s
  | .macinit => Sys2Proof.Machine.execMacinit s
  | .macupd => Sys2Proof.Machine.execMacupd s
  | .maccalc => Sys2Proof.Machine.execMaccalc s
  | .macstore => Sys2Proof.Machine.execMacstore s
  | .maccmp => Sys2Proof.Machine.execMaccmp s
  | .macvfy => Sys2Proof.Machine.execMacvfy s
  | .ctrload => Sys2Proof.Machine.execCtrload s
  | .ctrstore => Sys2Proof.Machine.execCtrstore s
  | .ctrxor => Sys2Proof.Machine.execCtrxor s
  | .cntinc => Sys2Proof.Machine.execCntinc s
  | .cntcmp => Sys2Proof.Machine.execCntcmp s
  | .decode => Sys2Proof.Machine.execDecode s
  | .encodeSetaddr => Sys2Proof.Machine.execEncodeSetaddr s
  | .encodeProgram => Sys2Proof.Machine.execEncodeProgram s
  | .encodeChangekey => Sys2Proof.Machine.execEncodeChangekey s
  | .encodeAuth => Sys2Proof.Machine.execEncodeAuth s

end Sys2Proof.Machine
end

