-- ==== Sys2Proof/Machine/Flags.lean ====
section
/-! DEFINITION. The words the host reads: STATUS (spec/10_state.md R27), RESULT (R28) and CTRSTAT (R36), with the codes of
their fields (spec/60_exceptions.md R240). -/

namespace Sys2Proof.Machine

/-- STATUS.ERRCODE (R240). -/
def ErrCode.code : ErrCode → BitVec 4
  | .illegal => 1#4
  | .bounds => 2#4
  | .notBlockAligned => 3#4

/-- RESULT.KIND (R28). -/
def Kind.code : Kind → BitVec 3
  | .none => 0#3
  | .setaddr => 1#3
  | .program => 2#3
  | .changekey => 3#3
  | .auth => 4#3

/-- RESULT.ACTION (R28). -/
def Action.code : Action → BitVec 3
  | .none => 0#3
  | .setReadAddr => 1#3
  | .startApp => 2#3
  | .programPage => 3#3
  | .keyChanged => 4#3
  | .authResponse => 5#3

/-- RESULT.ORDER (R28, R176). -/
def Order.code : Order → BitVec 2
  | .equal => 0#2
  | .less => 1#2
  | .greater => 2#2

/-- STATUS.ERRCODE, 0 when ERR = 0 (R27). -/
def State.errCodeBits (s : State) : BitVec 4 :=
  match s.err with
  | none => 0#4
  | some e => e.code

/-- The word a read of STATUS returns (R27): bit 0 BUSY, 1 ERR, 2 MISMATCH, 3 VERDICT, 4 EXITED, 5 COLL,
11:8 ERRCODE. -/
def State.statusWord (s : State) : Word :=
  0#20 ++ s.errCodeBits ++ 0#2 ++ BitVec.ofBool s.coll ++ BitVec.ofBool s.exited ++ BitVec.ofBool s.verdict
    ++ BitVec.ofBool s.mismatch ++ BitVec.ofBool s.err.isSome ++ BitVec.ofBool s.busy

/-- The word a read of RESULT returns (R28): bits 2:0 KIND, 6:4 ACTION, 9:8 ORDER. -/
def State.resultWord (s : State) : Word :=
  0#22 ++ s.order.code ++ 0#1 ++ s.action.code ++ 0#1 ++ s.kind.code

/-- The word a read of CTRSTAT returns: UNUSED in bits 4:0 (R36). -/
def State.ctrstatWord (s : State) : Word :=
  (BitVec.ofNat 5 s.unused).setWidth 32

end Sys2Proof.Machine
end

