-- ==== Sys2Proof/Machine/Bus.lean ====
section
/-! DEFINITION. The bus interface: reads and writes of the register window and the BUF window (spec/10_state.md R23,
spec/20_memory.md R50 to R63). -/

namespace Sys2Proof.Machine

/-- The registers of the register map (R23). -/
inductive Reg where
  /-- Offset 0x0000, write-only. -/
  | cmd
  /-- Offset 0x0004. -/
  | arg0
  /-- Offset 0x0008. -/
  | arg1
  /-- Offset 0x000C. -/
  | msglen
  /-- Offset 0x0010, read-only. -/
  | status
  /-- Offset 0x0014, read-only. -/
  | result
  /-- Offset 0x0018, read-only. -/
  | rdaddr
  /-- Offset 0x001C, read-only. -/
  | pgaddr
  /-- Offset 0x0020, read-only. -/
  | ctrstat
  deriving DecidableEq, Repr

/-- A register's offset (R23). -/
def Reg.offset : Reg → Half
  | .cmd => 0x0000#16
  | .arg0 => 0x0004#16
  | .arg1 => 0x0008#16
  | .msglen => 0x000C#16
  | .status => 0x0010#16
  | .result => 0x0014#16
  | .rdaddr => 0x0018#16
  | .pgaddr => 0x001C#16
  | .ctrstat => 0x0020#16

/-- The register at an offset of the register window, if there is one (R23). -/
def regAt : Nat → Option Reg
  | 0x0000 => some .cmd
  | 0x0004 => some .arg0
  | 0x0008 => some .arg1
  | 0x000C => some .msglen
  | 0x0010 => some .status
  | 0x0014 => some .result
  | 0x0018 => some .rdaddr
  | 0x001C => some .pgaddr
  | 0x0020 => some .ctrstat
  | _ => none

/-- A width in bytes (R51). -/
def Width.bytes : Width → Nat
  | .byte => 1
  | .half => 2
  | .word => 4

/-- What an access of a width at an offset reaches. -/
inductive Target where
  /-- A register, by an aligned 32-bit access (R52). -/
  | reg (r : Reg)
  /-- `BUF[a..a+w)`, by a naturally aligned access inside BUF (R53). -/
  | buf (a : Nat)
  /-- Nothing: wrong width, misaligned, reserved or past BUF (R23, R52, R53). -/
  | nothing
  deriving DecidableEq, Repr

/-- What an access reaches (R23, R50, R52, R53). -/
def target (p : Params) (w : Width) (offset : Half) : Target :=
  if offset.toNat < 0x8000 then
    match w, regAt offset.toNat with
    | .word, some r => .reg r
    | _, _ => .nothing
  else if offset.toNat % w.bytes = 0 ∧ (offset.toNat - 0x8000) + w.bytes ≤ p.bufSize then
    .buf (offset.toNat - 0x8000)
  else .nothing

/-- The value a register reads as when no operation is in flight (R23 to R29, R36): CMD is write-only and reads
0, and bits outside a register's used bits read 0. -/
def State.regValue (s : State) : Reg → Word
  | .cmd => 0#32
  | .arg0 => s.arg0.setWidth 32
  | .arg1 => s.arg1.setWidth 32
  | .msglen => s.msglen.setWidth 32
  | .status => s.statusWord
  | .result => s.resultWord
  | .rdaddr => s.rdaddr
  | .pgaddr => s.pgaddr
  | .ctrstat => s.ctrstatWord

/-- Whether a register keeps its value readable while an operation is in flight: STATUS, ARG0, ARG1 (R60), and
CMD, which always reads 0 (R23; notes/assumptions/8.md). -/
def Reg.readableBusy : Reg → Bool
  | .cmd => true
  | .arg0 => true
  | .arg1 => true
  | .msglen => false
  | .status => true
  | .result => false
  | .rdaddr => false
  | .pgaddr => false
  | .ctrstat => false

/-- A bus read returns a value. -/
def State.respond (s : State) (v : Word) : State :=
  { s with responses := v :: s.responses }

/-- A bus read returns a value the spec leaves open, drawn anew for each read (R60). A narrow read returns as many
bits as it is wide. -/
def State.respondFree (s : State) (w : Width) : State :=
  { s with
    responses := BitVec.ofNat 32 ((Config.busyRead s.draws).toNat % 2 ^ (8 * w.bytes)) :: s.responses
    draws := s.draws + 1 }

/-- A bus read (R51 to R53, R60, R62). -/
def State.busRead (s : State) (w : Width) (offset : Half) : State :=
  match target s.params w offset with
  | .nothing => s.respond 0#32
  | .reg r => if s.busy && !r.readableBusy then s.respondFree w else s.respond (s.regValue r)
  | .buf a => if s.busy then s.respondFree w else s.respond (BitVec.ofNat 32 (Memory.readLe s.buf a w.bytes))

/-- A write to a register while no operation is in flight (R23 to R29, R58): CMD issues, ARG0, ARG1 and MSGLEN take
the low sixteen bits, and read-only registers ignore it. -/
def State.writeReg (s : State) (v : Word) : Reg → State
  | .cmd => s.issue v
  | .arg0 => { s with arg0 := v.setWidth 16 }
  | .arg1 => { s with arg1 := v.setWidth 16 }
  | .msglen => { s with msglen := v.setWidth 16 }
  | .status => s
  | .result => s
  | .rdaddr => s
  | .pgaddr => s
  | .ctrstat => s

/-- A bus write (R51 to R53, R58, R59): while an operation is in flight it is ignored, whatever its offset, width
or value, and sets COLL. -/
def State.busWrite (s : State) (w : Width) (offset : Half) (v : Word) : State :=
  if s.busy then { s with coll := true }
  else
    match target s.params w offset with
    | .nothing => s
    | .reg r => s.writeReg v r
    | .buf a => { s with buf := Memory.writeLe s.buf a w.bytes v.toNat }

end Sys2Proof.Machine
end

