-- ==== Sys2Proof/Machine/HostProgram.lean ====
section
/-! DEFINITION. Host programs: the assembler forms of spec/30_encoding.md R75, the pseudo-instructions of R76, and their encoding as a list
of bus accesses. A program runs by standing in the moves to come on the bus. -/

namespace Sys2Proof.Machine

/-- The basic forms of R75. -/
inductive AsmLine where
  /-- `wr REG, v`. -/
  | wr (r : Reg) (v : Word)
  /-- `wrb o, b0 b1 ... bk`. -/
  | wrb (o : Nat) (bytes : List Byte)
  /-- `rd REG`. -/
  | rd (r : Reg)
  /-- `rdb o, n`. -/
  | rdb (o n : Nat)
  /-- `poll`. -/
  | poll
  deriving DecidableEq, Repr

/-- The window offset of `BUF[o]` (R50), for `o < 0x8000`: `0x8000 + o` in sixteen bits. R75 does not say what a byte past
the end of the window is; DESIGN CHOICE (notes/assumptions/17.md): it is no access of the block, so `bufAccess` never
asks for an offset that would wrap. -/
def bufOffset (o : Nat) : Half :=
  BitVec.ofNat 16 (0x8000 + o)

/-- The access at `BUF[o]`, if its window offset `0x8000 + o` is in the window; past 0xFFFF nothing reaches the block
(DESIGN CHOICE, notes/assumptions/17.md). -/
def bufAccess (o : Nat) (access : Half → BusEvent) : List BusEvent :=
  if o < 0x8000 then [access (bufOffset o)] else []

/-- One byte write per byte, from `BUF[o]` on (R75). -/
def byteWrites (o : Nat) : List Byte → List BusEvent
  | [] => []
  | b :: bs => bufAccess o (fun offset => .write .byte offset (b.setWidth 32)) ++ byteWrites (o + 1) bs

/-- One byte read per byte of `BUF[o..o+n)` (R75). -/
def byteReads (o : Nat) : Nat → List BusEvent
  | 0 => []
  | n + 1 => bufAccess o (.read .byte) ++ byteReads (o + 1) n

/-- The bus accesses of one line (R75). -/
def AsmLine.events : AsmLine → List BusEvent
  | .wr r v => [.write .word r.offset v]
  | .wrb o bs => byteWrites o bs
  | .rd r => [.read .word r.offset]
  | .rdb o n => byteReads o n
  | .poll => [.poll]

/-- The encoding of a program: its list of bus accesses (R75). -/
def assemble (lines : List AsmLine) : List BusEvent :=
  lines.flatMap AsmLine.events

/-- The registers a pseudo-instruction writes, in the order of its operands (R71, R76). -/
def operandRegs : Instr → List Reg
  | .keyload => [.arg0]
  | .cbcenc => [.arg0, .arg1]
  | .cbcdec => [.arg0, .arg1]
  | .macinit => []
  | .macupd => [.arg0, .arg1]
  | .maccalc => [.arg0, .arg1]
  | .macstore => [.arg0]
  | .maccmp => [.arg0]
  | .macvfy => [.arg0, .arg1]
  | .ctrload => [.arg0]
  | .ctrstore => [.arg0]
  | .ctrxor => [.arg0, .arg1]
  | .cntinc => [.arg0]
  | .cntcmp => [.arg0, .arg1]
  | .decode => [.msglen]
  | .encodeSetaddr => [.arg1]
  | .encodeProgram => [.arg1]
  | .encodeChangekey => []
  | .encodeAuth => []

/-- The expansion of a pseudo-instruction: its operands written, the command issued, and a poll (R76). -/
def expand (i : Instr) (operands : List Word) : List AsmLine :=
  List.zipWith AsmLine.wr (operandRegs i) operands ++ [.wr .cmd (encode i), .poll]

end Sys2Proof.Machine
end

