-- ==== Sys2Proof/Machine/HostDuties.lean ====
section
/-! DEFINITION. The host that keeps its duties (spec/60_exceptions.md R256, spec/93_implementation_defined.md row 18) and one
turn of the bus (spec/20_memory.md R61). A move of the host that would break a "must" is not made; what the block does when a
duty is broken is the effect of the bare accesses of spec/20_memory.md R58 to R60, which any master can make (R250).
How the duties are read is notes/assumptions/13.md and 18.md to 23.md. -/

namespace Sys2Proof.Machine

/-! ### What a move must not break -/

/-- The host may make accesses other than reads of STATUS: no operation is in flight, and the host has read BUSY = 0
since its last issue (R256 row "wait", R281). -/
def State.rested (s : State) : Bool :=
  s.duties.awaited.isNone && !s.busy

/-- The host has written the register (R256 row "issue an operation"). -/
def Duties.written (d : Duties) : Reg → Bool
  | .arg0 => d.arg0Written
  | .arg1 => d.arg1Written
  | .msglen => d.msglenWritten
  | .cmd => false
  | .status => false
  | .result => false
  | .rdaddr => false
  | .pgaddr => false
  | .ctrstat => false

/-- Two regions of BUF, each an offset and a length, share a byte. -/
def overlap (r q : Nat × Nat) : Bool :=
  max r.1 q.1 < min (r.1 + r.2) (q.1 + q.2)

/-- A region of BUF holds no byte the host still owes something on (R256). -/
def State.releases (s : State) (region : Nat × Nat) : Bool :=
  s.duties.debts.all (fun debt =>
    match debt.held s.params with
    | some kept => !overlap region kept
    | none => true)

/-- The regions of BUF an operation issued now may write (spec/41_key_cbc.md to spec/44_command_codec.md). -/
def State.writtenRegions (s : State) : Instr → List (Nat × Nat)
  | .keyload => []
  | .cbcenc => [(s.arg0.toNat, 16 + s.arg1.toNat)]
  | .cbcdec => [(s.arg0.toNat, 16 + s.arg1.toNat)]
  | .macinit => []
  | .macupd => []
  | .maccalc => [(s.arg0.toNat + s.arg1.toNat, 16)]
  | .macstore => [(s.arg0.toNat, 16)]
  | .maccmp => []
  | .macvfy => [(s.arg0.toNat + s.arg1.toNat, 16)]
  | .ctrload => []
  | .ctrstore => [(s.arg0.toNat, 16)]
  | .ctrxor => [(s.arg0.toNat, s.arg1.toNat)]
  | .cntinc => [(s.arg0.toNat, 16)]
  | .cntcmp => []
  | .decode =>
    match classify s.params s.msglen.toNat with
    | .none => []
    | .setaddr => []
    | .program => [(32 + s.params.pageSize, 16)]
    | .changekey => [(0, 64)]
    | .auth => [(0, 48)]
  | .encodeSetaddr => [(16, 2)]
  | .encodeProgram => [(16, 16), (32 + s.params.pageSize, 16)]
  | .encodeChangekey => [(0, 64)]
  | .encodeAuth => [(0, 48)]

/-- The operation is a DECODE of a message of this kind. -/
def State.decodes (s : State) (i : Instr) (k : Kind) : Bool :=
  i == .decode && classify s.params s.msglen.toNat == k

/-- The operation leaves what the host still owes something on: the bytes of BUF and, while a page is to be programmed,
PGADDR (R256 rows PROGRAM_PAGE, KEY_CHANGED and AUTH_RESPONSE). -/
def State.keepsHeld (s : State) (i : Instr) : Bool :=
  (s.writtenRegions i).all s.releases && !(s.duties.debts.contains .program && s.decodes i .program)

/-- The operation cannot change KEY while the host wants its CTR stream under one key (R256 row "CTR streams", R170). -/
def State.keepsStreamKey (s : State) (i : Instr) : Bool :=
  !(s.duties.oneStreamKey && (i == .keyload || s.decodes i .changekey))

/-- A message the transport delivered stands unchanged in BUF from offset 16 on, as far as BUF reaches, with its length in
MSGLEN, when it is decoded (R256 row "deliver a message", R84). -/
def State.delivers (s : State) (i : Instr) : Bool :=
  match i, s.duties.message with
  | .decode, some bytes =>
    let n := min bytes.length (s.params.bufSize - 16)
    s.msglen.toNat == bytes.length && Memory.readBytes s.buf 16 n == bytes.take n
  | _, _ => true

/-- The operation is an ENCODE that uses KEY. -/
def encodesUnderKey : Instr → Bool
  | .encodeProgram => true
  | .encodeChangekey => true
  | .encodeAuth => true
  | _ => false

/-- The host may encode under KEY: it loaded the key with KEYLOAD, and the key it means if it means a certain one; or it
means no certain one and KEY is still `P_BOOT_KEY`, for which R273 item 3 asks for no KEYLOAD. Never under a key that
a ChangeKey put there (R256 row "host-side encoding"; notes/assumptions/18.md). -/
def Duties.encodeKeyReady (d : Duties) : Bool :=
  match d.keySource, d.encodeKey with
  | .loaded k, some meant => k == meant
  | .loaded _, none => true
  | .boot, none => true
  | .boot, some _ => false
  | .changed, _ => false

/-- ENCODE runs under a key the host may encode under, and ENCODE.AUTH is given a challenge not used before (R256 row
"host-side encoding"). -/
def State.encodesAsMeant (s : State) (i : Instr) : Bool :=
  (!encodesUnderKey i || s.duties.encodeKeyReady)
    && !(i == .encodeAuth && s.duties.challenges.contains (Memory.readBlock s.buf 16))

/-- A debt that R256 gives the host no leave to put off: it is paid before the next issue. DESIGN CHOICE
(notes/assumptions/18.md): the comparison of an ENCODE.AUTH response is not among them; R256 sets it no term, and it waits for
the response, however many issues come before. -/
def Debt.atOnce : Debt → Bool
  | .respond => true
  | .start => true
  | .stall => true
  | .program => false
  | .reenable => false
  | .surface => false
  | .persist => false
  | .scrub _ => false
  | .compare _ => false

/-- A challenge whose response is still to be compared with it (R256 row "host-side encoding"). -/
def Debt.compares : Debt → Bool
  | .compare _ => true
  | .respond => false
  | .start => false
  | .stall => false
  | .program => false
  | .reenable => false
  | .surface => false
  | .persist => false
  | .scrub _ => false

/-- Writing the command word breaks no "must" of R256's table. DESIGN CHOICE (notes/assumptions/23.md): what R273 and R286 ask
of the host and R256's table does not hold is left to the host, so none of it stops an issue here: MACINIT before MACUPD and
after a key change, CTRLOAD before CTRXOR and after a key change, KEYLOAD before a primitive other than ENCODE. -/
def State.mayIssue (s : State) (cmd : Word) : Bool :=
  !s.duties.debts.any Debt.atOnce
    && match decodeWord cmd with
      | .ok i =>
        (operandRegs i).all s.duties.written && s.keepsHeld i && s.keepsStreamKey i && s.delivers i && s.encodesAsMeant i
      | .error _ => true

/-- A read of STATUS, which the host may make at any time (R256 row "wait"). -/
def readsStatus (w : Width) (offset : Half) : Bool :=
  w == .word && offset == 0x0010#16

/-- The move breaks no "must" of R256. What "its flash bounds" are R256 leaves to the host; DESIGN CHOICE
(notes/assumptions/19.md): the bounds `readPage` carries, with RDADDR itself inside them. -/
def State.mayMove (s : State) : HostMove → Bool
  | .write w offset v =>
    s.rested
      && match target s.params w offset with
        | .reg .cmd => s.mayIssue v
        | .buf a => s.releases (a, w.bytes)
        | _ => true
  | .read w offset => s.rested || readsStatus w offset
  | .poll => true
  | .receive _ => true
  | .readPage flashStart flashEnd => s.rested && flashStart ≤ s.rdaddr.toNat && s.rdaddr.toNat < flashEnd
  | .programPage _ => s.rested && s.duties.debts.contains .program
  | .reenableReads => s.rested && s.duties.debts.contains .reenable
  | .surfaceFlashError => s.rested && s.duties.debts.contains .surface
  | .persistKey => s.rested && s.duties.debts.contains .persist
  | .sendResponse => s.rested && s.duties.debts.contains .respond
  | .startApplication => s.rested && s.duties.debts.contains .start
  | .stall => s.rested && s.duties.debts.contains .stall
  | .compareResponse _ => s.rested && s.duties.debts.any Debt.compares
  | .encodeUnder _ => true
  | .keepStreamKey _ => true

/-! ### What the host records -/

/-- A debt with some offsets of BUF overwritten: a scrub is paid when none is left (R256 row KEY_CHANGED, R285). -/
def Debt.overwrite (a n : Nat) : Debt → Option Debt
  | .scrub left =>
    let rest := left.filter (fun x => x < a || a + n ≤ x)
    if rest.isEmpty then none else some (.scrub rest)
  | debt => some debt

/-- What the host records of an issue. -/
def State.noteIssue (s : State) (cmd : Word) : Duties :=
  let d := s.duties
  match decodeWord cmd with
  | .ok .decode => { d with awaited := some { cmd := cmd, fromSender := d.message.isSome }, message := none }
  | .ok .keyload =>
    { d with
      awaited := some { cmd := cmd, fromSender := false }
      keySource :=
        if s.arg0.toNat + 32 ≤ s.params.bufSize then .loaded (Memory.readKey s.buf s.arg0.toNat) else d.keySource }
  | .ok .encodeAuth =>
    { d with
      awaited := some { cmd := cmd, fromSender := false }
      challenges := Memory.readBlock s.buf 16 :: d.challenges }
  | _ => { d with awaited := some { cmd := cmd, fromSender := false } }

/-- What the host records of a bus write of its own. -/
def State.noteWrite (s : State) (w : Width) (offset : Half) (v : Word) : Duties :=
  match target s.params w offset with
  | .reg .cmd => s.noteIssue v
  | .reg .arg0 => { s.duties with arg0Written := true }
  | .reg .arg1 => { s.duties with arg1Written := true }
  | .reg .msglen => { s.duties with msglenWritten := true }
  | .reg _ => s.duties
  | .buf a => { s.duties with debts := s.duties.debts.filterMap (Debt.overwrite a w.bytes) }
  | .nothing => s.duties

/-- What a DECODE's result asks of the host (R201, R256): a stall or a response only where a sender waits for one. -/
def decodeDebts (action : Action) (fromSender : Bool) : List Debt :=
  match action with
  | .none => if fromSender then [.stall] else []
  | .setReadAddr => []
  | .startApp => [.start]
  | .programPage => [.program]
  | .keyChanged => [.persist]
  | .authResponse => if fromSender then [.respond] else []

/-- What a completed operation asks of the host (R256). DESIGN CHOICE (notes/assumptions/22.md): of the secrets R285 finds in
BUF only the new key of a ChangeKey is owed an overwrite, after it is persisted (`.persist`); KEYLOAD's key, the
challenge of an Authenticate and the plaintext of CBCDEC and CTRXOR owe none. -/
def State.debtsOf (s : State) (a : Awaited) : List Debt :=
  match decodeWord a.cmd with
  | .ok .decode => decodeDebts s.action a.fromSender
  | .ok .encodeAuth => (s.duties.challenges.take 1).map Debt.compare
  | _ => []

/-- What the host records when it reads STATUS with BUSY = 0: the wait is over and the result's debts are its own (R256).
A ChangeKey the block accepted leaves KEY a key the host did not load. -/
def State.settled (s : State) : Duties :=
  match s.duties.awaited with
  | none => s.duties
  | some a =>
    { s.duties with
      awaited := none
      debts := s.duties.debts ++ s.debtsOf a
      keySource := if s.debtsOf a = [.persist] then .changed else s.duties.keySource }

/-- A debt paid by a deed, with what is owed after it. -/
def State.pay (s : State) (debt : Debt) (deed : Deed) (after : List Debt) : State :=
  { s with duties := { s.duties with debts := s.duties.debts.erase debt ++ after, deeds := deed :: s.duties.deeds } }

/-- A response compared with a challenge, which it must equal exactly (R256). DESIGN CHOICE (notes/assumptions/21.md): with
several challenges outstanding it is the one that has waited longest; R256 says only "compare the response with it". -/
def State.payCompare (s : State) (response : Block) : State :=
  match s.duties.debts.find? Debt.compares with
  | some (.compare challenge) => s.pay (.compare challenge) (.compared (response == challenge)) []
  | _ => s

/-- A read of STATUS by the host. -/
def State.hostReadsStatus (s : State) : State :=
  if s.busy then s.respond s.statusWord else { s.respond s.statusWord with duties := s.settled }

/-- The effect of a move of the host that breaks no "must" (R256). DESIGN CHOICE (notes/assumptions/20.md): a message the
transport delivers before the one before it is decoded replaces that one in the record, and no stall or response is owed
for the replaced message. -/
def State.makeMove (s : State) : HostMove → State
  | .write w offset v => { s with duties := s.noteWrite w offset v }.busWrite w offset v
  | .read w offset => if readsStatus w offset then s.hostReadsStatus else s.busRead w offset
  | .poll => s.hostReadsStatus
  | .receive message => { s with duties := { s.duties with message := some message } }
  | .readPage _ _ => { s with duties := { s.duties with deeds := .pageRead s.rdaddr :: s.duties.deeds } }
  | .programPage failed =>
    s.pay .program (.programmed s.pgaddr (Memory.readBytes s.buf 32 s.params.pageSize))
      (if failed then [.reenable, .surface] else [.reenable])
  | .reenableReads => s.pay .reenable .readsReenabled []
  | .surfaceFlashError => s.pay .surface .flashErrorSurfaced []
  | .persistKey => s.pay .persist (.persisted (Memory.readKey s.buf 16)) [.scrub (List.range' 16 32)]
  | .sendResponse => s.pay .respond (.responded (Memory.readBlock s.buf 16)) []
  | .startApplication => s.pay .start .started []
  | .stall => s.pay .stall .stalled []
  | .compareResponse response => s.payCompare response
  | .encodeUnder k => { s with duties := { s.duties with encodeKey := k } }
  | .keepStreamKey on => { s with duties := { s.duties with oneStreamKey := on } }

/-- A move of the host: made if it breaks no "must", and otherwise not made (R256, spec/93_implementation_defined.md row 18). -/
def State.hostTurn (s : State) (m : HostMove) : State :=
  if s.mayMove m then s.makeMove m else s

/-! ### The bus -/

/-- One turn of the bus: its oldest pending move, if there is one. A `poll` reads STATUS and stays pending until a
read returns BUSY = 0 (R75). -/
def State.busTurn (s : State) : State :=
  match s.bus with
  | [] => s
  | .host m :: rest =>
    if s.busy ∧ m = .poll then s.hostTurn m else ({ s with bus := rest } : State).hostTurn m
  | .write w offset v :: rest => ({ s with bus := rest } : State).busWrite w offset v
  | .read w offset :: rest => ({ s with bus := rest } : State).busRead w offset
  | .poll :: rest =>
    if s.busy then s.respond s.statusWord else ({ s with bus := rest } : State).respond s.statusWord
  | .reset k image :: rest => ({ s with bus := rest } : State).applyReset k image

/-! ### The end of a host program -/

/-- The move is a bus write issuing a command: an aligned 32-bit write of CMD (R23, R52). -/
def BusEvent.issues : BusEvent → Bool
  | .write w offset _ => w == .word && offset == 0#16
  | .host (.write w offset _) => w == .word && offset == 0#16
  | _ => false

/-- The move is a read of STATUS, alone or in a poll. -/
def BusEvent.readsStatus : BusEvent → Bool
  | .read w offset => Machine.readsStatus w offset
  | .poll => true
  | .host (.read w offset) => Machine.readsStatus w offset
  | .host .poll => true
  | _ => false

/-- The end of a host program (R256): the next move reads STATUS with BUSY = 0, and no move after it issues. The state the
program leaves is the block's state at that read. -/
def State.endsProgram (s : State) : Bool :=
  !s.busy
    && match s.bus with
      | [] => false
      | e :: rest => e.readsStatus && !rest.any BusEvent.issues

end Sys2Proof.Machine
end

