-- ==== Sys2Proof/Machine/Step.lean ====
section
/-! DEFINITION. One step (spec/20_memory.md R58, R61; spec/70_reset_and_hazards.md R280, R283): the performance of the operation in
flight once its latency has passed, and otherwise one turn of the bus. -/

namespace Sys2Proof.Machine

/-- The performance of the operation a latch holds: that of the decoded command word, or ILLEGAL (R58, R72). -/
def performLatched (l : Latch) (s : State) : Host.Outcome State Fault Refusal :=
  match l.fetch with
  | .ok i => exec i s
  | .error _ => .next s.performIllegal

/-- One step. With no operation in flight and no move pending the block rests: the state stays. -/
def step (s : State) : Host.Outcome State Fault Refusal :=
  match s.latch, s.wait with
  | some l, 0 => performLatched l s
  | some _, n + 1 => .next ({ s with wait := n } : State).busTurn
  | none, _ => .next s.busTurn

/-- The state right after CMD was written with the word `w` of the opcode table, its latency passed, so
that the next step performs it (R21, R58; notes/assumptions/6.md). Bits from `nbits` on are 0. -/
def State.withFetchWord (s : State) (nbits w : Nat) : State :=
  { s.issue (BitVec.ofNat 32 (w % 2 ^ nbits)) with wait := 0 }

end Sys2Proof.Machine
end

