-- ==== Sys2Proof/Safety.lean ====
section
/-! DEFINITION. What counts as a safe state, and as a host that keeps its duties, in the terms the statements use. -/

namespace Sys2Proof.Machine

/-- The invariant of the block: what the spec says of every state it can be in. -/
structure State.Inv (s : State) : Prop where
  /-- BUF is in canonical form. -/
  bufWf : Memory.wf s.buf = true
  /-- BUF lists no address outside `[0, P_BUF_SIZE)` (R30). -/
  bufWithin : Memory.within s.buf s.params.bufSize = true
  /-- UNUSED is an integer `0..16` (R35). -/
  unusedLe : s.unused ≤ 16
  /-- RDADDR holds `P_ADDR_BITS` bits (R29). -/
  rdaddrFits : s.rdaddr.toNat < 2 ^ s.params.addrBits
  /-- PGADDR holds `P_ADDR_BITS` bits (R29). -/
  pgaddrFits : s.pgaddr.toNat < 2 ^ s.params.addrBits
  /-- PGADDR is page-aligned (R206, R29). -/
  pgaddrAligned : s.pgaddr.toNat % s.params.pageSize = 0
  /-- PGADDR lies below the reserved bootloader region, or is the reset value (R206, R29). -/
  pgaddrBelowBoot : s.pgaddr = 0#32 ∨ s.pgaddr.toNat < s.params.bootStart
  /-- VERDICT = 1 exactly when an ACTION is reported (R201). -/
  verdictIffAction : s.verdict = true ↔ s.action ≠ .none
  /-- An error reports no RESULT and no VERDICT (R241). -/
  errorQuiet : s.err ≠ none → s.verdict = false ∧ s.kind = .none ∧ s.action = .none ∧ s.order = .equal
  /-- While BUSY = 1 the latched operands are the operand registers' values: no write reaches them (R37, R59). -/
  latchedOperands : ∀ l, s.latch = some l → l.arg0 = s.arg0 ∧ l.arg1 = s.arg1 ∧ l.msglen = s.msglen
  /-- While BUSY = 1 the flags and RESULT an issue clears are still clear (R58, R39). -/
  busyCleared : s.busy = true →
    s.err = none ∧ s.mismatch = false ∧ s.verdict = false ∧ s.kind = .none ∧ s.action = .none ∧ s.order = .equal

/-- Two states that differ at most in KEY, ACC, CTR and KS, the state no bus access reads (R67). -/
def State.SameButSecrets (s t : State) : Prop :=
  { t with key := s.key, acc := s.acc, ctr := s.ctr, ks := s.ks } = s

/-- Every byte outside `[a, a + n)` reads in `m'` as in `m`. -/
def Memory.SameOutside (m m' : Memory) (a n : Nat) : Prop :=
  ∀ x, x < a ∨ a + n ≤ x → Memory.read m' x = Memory.read m x

/-! ### Duties (R256) -/

/-- A move of a host that keeps its duties, or of the platform. -/
def BusEvent.bound : BusEvent → Bool
  | .host _ => true
  | .reset _ _ => true
  | .write _ _ _ => false
  | .read _ _ => false
  | .poll => false

/-- R256's assumption: only a host that keeps its duties moves on the bus. It has seen no collision (R245). -/
structure State.Dutiful (s : State) : Prop where
  /-- Every move to come is the host's or the platform's. -/
  onlyHost : s.bus.all BusEvent.bound = true
  /-- No collision is recorded. -/
  noCollision : s.coll = false

/-- The bytes of BUF a debt of the host's stands on: `debt`, the first offset and the number of bytes (R256 rows KEY_CHANGED,
PROGRAM_PAGE and AUTH_RESPONSE). -/
def State.owed (s : State) : List (Debt × Nat × Nat) :=
  [(.persist, 16, 32), (.program, 32, s.params.pageSize), (.respond, 16, 16)]

/-- The accesses and page reads that break a "must" of R256, each with the row it breaks, as notes/assumptions/18.md and
notes/assumptions/19.md read them. -/
inductive BreaksMust (s : State) : HostMove → Prop where
  /-- "wait": a bus write with an operation in flight, or before a read of STATUS has returned BUSY = 0 (R281). -/
  | writeBeforeWait (w : Width) (offset : Half) (v : Word) :
      s.duties.awaited ≠ none ∨ s.busy = true → BreaksMust s (.write w offset v)
  /-- "wait": a read of anything but STATUS then. -/
  | readBeforeWait (w : Width) (offset : Half) :
      s.duties.awaited ≠ none ∨ s.busy = true → w ≠ .word ∨ offset ≠ 0x0010#16 → BreaksMust s (.read w offset)
  /-- "issue an operation": an operand register the operation reads is not written. -/
  | issueWithoutOperands (cmd : Word) (i : Instr) (r : Reg) :
      decodeWord cmd = .ok i → r ∈ operandRegs i → s.duties.written r = false → BreaksMust s (.write .word 0#16 cmd)
  /-- "deliver a message": the length in MSGLEN is not the delivered message's (R84). -/
  | decodeOtherLength (cmd : Word) (message : List Byte) :
      decodeWord cmd = .ok .decode → s.duties.message = some message → s.msglen.toNat ≠ message.length →
      BreaksMust s (.write .word 0#16 cmd)
  /-- "deliver a message": a byte in BUF is not the delivered message's (R84). -/
  | decodeOtherBytes (cmd : Word) (message : List Byte) (j : Nat) (b : Byte) :
      decodeWord cmd = .ok .decode → s.duties.message = some message → 16 + j < s.params.bufSize →
      message[j]? = some b → b ≠ Memory.read s.buf (16 + j) → BreaksMust s (.write .word 0#16 cmd)
  /-- KEY_CHANGED, PROGRAM_PAGE, AUTH_RESPONSE: a bus write, of any width, of a byte owed. -/
  | overwriteOwed (w : Width) (o : Nat) (v : Word) (debt : Debt) (a n x : Nat) :
      debt ∈ s.duties.debts → (debt, a, n) ∈ s.owed → o % w.bytes = 0 → o + w.bytes ≤ s.params.bufSize →
      o ≤ x ∧ x < o + w.bytes → a ≤ x ∧ x < a + n → BreaksMust s (.write w (BitVec.ofNat 16 (0x8000 + o)) v)
  /-- The same: an operation one of whose regions holds a byte owed. -/
  | operateOverOwed (cmd : Word) (i : Instr) (region : Nat × Nat) (debt : Debt) (a n x : Nat) :
      decodeWord cmd = .ok i → region ∈ s.writtenRegions i → debt ∈ s.duties.debts → (debt, a, n) ∈ s.owed →
      region.1 ≤ x ∧ x < region.1 + region.2 → a ≤ x ∧ x < a + n → BreaksMust s (.write .word 0#16 cmd)
  /-- PROGRAM_PAGE: the DECODE of another ProgramPage, which could change PGADDR. -/
  | decodePageOverOwed (cmd : Word) :
      decodeWord cmd = .ok .decode → Debt.program ∈ s.duties.debts → s.msglen.toNat = s.params.pageSize + 32 →
      BreaksMust s (.write .word 0#16 cmd)
  /-- AUTH_RESPONSE, START_APP and reject: a command word is written before the response, the start or the stall. -/
  | issueBeforePaying (cmd : Word) (debt : Debt) :
      debt ∈ s.duties.debts → debt = .respond ∨ debt = .start ∨ debt = .stall → BreaksMust s (.write .word 0#16 cmd)
  /-- "host-side encoding": ENCODE.AUTH is given a challenge used before. -/
  | staleChallenge (cmd : Word) :
      decodeWord cmd = .ok .encodeAuth → Memory.readBlock s.buf 16 ∈ s.duties.challenges →
      BreaksMust s (.write .word 0#16 cmd)
  /-- "host-side encoding": ENCODE under a key a ChangeKey put there (R273 item 3). -/
  | encodeUnderChangedKey (cmd : Word) (i : Instr) :
      decodeWord cmd = .ok i → i ∈ [Instr.encodeProgram, .encodeChangekey, .encodeAuth] →
      s.duties.keySource = .changed → BreaksMust s (.write .word 0#16 cmd)
  /-- "host-side encoding": ENCODE under a key other than the one meant, or not loaded with KEYLOAD. -/
  | encodeUnderOtherKey (cmd : Word) (i : Instr) (k : Key) :
      decodeWord cmd = .ok i → i ∈ [Instr.encodeProgram, .encodeChangekey, .encodeAuth] →
      s.duties.encodeKey = some k → s.duties.keySource ≠ .loaded k → BreaksMust s (.write .word 0#16 cmd)
  /-- "CTR streams": KEY would change during a stream wanted under one key (R170). -/
  | changeStreamKey (cmd : Word) (i : Instr) :
      s.duties.oneStreamKey = true → decodeWord cmd = .ok i → i = .keyload ∨ (i = .decode ∧ s.msglen.toNat = 48) →
      BreaksMust s (.write .word 0#16 cmd)
  /-- SET_READ_ADDR: a page read with RDADDR outside the flash's bounds. -/
  | readOutsideFlash (flashStart flashEnd : Nat) :
      s.rdaddr.toNat < flashStart ∨ flashEnd ≤ s.rdaddr.toNat → BreaksMust s (.readPage flashStart flashEnd)

/-! ### Bare accesses that wait -/

/-- The duty to wait over bare accesses (R256, R281): with an operation in flight (`waiting`), nothing but reads of STATUS
and a poll until the poll has seen BUSY = 0. The platform's reset is no access. -/
def keepsWaiting : Bool → List BusEvent → Bool
  | _, [] => true
  | _, .host _ :: _ => false
  | _, .poll :: rest => keepsWaiting false rest
  | _, .reset _ _ :: rest => keepsWaiting false rest
  | true, e :: rest => e.readsStatus && keepsWaiting true rest
  | false, e :: rest => keepsWaiting e.issues rest

/-- Bare accesses that keep the duty to wait, and no collision seen (R245, R256). -/
structure State.KeepsWaiting (s : State) : Prop where
  /-- The accesses to come keep the duty. -/
  waits : keepsWaiting s.busy s.bus = true
  /-- No collision is recorded. -/
  noCollision : s.coll = false

end Sys2Proof.Machine
end

