-- ==== Sys2Proof/Certificates/Slice0/Obligations.lean ====
section
/-! DEFINITION. The statements for the provers. In each, `s.opA`, `s.opL`, `s.opB`, `s.opW` and `s.opM` are the operands latched at
the issue (spec/30_encoding.md R74), and a next state is written as the state before with the fields the rule
names replaced, so that everything not named is unchanged; `latch := none, wait := 0` is the end of a
performance, BUSY = 0 (spec/20_memory.md R58). -/

open Sys2Proof Sys2Proof.Machine

/-! ### Encoding and stepping -/

/-- R73: the nineteen words are the legal set, each matched on all 32 bits, and decoding reads nothing else. The order of a
word's bytes is the model's choice (log entry 12). -/
def Obligations.CommandWordsRoundTrip : Prop :=
  ∀ (bytes rest : List Byte) (i : Instr), decode bytes = .ok (i, rest) ↔ bytes = encodeBytes i ++ rest

/-- R72: when a command word is illegal, that it still issues, and that it performs as `Error(ILLEGAL)` with no
effect besides STATUS. -/
def Obligations.IllegalWordsRaiseIllegal : Prop :=
  (∀ w : Word, (∀ i, decodeWord w ≠ .ok i) ↔
    (¬ (w.extractLsb' 0 8).toNat ∈ [1, 2, 3, 4, 5, 6, 7, 8, 9, 10, 11, 12, 13, 14, 16, 17])
    ∨ (w.extractLsb' 0 8 ≠ 0x11#8 ∧ w.extractLsb' 8 4 ≠ 0#4)
    ∨ (w.extractLsb' 0 8 = 0x11#8 ∧ ¬ (w.extractLsb' 8 4).toNat ∈ [1, 2, 3, 4])
    ∨ w.extractLsb' 12 20 ≠ 0#20)
  ∧ (∀ (s : State) (w : Word) (rest : List BusEvent), s.latch = none →
      s.bus = .write .word 0#16 w :: rest →
      ∃ t, step s = .next t ∧ t.busy = true ∧ t.latch.map Latch.cmd = some w)
  ∧ (∀ (s : State) (l : Latch), s.latch = some l → s.wait = 0 → (∀ i, decodeWord l.cmd ≠ .ok i) →
      step s = .next { s with err := some .illegal, latch := none, wait := 0 })

/-- R71: command words read out of the table, one or more of each family. -/
def Obligations.SampleWordsDecode : Prop :=
  decodeWord 0x00000001#32 = .ok .keyload ∧ decodeWord 0x00000003#32 = .ok .cbcdec
  ∧ decodeWord 0x00000009#32 = .ok .macvfy ∧ decodeWord 0x0000000C#32 = .ok .ctrxor
  ∧ decodeWord 0x0000000E#32 = .ok .cntcmp ∧ decodeWord 0x00000010#32 = .ok .decode
  ∧ decodeWord 0x00000211#32 = .ok .encodeProgram ∧ decodeWord 0x00000411#32 = .ok .encodeAuth

/-- A step runs the decoded instruction: with an operation in flight whose latency has passed, the step is the
meaning of the operation its latched command word decodes to. -/
def Obligations.StepPerformsDecodedCommand : Prop :=
  ∀ (s : State) (l : Latch) (i : Instr), s.latch = some l → s.wait = 0 → decodeWord l.cmd = .ok i →
    step s = exec i s

/-- Every other step is one turn of the bus (the model's choice, log entries 5 and 6): while an operation waits
it counts its latency down; with no operation in flight and no move pending nothing changes. A poll reads STATUS in
every turn, stays pending while BUSY = 1, and is done with the read that returns BUSY = 0 (R75); it changes nothing else. -/
def Obligations.OtherStepsAreHostTurns : Prop :=
  (∀ (s : State) (n : Nat), s.busy = true → s.wait = n + 1 → step s = .next ({ s with wait := n } : State).busTurn)
  ∧ (∀ s : State, s.busy = false → step s = .next s.busTurn)
  ∧ (∀ s : State, s.busy = false → s.bus = [] → step s = .next s)
  ∧ (∀ (s : State) (n : Nat) (rest : List BusEvent), s.busy = true → s.wait = n + 1 →
      s.bus = .poll :: rest ∨ s.bus = .host .poll :: rest →
      step s = .next { s with wait := n, responses := s.statusWord :: s.responses })
  ∧ (∀ (s : State) (rest : List BusEvent), s.busy = false → s.bus = .poll :: rest →
      step s = .next { s with bus := rest, responses := s.statusWord :: s.responses })

/-- R74: the operands are the low sixteen bits of the operand registers, zero extended, as latched at issue, and the
one register ARG1 is `L`, `B` and `W`. -/
def Obligations.OperandsAreTheLatchedRegisters : Prop :=
  ∀ (s : State) (w : Word) (rest : List BusEvent), s.latch = none → s.bus = .write .word 0#16 w :: rest →
    ∃ t, step s = .next t ∧ ∀ u : State, u.latch = t.latch →
      u.opA = s.arg0.toNat ∧ u.opL = s.arg1.toNat ∧ u.opB = s.arg1.toNat ∧ u.opW = s.arg1 ∧ u.opM = s.msglen.toNat

/-- R58, the issue: a write of CMD with BUSY = 0 takes the latch, clears the flags and RESULT of the operation
before, sets BUSY and changes nothing else of the block. The values of `wait` and `draws` are the model's. -/
def Obligations.CommandWriteIssues : Prop :=
  ∀ (s : State) (w : Word) (rest : List BusEvent), s.latch = none → s.bus = .write .word 0#16 w :: rest →
    ∃ n d, step s = .next { s with
      latch := some { cmd := w, arg0 := s.arg0, arg1 := s.arg1, msglen := s.msglen }
      err := none, mismatch := false, verdict := false, coll := false
      kind := .none, action := .none, order := .equal
      bus := rest, wait := n, draws := d }

/-- R58 and R283: an issued operation performs after finitely many steps, once, on its latched word and operands,
with BUSY = 1 and the latch held in every state until then and BUSY = 0 after that step, unless a reset comes before.
The count of steps, `wait`, is the model's (log entry 5). -/
def Obligations.IssuedOperationPerforms : Prop :=
  ∀ (s : State) (l : Latch), s.latch = some l → (∀ e ∈ s.bus.take s.wait, ∀ k image, e ≠ .reset k image) →
    (∀ n, n ≤ s.wait → ∃ v, Host.Core.run core n s = .next v ∧ v.latch = some l ∧ v.busy = true)
    ∧ ∃ u, Host.Core.run core s.wait s = .next u ∧ u.latch = some l ∧ u.wait = 0
      ∧ u.buf = s.buf ∧ u.key = s.key ∧ u.acc = s.acc ∧ u.ctr = s.ctr ∧ u.ks = s.ks ∧ u.unused = s.unused
      ∧ u.rdaddr = s.rdaddr ∧ u.pgaddr = s.pgaddr ∧ u.exited = s.exited
      ∧ ∃ t, step u = performLatched l u ∧ step u = .next t ∧ t.busy = false

/-! ### Reset and the bus -/

/-- R270 with the key of R271: what a reset leaves, at power-on and by the platform's reset input, which an operation in
flight does not survive. BUF is unspecified after a reset (R272), so nothing is said of it. -/
def Obligations.ResetLeavesTheSpecValues : Prop :=
  (∀ (s : State) (k : Key) (image : List Byte) (rest : List BusEvent),
    (s.latch = none ∨ s.wait ≠ 0) → s.bus = .reset k image :: rest →
    ∃ t, step s = .next t ∧ t.arg0 = 0#16 ∧ t.arg1 = 0#16 ∧ t.msglen = 0#16 ∧ t.statusWord = 0#32
      ∧ t.resultWord = 0#32 ∧ t.rdaddr = 0#32 ∧ t.pgaddr = 0#32 ∧ t.ctrstatWord = 0#32 ∧ t.key = k
      ∧ t.acc = 0#128 ∧ t.ctr = 0#128 ∧ t.ks = 0#128 ∧ t.unused = 0 ∧ t.latch = none)
  ∧ State.reset.statusWord = 0#32 ∧ State.reset.resultWord = 0#32 ∧ State.reset.key = Config.bootKey
  ∧ State.reset.latch = none ∧ State.reset.arg0 = 0#16 ∧ State.reset.arg1 = 0#16 ∧ State.reset.msglen = 0#16
  ∧ State.reset.rdaddr = 0#32 ∧ State.reset.pgaddr = 0#32 ∧ State.reset.ctrstatWord = 0#32
  ∧ State.reset.acc = 0#128 ∧ State.reset.ctr = 0#128 ∧ State.reset.ks = 0#128 ∧ State.reset.unused = 0

/-- R59: while BUSY = 1 every bus write, whatever its offset, width or value, is ignored and sets COLL. -/
def Obligations.WritesWhileBusyOnlyCollide : Prop :=
  ∀ (s : State) (n : Nat) (w : Width) (offset : Half) (v : Word) (rest : List BusEvent),
    s.busy = true → s.wait = n + 1 → s.bus = .write w offset v :: rest →
    step s = .next { s with coll := true, wait := n, bus := rest }

/-- R60: what reads return while BUSY = 1 (STATUS, ARG0 and ARG1 their values; any other access some value, one draw a
read), that they change nothing of the block, and that reads while BUSY = 0 return the current values: of each register at
its offset (R23 to R29, R36), and of each byte of BUF. That a byte read has zeros above bit 7 is the model's choice
(log entry 7). -/
def Obligations.ReadsReturn : Prop :=
  (∀ (s : State) (n : Nat) (w : Width) (offset : Half) (rest : List BusEvent), s.busy = true → s.wait = n + 1 →
    s.bus = .read w offset :: rest →
    ∃ v d, step s = .next { s with wait := n, bus := rest, responses := v :: s.responses, draws := d }
      ∧ (w = .word → offset = 0x0010#16 → v = s.statusWord)
      ∧ (w = .word → offset = 0x0004#16 → v = s.arg0.setWidth 32)
      ∧ (w = .word → offset = 0x0008#16 → v = s.arg1.setWidth 32))
  ∧ (∀ (s : State) (offset : Half) (v : Word) (rest : List BusEvent), s.busy = false →
    s.bus = .read .word offset :: rest →
    (offset, v) ∈ [(0x0000#16, 0#32), (0x0004#16, s.arg0.setWidth 32), (0x0008#16, s.arg1.setWidth 32),
      (0x000C#16, s.msglen.setWidth 32), (0x0010#16, s.statusWord), (0x0014#16, s.resultWord), (0x0018#16, s.rdaddr),
      (0x001C#16, s.pgaddr), (0x0020#16, s.ctrstatWord)] →
    step s = .next { s with bus := rest, responses := v :: s.responses })
  ∧ (∀ (s : State) (o : Nat) (rest : List BusEvent), s.busy = false → o < s.params.bufSize →
    s.bus = .read .byte (BitVec.ofNat 16 (0x8000 + o)) :: rest →
    step s = .next { s with bus := rest, responses := (Memory.read s.buf o).setWidth 32 :: s.responses })

/-- R62: a read of any width at any offset changes nothing of the block, in flight or not. -/
def Obligations.ReadsHaveNoSideEffects : Prop :=
  ∀ (s : State) (w : Width) (offset : Half) (rest : List BusEvent),
    (s.busy = true → s.wait ≠ 0) → s.bus = .read w offset :: rest →
    ∃ v d n, step s = .next { s with wait := n, bus := rest, responses := v :: s.responses, draws := d }
      ∧ (s.busy = false → n = s.wait ∧ d = s.draws)

/-- R51: the byte lanes of the BUF window are little-endian, for aligned accesses inside BUF. That a narrow read has zeros
above its lanes is the model's choice (log entry 7). -/
def Obligations.BufLanesAreLittleEndian : Prop :=
  (∀ (s : State) (w : Width) (o : Nat) (v : Word) (rest : List BusEvent), s.busy = false →
    o % w.bytes = 0 → o + w.bytes ≤ s.params.bufSize → s.bus = .write w (BitVec.ofNat 16 (0x8000 + o)) v :: rest →
    ∃ m, step s = .next { s with buf := m, bus := rest }
      ∧ (∀ j, j < w.bytes → Memory.read m (o + j) = v.extractLsb' (8 * j) 8)
      ∧ Memory.SameOutside s.buf m o w.bytes)
  ∧ (∀ (s : State) (w : Width) (o : Nat) (rest : List BusEvent), s.busy = false →
    o % w.bytes = 0 → o + w.bytes ≤ s.params.bufSize → s.bus = .read w (BitVec.ofNat 16 (0x8000 + o)) :: rest →
    ∃ v : Word, step s = .next { s with bus := rest, responses := v :: s.responses }
      ∧ (∀ j, j < w.bytes → v.extractLsb' (8 * j) 8 = Memory.read s.buf (o + j)) ∧ v.toNat < 2 ^ (8 * w.bytes))

/-- R52, R53 and R23: register accesses of another width or alignment, accesses of the reserved offsets 0x0024 to 0x7FFC, and
BUF window accesses that are misaligned or reach past BUF, are ignored on write and return 0 on read; while BUSY = 1
such a write still sets COLL. -/
def Obligations.MisplacedAccessesAreIgnored : Prop :=
  ∀ (s : State) (w : Width) (offset : Half) (rest : List BusEvent),
    ((offset.toNat < 0x8000 ∧ (w ≠ .word ∨ offset.toNat % 4 ≠ 0 ∨ 0x0024 ≤ offset.toNat))
      ∨ (0x8000 ≤ offset.toNat ∧
          (offset.toNat % w.bytes ≠ 0 ∨ s.params.bufSize < offset.toNat - 0x8000 + w.bytes))) →
    (s.busy = false →
      (∀ v, s.bus = .write w offset v :: rest → step s = .next { s with bus := rest })
      ∧ (s.bus = .read w offset :: rest → step s = .next { s with bus := rest, responses := 0#32 :: s.responses }))
    ∧ (∀ n v, s.busy = true → s.wait = n + 1 → s.bus = .write w offset v :: rest →
      step s = .next { s with coll := true, wait := n, bus := rest })

/-- R24 to R26 and R23: an aligned word write with BUSY = 0 sets bits 15:0 of ARG0, ARG1 or MSGLEN and ignores bits 31:16,
which read 0; a write of a read-only register or a reserved offset is ignored. -/
def Obligations.RegisterWritesTakeLowHalf : Prop :=
  ∀ (s : State) (offset : Half) (v : Word) (rest : List BusEvent), s.busy = false →
    offset.toNat < 0x8000 → offset.toNat % 4 = 0 → offset ≠ 0#16 → s.bus = .write .word offset v :: rest →
    (offset = 0x0004#16 → step s = .next { s with arg0 := v.extractLsb' 0 16, bus := rest })
    ∧ (offset = 0x0008#16 → step s = .next { s with arg1 := v.extractLsb' 0 16, bus := rest })
    ∧ (offset = 0x000C#16 → step s = .next { s with msglen := v.extractLsb' 0 16, bus := rest })
    ∧ (offset ≠ 0x0004#16 → offset ≠ 0x0008#16 → offset ≠ 0x000C#16 → step s = .next { s with bus := rest })
    ∧ (s.regValue .arg0).toNat = s.arg0.toNat ∧ (s.regValue .arg1).toNat = s.arg1.toNat
    ∧ (s.regValue .msglen).toNat = s.msglen.toNat

/-- R27, R28 and R36: where each field stands in the words of STATUS, RESULT and CTRSTAT, with its codes, and that
reserved bits are 0. -/
def Obligations.StatusAndResultLayout : Prop :=
  ∀ s : State,
    s.statusWord.getLsbD 0 = s.latch.isSome ∧ s.statusWord.getLsbD 1 = s.err.isSome
    ∧ s.statusWord.getLsbD 2 = s.mismatch ∧ s.statusWord.getLsbD 3 = s.verdict
    ∧ s.statusWord.getLsbD 4 = s.exited ∧ s.statusWord.getLsbD 5 = s.coll
    ∧ s.statusWord.extractLsb' 6 2 = 0#2 ∧ s.statusWord.extractLsb' 12 20 = 0#20
    ∧ s.statusWord.extractLsb' 8 4 = (match s.err with
        | none => 0#4 | some .illegal => 1#4 | some .bounds => 2#4 | some .notBlockAligned => 3#4)
    ∧ s.resultWord.extractLsb' 0 3 = (match s.kind with
        | .none => 0#3 | .setaddr => 1#3 | .program => 2#3 | .changekey => 3#3 | .auth => 4#3)
    ∧ s.resultWord.extractLsb' 4 3 = (match s.action with
        | .none => 0#3 | .setReadAddr => 1#3 | .startApp => 2#3 | .programPage => 3#3 | .keyChanged => 4#3
        | .authResponse => 5#3)
    ∧ s.resultWord.extractLsb' 8 2 = (match s.order with | .equal => 0#2 | .less => 1#2 | .greater => 2#2)
    ∧ s.resultWord.getLsbD 3 = false ∧ s.resultWord.getLsbD 7 = false ∧ s.resultWord.extractLsb' 10 22 = 0#22
    ∧ (s.unused ≤ 16 → s.ctrstatWord.toNat = s.unused)

/-- R76: each pseudo-instruction's expansion as bus accesses, and that the block, at rest, takes them: the command word is
issued with the operands written and the operand registers not written as they were, and a poll is left to do. -/
def Obligations.PseudoInstructionsIssue : Prop :=
  (∀ (i : Instr) (a : Word), i ∈ [Instr.keyload, .macstore, .maccmp, .ctrload, .ctrstore, .cntinc] →
    assemble (expand i [a]) = [.write .word 0x0004#16 a, .write .word 0x0000#16 (encode i), .poll])
  ∧ (∀ (i : Instr) (a l : Word), i ∈ [Instr.cbcenc, .cbcdec, .macupd, .maccalc, .macvfy, .ctrxor, .cntcmp] →
    assemble (expand i [a, l])
      = [.write .word 0x0004#16 a, .write .word 0x0008#16 l, .write .word 0x0000#16 (encode i), .poll])
  ∧ (∀ n : Word, assemble (expand .decode [n]) = [.write .word 0x000C#16 n, .write .word 0x0000#16 0x10#32, .poll])
  ∧ (∀ (i : Instr) (w : Word), i ∈ [Instr.encodeSetaddr, .encodeProgram] →
    assemble (expand i [w]) = [.write .word 0x0008#16 w, .write .word 0x0000#16 (encode i), .poll])
  ∧ (∀ i : Instr, i ∈ [Instr.macinit, .encodeChangekey, .encodeAuth] →
    assemble (expand i []) = [.write .word 0x0000#16 (encode i), .poll])
  ∧ ∀ (s : State) (i : Instr) (vs : List Word) (rest : List BusEvent), s.busy = false →
    vs.length = (operandRegs i).length → s.bus = assemble (expand i vs) ++ rest →
    ∃ t, Host.Core.run core (vs.length + 1) s = .next t ∧ t.bus = .poll :: rest ∧ t.buf = s.buf ∧ t.key = s.key
      ∧ t.latch = some {
          cmd := encode i
          arg0 := if Reg.arg0 ∈ operandRegs i then (vs.getD 0 0#32).setWidth 16 else s.arg0
          arg1 := if Reg.arg1 ∈ operandRegs i then (vs.getLastD 0#32).setWidth 16 else s.arg1
          msglen := if Reg.msglen ∈ operandRegs i then (vs.getD 0 0#32).setWidth 16 else s.msglen }

/-! ### The block cipher, KEYLOAD and CBC -/

/-- R100: `D_K` is the inverse of `E_K`. -/
def Obligations.DecryptInvertsEncrypt : Prop :=
  ∀ (k : Key) (x y : Block), decrypt k (encrypt k x) = x ∧ encrypt k (decrypt k y) = y

/-- R121: KEYLOAD. -/
def Obligations.KeyloadLoadsTheKey : Prop :=
  decodeWord 0x00000001#32 = .ok .keyload ∧ ∀ s : State,
    (s.opA + 32 ≤ s.params.bufSize →
      ∃ k : Key, exec .keyload s = .next { s with key := k, latch := none, wait := 0 }
        ∧ ∀ i, i < 32 → strByte k i = Memory.read s.buf (s.opA + i))
    ∧ (s.params.bufSize < s.opA + 32 →
      exec .keyload s = .next { s with err := some .bounds, latch := none, wait := 0 })

/-- R122: CBCENC. -/
def Obligations.CbcencEncryptsInPlace : Prop :=
  decodeWord 0x00000002#32 = .ok .cbcenc ∧ ∀ s : State,
    (s.opA + 16 + s.opL ≤ s.params.bufSize → s.opL % 16 = 0 →
      ∃ m, exec .cbcenc s = .next { s with buf := m, latch := none, wait := 0 }
        ∧ Memory.readBlock m s.opA = 0#128
        ∧ (∀ j, j < s.opL / 16 → Memory.readBlock m (s.opA + 16 * (j + 1))
            = encrypt s.key (Memory.readBlock s.buf (s.opA + 16 * (j + 1)) ^^^ Memory.readBlock m (s.opA + 16 * j)))
        ∧ Memory.SameOutside s.buf m s.opA (16 + s.opL))
    ∧ (s.opA + 16 + s.opL ≤ s.params.bufSize → s.opL % 16 ≠ 0 →
      exec .cbcenc s = .next { s with err := some .notBlockAligned, latch := none, wait := 0 })
    ∧ (s.params.bufSize < s.opA + 16 + s.opL →
      exec .cbcenc s = .next { s with err := some .bounds, latch := none, wait := 0 })

/-- R123: CBCDEC. -/
def Obligations.CbcdecDecryptsInPlace : Prop :=
  decodeWord 0x00000003#32 = .ok .cbcdec ∧ ∀ s : State,
    (s.opA + 16 + s.opL ≤ s.params.bufSize → s.opL % 16 = 0 →
      ∃ m, exec .cbcdec s = .next { s with buf := m, latch := none, wait := 0 }
        ∧ Memory.readBlock m s.opA = 0#128
        ∧ (∀ j, j < s.opL / 16 → Memory.readBlock m (s.opA + 16 * (j + 1))
            = decrypt s.key (Memory.readBlock s.buf (s.opA + 16 * (j + 1)))
              ^^^ (if j = 0 then 0#128 else Memory.readBlock s.buf (s.opA + 16 * j)))
        ∧ Memory.SameOutside s.buf m s.opA (16 + s.opL))
    ∧ (s.opA + 16 + s.opL ≤ s.params.bufSize → s.opL % 16 ≠ 0 →
      exec .cbcdec s = .next { s with err := some .notBlockAligned, latch := none, wait := 0 })
    ∧ (s.params.bufSize < s.opA + 16 + s.opL →
      exec .cbcdec s = .next { s with err := some .bounds, latch := none, wait := 0 })

/-- R124: CBCENC then CBCDEC, or CBCDEC then CBCENC, on the same operands under an unchanged KEY leaves the data as it was
and the IV slot zero. `r` is any state the second operation performs in. -/
def Obligations.CbcRoundTrips : Prop :=
  ∀ s : State, s.opA + 16 + s.opL ≤ s.params.bufSize → s.opL % 16 = 0 →
    ∃ t t', exec .cbcenc s = .next t ∧ exec .cbcdec s = .next t'
      ∧ ∀ r r' : State, r.buf = t.buf → r'.buf = t'.buf →
        r.key = s.key → r.params = s.params → r.opA = s.opA → r.opL = s.opL →
        r'.key = s.key → r'.params = s.params → r'.opA = s.opA → r'.opL = s.opL →
        ∃ u u', exec .cbcdec r = .next u ∧ exec .cbcenc r' = .next u'
          ∧ (∀ x, x < s.opA ∨ s.opA + 16 ≤ x → Memory.read u.buf x = Memory.read s.buf x)
          ∧ (∀ x, x < s.opA ∨ s.opA + 16 ≤ x → Memory.read u'.buf x = Memory.read s.buf x)
          ∧ Memory.readBlock u.buf s.opA = 0#128 ∧ Memory.readBlock u'.buf s.opA = 0#128

/-! ### CBC-MAC -/

/-- R141: MACINIT, and that a MACSTORE that finds ACC as MACINIT left it writes `0^16`. -/
def Obligations.MacinitClearsTheTag : Prop :=
  decodeWord 0x00000004#32 = .ok .macinit ∧ ∀ s : State,
    exec .macinit s = .next { s with acc := 0#128, latch := none, wait := 0 }
    ∧ ∀ t r : State, exec .macinit s = .next t → r.acc = t.acc → r.opA + 16 ≤ r.params.bufSize →
      ∃ u, exec .macstore r = .next u ∧ ∀ i, i < 16 → Memory.read u.buf (r.opA + i) = 0#8

/-- R142: MACUPD. -/
def Obligations.MacupdAbsorbsBlocks : Prop :=
  decodeWord 0x00000005#32 = .ok .macupd ∧ ∀ s : State,
    (s.opA + s.opL ≤ s.params.bufSize → s.opL % 16 = 0 →
      ∃ tag : Nat → Block, tag 0 = s.acc
        ∧ (∀ j, j < s.opL / 16 → tag (j + 1) = encrypt s.key (tag j ^^^ Memory.readBlock s.buf (s.opA + 16 * j)))
        ∧ exec .macupd s = .next { s with acc := tag (s.opL / 16), latch := none, wait := 0 })
    ∧ (s.opA + s.opL ≤ s.params.bufSize → s.opL % 16 ≠ 0 →
      exec .macupd s = .next { s with err := some .notBlockAligned, latch := none, wait := 0 })
    ∧ (s.params.bufSize < s.opA + s.opL →
      exec .macupd s = .next { s with err := some .bounds, latch := none, wait := 0 })

/-- R143: MACCALC. -/
def Obligations.MaccalcAppendsTheTag : Prop :=
  decodeWord 0x00000006#32 = .ok .maccalc ∧ ∀ s : State,
    (s.opA + s.opL + 16 ≤ s.params.bufSize → s.opL % 16 = 0 →
      ∃ (tag : Nat → Block) (m : Memory), tag 0 = 0#128
        ∧ (∀ j, j < s.opL / 16 → tag (j + 1) = encrypt s.key (tag j ^^^ Memory.readBlock s.buf (s.opA + 16 * j)))
        ∧ exec .maccalc s = .next { s with acc := tag (s.opL / 16), buf := m, latch := none, wait := 0 }
        ∧ Memory.readBlock m (s.opA + s.opL) = tag (s.opL / 16)
        ∧ Memory.SameOutside s.buf m (s.opA + s.opL) 16)
    ∧ (s.opA + s.opL + 16 ≤ s.params.bufSize → s.opL % 16 ≠ 0 →
      exec .maccalc s = .next { s with err := some .notBlockAligned, latch := none, wait := 0 })
    ∧ (s.params.bufSize < s.opA + s.opL + 16 →
      exec .maccalc s = .next { s with err := some .bounds, latch := none, wait := 0 })

/-- R144: MACSTORE. -/
def Obligations.MacstoreWritesTheTag : Prop :=
  decodeWord 0x00000007#32 = .ok .macstore ∧ ∀ s : State,
    (s.opA + 16 ≤ s.params.bufSize →
      ∃ m, exec .macstore s = .next { s with buf := m, latch := none, wait := 0 }
        ∧ Memory.readBlock m s.opA = s.acc ∧ Memory.SameOutside s.buf m s.opA 16)
    ∧ (s.params.bufSize < s.opA + 16 →
      exec .macstore s = .next { s with err := some .bounds, latch := none, wait := 0 })

/-- R145: MACCMP, with R242's MISMATCH on an error. -/
def Obligations.MaccmpComparesAllBytes : Prop :=
  decodeWord 0x00000008#32 = .ok .maccmp ∧ ∀ s : State,
    (s.opA + 16 ≤ s.params.bufSize →
      ∃ differs : Bool, exec .maccmp s = .next { s with mismatch := differs, latch := none, wait := 0 }
        ∧ (differs = true ↔ ∃ i, i < 16 ∧ strByte s.acc i ≠ Memory.read s.buf (s.opA + i)))
    ∧ (s.params.bufSize < s.opA + 16 →
      exec .maccmp s = .next { s with err := some .bounds, mismatch := true, latch := none, wait := 0 })

/-- R146: MACVFY's backward walk, with R242's MISMATCH on an error. `walk j` is `T` when the blocks from `j` on
have been undone. -/
def Obligations.MacvfyWalksBackward : Prop :=
  decodeWord 0x00000009#32 = .ok .macvfy ∧ ∀ s : State,
    (s.opA + s.opL + 16 ≤ s.params.bufSize → s.opL % 16 = 0 →
      ∃ (walk : Nat → Block) (m : Memory) (differs : Bool),
        walk (s.opL / 16) = Memory.readBlock s.buf (s.opA + s.opL)
        ∧ (∀ j, j < s.opL / 16 → walk j = decrypt s.key (walk (j + 1)) ^^^ Memory.readBlock s.buf (s.opA + 16 * j))
        ∧ exec .macvfy s = .next { s with buf := m, mismatch := differs, latch := none, wait := 0 }
        ∧ (differs = true ↔ walk 0 ≠ 0#128)
        ∧ Memory.readBlock m (s.opA + s.opL) = walk 0
        ∧ Memory.SameOutside s.buf m (s.opA + s.opL) 16 ∧ (s.opL = 0 → m = s.buf))
    ∧ (s.opA + s.opL + 16 ≤ s.params.bufSize → s.opL % 16 ≠ 0 →
      exec .macvfy s = .next { s with err := some .notBlockAligned, mismatch := true, latch := none, wait := 0 })
    ∧ (s.params.bufSize < s.opA + s.opL + 16 →
      exec .macvfy s = .next { s with err := some .bounds, mismatch := true, latch := none, wait := 0 })

/-- R147(a): MACVFY reports MISMATCH = 0 exactly when the tag slot held the CBC-MAC of the data. -/
def Obligations.MacvfyAcceptsExactlyTheMac : Prop :=
  ∀ s : State, s.opA + s.opL + 16 ≤ s.params.bufSize → s.opL % 16 = 0 →
    ∃ t, exec .macvfy s = .next t
      ∧ (t.mismatch = false ↔
          Memory.readBlock s.buf (s.opA + s.opL) = cbcMac s.key (Memory.readBlocks s.buf s.opA (s.opL / 16)))

/-- R149(b): after a successful verification of some bytes, changing one of the blocks (a data block or the tag) and
no other makes the verification of the changed bytes report a mismatch. -/
def Obligations.MacvfyDetectsTampering : Prop :=
  ∀ s r t : State, s.opA + s.opL + 16 ≤ s.params.bufSize → s.opL % 16 = 0 →
    r.key = s.key → r.params = s.params → r.opA = s.opA → r.opL = s.opL →
    exec .macvfy s = .next t → t.mismatch = false →
    ∀ b, b ≤ s.opL / 16 → Memory.readBlock r.buf (s.opA + 16 * b) ≠ Memory.readBlock s.buf (s.opA + 16 * b) →
      (∀ j, j ≤ s.opL / 16 → j ≠ b → Memory.readBlock r.buf (s.opA + 16 * j) = Memory.readBlock s.buf (s.opA + 16 * j)) →
      ∃ u, exec .macvfy r = .next u ∧ u.mismatch = true

/-- R147(b): the CBC-MAC of nonempty data is the last ciphertext block CBCENC makes of them. -/
def Obligations.MacIsTheLastCbcBlock : Prop :=
  ∀ s r : State, s.opA + 16 + s.opL ≤ s.params.bufSize → s.opL % 16 = 0 → 0 < s.opL →
    r.buf = s.buf → r.key = s.key → r.params = s.params → r.acc = 0#128 → r.opA = s.opA + 16 → r.opL = s.opL →
    ∃ t u, exec .cbcenc s = .next t ∧ exec .macupd r = .next u
      ∧ u.acc = Memory.readBlock t.buf (s.opA + s.opL)

/-! ### CTR and counters -/

/-- R171: CTRLOAD. -/
def Obligations.CtrloadStartsAStream : Prop :=
  decodeWord 0x0000000A#32 = .ok .ctrload ∧ ∀ s : State,
    (s.opA + 16 ≤ s.params.bufSize →
      ∃ c : Block, exec .ctrload s = .next { s with ctr := c, ks := 0#128, unused := 0, latch := none, wait := 0 }
        ∧ ∀ i, i < 16 → strByte c i = Memory.read s.buf (s.opA + i))
    ∧ (s.params.bufSize < s.opA + 16 →
      exec .ctrload s = .next { s with err := some .bounds, latch := none, wait := 0 })

/-- R172: CTRSTORE. -/
def Obligations.CtrstoreWritesTheCounter : Prop :=
  decodeWord 0x0000000B#32 = .ok .ctrstore ∧ ∀ s : State,
    (s.opA + 16 ≤ s.params.bufSize →
      ∃ m, exec .ctrstore s = .next { s with buf := m, latch := none, wait := 0 }
        ∧ Memory.readBlock m s.opA = s.ctr ∧ Memory.SameOutside s.buf m s.opA 16)
    ∧ (s.params.bufSize < s.opA + 16 →
      exec .ctrstore s = .next { s with err := some .bounds, latch := none, wait := 0 })

/-- R173: CTRXOR's loop. `ctx i` is (CTR, KS, UNUSED) before byte `i`, `used i` after the refill for it. -/
def Obligations.CtrxorAppliesTheKeystream : Prop :=
  decodeWord 0x0000000C#32 = .ok .ctrxor ∧ ∀ s : State,
    (s.opA + s.opL ≤ s.params.bufSize →
      ∃ (ctx used : Nat → CtrContext) (m : Memory),
        ctx 0 = { ctr := s.ctr, ks := s.ks, unused := s.unused }
        ∧ (∀ i, i < s.opL →
            ((ctx i).unused = 0 → used i = { ctr := (ctx i).ctr, ks := encrypt s.key (ctx i).ctr, unused := 16 })
            ∧ ((ctx i).unused ≠ 0 → used i = ctx i)
            ∧ Memory.read m (s.opA + i) = Memory.read s.buf (s.opA + i) ^^^ strByte (used i).ks (16 - (used i).unused)
            ∧ (ctx (i + 1)).ks = (used i).ks ∧ (ctx (i + 1)).unused = (used i).unused - 1
            ∧ (ctx (i + 1)).ctr = if (used i).unused - 1 = 0 then (used i).ctr + 1#128 else (used i).ctr)
        ∧ exec .ctrxor s = .next { s with
            buf := m, ctr := (ctx s.opL).ctr, ks := (ctx s.opL).ks, unused := (ctx s.opL).unused
            latch := none, wait := 0 }
        ∧ Memory.SameOutside s.buf m s.opA s.opL)
    ∧ (s.params.bufSize < s.opA + s.opL →
      exec .ctrxor s = .next { s with err := some .bounds, latch := none, wait := 0 })

/-- R170: with the cache empty and the counter `c`, byte `i` is XORed with byte `i mod 16` of `E(c + i div 16)`, and
CTR and UNUSED end where the stream stands. -/
def Obligations.CtrStreamIsTheCounterKeystream : Prop :=
  ∀ s : State, s.opA + s.opL ≤ s.params.bufSize → s.unused = 0 →
    ∃ t, exec .ctrxor s = .next t
      ∧ (∀ i, i < s.opL → Memory.read t.buf (s.opA + i)
          = Memory.read s.buf (s.opA + i) ^^^ strByte (encrypt s.key (s.ctr + BitVec.ofNat 128 (i / 16))) (i % 16))
      ∧ t.ctr = s.ctr + BitVec.ofNat 128 (s.opL / 16)
      ∧ t.unused = (16 - s.opL % 16) % 16

/-- R177: two calls over consecutive bytes do what one call over all of them does, from any context. -/
def Obligations.CtrxorIsChunkingIndependent : Prop :=
  ∀ s r q : State, s.opA + s.opL ≤ s.params.bufSize → s.opL = r.opL + q.opL →
    r.params = s.params → r.opA = s.opA → r.buf = s.buf → r.key = s.key → r.ctrContext = s.ctrContext →
    q.params = s.params → q.opA = s.opA + r.opL → q.key = s.key →
    ∃ t u, exec .ctrxor s = .next t ∧ exec .ctrxor r = .next u
      ∧ (q.buf = u.buf → q.ctrContext = u.ctrContext →
          ∃ v, exec .ctrxor q = .next v ∧ v.ctrContext = t.ctrContext
            ∧ ∀ x, Memory.read v.buf x = Memory.read t.buf x)

/-- R174 and R175: CNTINC adds one to the big-endian integer, modulo 2^128. -/
def Obligations.CntincAddsOne : Prop :=
  decodeWord 0x0000000D#32 = .ok .cntinc ∧ ∀ s : State,
    (s.opA + 16 ≤ s.params.bufSize →
      ∃ m, exec .cntinc s = .next { s with buf := m, latch := none, wait := 0 }
        ∧ beNat (Memory.readBytes m s.opA 16) = (beNat (Memory.readBytes s.buf s.opA 16) + 1) % 2 ^ 128
        ∧ Memory.SameOutside s.buf m s.opA 16)
    ∧ (s.params.bufSize < s.opA + 16 →
      exec .cntinc s = .next { s with err := some .bounds, latch := none, wait := 0 })

/-- R176: CNTCMP, most significant byte first: LESS exactly when the first differing byte is smaller. -/
def Obligations.CntcmpComparesLexicographically : Prop :=
  decodeWord 0x0000000E#32 = .ok .cntcmp ∧ ∀ s : State,
    (s.opA + 16 ≤ s.params.bufSize → s.opB + 16 ≤ s.params.bufSize →
      ∃ o : Order, exec .cntcmp s = .next { s with order := o, latch := none, wait := 0 }
        ∧ (o = .equal ↔ ∀ i, i < 16 → Memory.read s.buf (s.opA + i) = Memory.read s.buf (s.opB + i))
        ∧ (o = .less ↔ ∃ i, i < 16
            ∧ (∀ j, j < i → Memory.read s.buf (s.opA + j) = Memory.read s.buf (s.opB + j))
            ∧ (Memory.read s.buf (s.opA + i)).toNat < (Memory.read s.buf (s.opB + i)).toNat)
        ∧ (o = .greater ↔ ∃ i, i < 16
            ∧ (∀ j, j < i → Memory.read s.buf (s.opA + j) = Memory.read s.buf (s.opB + j))
            ∧ (Memory.read s.buf (s.opB + i)).toNat < (Memory.read s.buf (s.opA + i)).toNat))
    ∧ (s.params.bufSize < s.opA + 16 ∨ s.params.bufSize < s.opB + 16 →
      exec .cntcmp s = .next { s with err := some .bounds, latch := none, wait := 0 })

/-! ### DECODE -/

/-- R203: a malformed length is rejected with RESULT = 0 and no other effect, in either mode. -/
def Obligations.DecodeRejectsMalformedLength : Prop :=
  ∀ s : State, s.opM ≠ 2 → s.opM ≠ s.params.pageSize + 32 → s.opM ≠ 48 → s.opM ≠ 32 →
    ∃ t, exec .decode s = .next t ∧ t = { s with kind := .none, latch := none, wait := 0 }
      ∧ (s.resultWord = 0#32 → t.resultWord = 0#32)

/-- R202: the kind of a message by its length, and that after EXITED every message is rejected, KIND is still reported
and nothing else changes, while every other operation works as before the exit. -/
def Obligations.DecodeRejectsAfterExit : Prop :=
  (∀ s : State, ∃ (k : Kind) (t : State), exec .decode s = .next t ∧ t.kind = k
      ∧ (k = .setaddr ↔ s.opM = 2) ∧ (k = .program ↔ s.opM = s.params.pageSize + 32)
      ∧ (k = .changekey ↔ s.opM = 48) ∧ (k = .auth ↔ s.opM = 32)
      ∧ (s.exited = true → t = { s with kind := k, latch := none, wait := 0 }))
  ∧ (∀ (i : Instr) (s t : State), i ≠ .decode → exec i s = .next t →
      exec i { s with exited := true } = .next { t with exited := true })

/-- R204 and R205: SetAddress, with the wire address little-endian (R86) and widened (R210). -/
def Obligations.DecodeSetaddress : Prop :=
  ∀ (s : State) (w : Nat), s.opM = 2 → s.exited = false →
    w = (Memory.read s.buf 16).toNat + 256 * (Memory.read s.buf 17).toNat →
    (w = s.params.startApp.toNat → exec .decode s = .next { s with
      kind := .setaddr, exited := true, verdict := true, action := .startApp, latch := none, wait := 0 })
    ∧ (w ≠ s.params.startApp.toNat → ∃ a : Word, exec .decode s = .next { s with
        kind := .setaddr, rdaddr := a, verdict := true, action := .setReadAddr, latch := none, wait := 0 }
      ∧ a.toNat = if s.params.wideAddr = true then w * s.params.pageSize else w)

/-- R206: a ProgramPage whose address is not page-aligned or lies at or above the reserved region, or whose padding is
not zero, is rejected before any MAC step and with no write to BUF. -/
def Obligations.DecodeProgramAddressPolicy : Prop :=
  ∀ (s : State) (w a : Nat), s.opM = s.params.pageSize + 32 → s.exited = false →
    w = (Memory.read s.buf 16).toNat + 256 * (Memory.read s.buf 17).toNat →
    a = (if s.params.wideAddr = true then w * s.params.pageSize else w) →
    (a % s.params.pageSize ≠ 0 ∨ s.params.bootStart ≤ a ∨ ∃ i, i < 14 ∧ Memory.read s.buf (18 + i) ≠ 0#8) →
    exec .decode s = .next { s with kind := .program, latch := none, wait := 0 }

/-- R207 with R147(a): a ProgramPage that passes the policy is accepted exactly when its tag is the CBC-MAC of the
address block and payload; PGADDR takes the address, and only the tag slot of BUF changes. -/
def Obligations.DecodeProgramChecksTheMac : Prop :=
  ∀ (s : State) (w a : Nat), s.opM = s.params.pageSize + 32 → s.exited = false →
    w = (Memory.read s.buf 16).toNat + 256 * (Memory.read s.buf 17).toNat →
    a = (if s.params.wideAddr = true then w * s.params.pageSize else w) →
    a % s.params.pageSize = 0 → a < s.params.bootStart → (∀ i, i < 14 → Memory.read s.buf (18 + i) = 0#8) →
    (Memory.readBlock s.buf (32 + s.params.pageSize)
        = cbcMac s.key (Memory.readBlocks s.buf 16 (s.params.pageSize / 16 + 1)) →
      ∃ (m : Memory) (p : Word), exec .decode s = .next { s with
          kind := .program, buf := m, pgaddr := p, verdict := true, action := .programPage
          latch := none, wait := 0 }
        ∧ p.toNat = a ∧ Memory.readBlock m (32 + s.params.pageSize) = 0#128
        ∧ Memory.SameOutside s.buf m (32 + s.params.pageSize) 16)
    ∧ (Memory.readBlock s.buf (32 + s.params.pageSize)
        ≠ cbcMac s.key (Memory.readBlocks s.buf 16 (s.params.pageSize / 16 + 1)) →
      ∃ m : Memory, exec .decode s = .next { s with kind := .program, buf := m, latch := none, wait := 0 }
        ∧ Memory.readBlock m (32 + s.params.pageSize) ≠ 0#128
        ∧ Memory.readBlock m (32 + s.params.pageSize) = macUnwind s.key
            (Memory.readBlock s.buf (32 + s.params.pageSize)) (Memory.readBlocks s.buf 16 (s.params.pageSize / 16 + 1))
        ∧ Memory.SameOutside s.buf m (32 + s.params.pageSize) 16)

/-- R208 with R147(a): ChangeKey. The tag is checked first; on acceptance the two ciphertext blocks are decrypted under
the old key, the result is the new key, and BUF[0..16) and the tag slot are zero. -/
def Obligations.DecodeChangekeyTakesTheKey : Prop :=
  ∀ s : State, s.opM = 48 → s.exited = false →
    (Memory.readBlock s.buf 48 = cbcMac s.key [Memory.readBlock s.buf 16, Memory.readBlock s.buf 32] →
      ∃ (m : Memory) (k : Key), exec .decode s = .next { s with
          kind := .changekey, buf := m, key := k, verdict := true, action := .keyChanged
          latch := none, wait := 0 }
        ∧ (∀ i, i < 32 → strByte k i = Memory.read m (16 + i))
        ∧ Memory.readBlock m 0 = 0#128 ∧ Memory.readBlock m 48 = 0#128
        ∧ Memory.readBlock m 16 = decrypt s.key (Memory.readBlock s.buf 16)
        ∧ Memory.readBlock m 32 = decrypt s.key (Memory.readBlock s.buf 32) ^^^ Memory.readBlock s.buf 16
        ∧ Memory.SameOutside s.buf m 0 64)
    ∧ (Memory.readBlock s.buf 48 ≠ cbcMac s.key [Memory.readBlock s.buf 16, Memory.readBlock s.buf 32] →
      ∃ m : Memory, exec .decode s = .next { s with kind := .changekey, buf := m, latch := none, wait := 0 }
        ∧ Memory.readBlock m 48 ≠ 0#128 ∧ Memory.SameOutside s.buf m 48 16
        ∧ Memory.readBlock m 48 = decrypt s.key (decrypt s.key (Memory.readBlock s.buf 48) ^^^ Memory.readBlock s.buf 32)
            ^^^ Memory.readBlock s.buf 16)

/-- R209 with R147(a): Authenticate. On acceptance BUF[16..32) holds the recovered challenge. -/
def Obligations.DecodeAuthRecoversTheChallenge : Prop :=
  ∀ s : State, s.opM = 32 → s.exited = false →
    (Memory.readBlock s.buf 32 = encrypt s.key (Memory.readBlock s.buf 16) →
      ∃ m : Memory, exec .decode s = .next { s with
          kind := .auth, buf := m, verdict := true, action := .authResponse, latch := none, wait := 0 }
        ∧ Memory.readBlock m 16 = decrypt s.key (Memory.readBlock s.buf 16)
        ∧ Memory.readBlock m 0 = 0#128 ∧ Memory.readBlock m 32 = 0#128
        ∧ Memory.SameOutside s.buf m 0 48)
    ∧ (Memory.readBlock s.buf 32 ≠ encrypt s.key (Memory.readBlock s.buf 16) →
      ∃ m : Memory, exec .decode s = .next { s with kind := .auth, buf := m, latch := none, wait := 0 }
        ∧ Memory.readBlock m 32 ≠ 0#128 ∧ Memory.SameOutside s.buf m 32 16
        ∧ Memory.readBlock m 32 = decrypt s.key (Memory.readBlock s.buf 32) ^^^ Memory.readBlock s.buf 16)

/-- R211: what a reject leaves behind, by its cause. `s.opM` is the message length, so the tag slot is BUF[M..M+16). -/
def Obligations.RejectsLeaveTheDeviceState : Prop :=
  ∀ s t : State, exec .decode s = .next t → s.verdict = false → t.verdict = false →
    t.key = s.key ∧ t.rdaddr = s.rdaddr ∧ t.pgaddr = s.pgaddr ∧ t.exited = s.exited ∧ t.acc = s.acc ∧ t.ctr = s.ctr
    ∧ t.ks = s.ks ∧ t.unused = s.unused ∧ t.action = s.action ∧ t.err = s.err ∧ t.mismatch = s.mismatch
    ∧ t.msglen = s.msglen
    ∧ (t.kind = .none ∨ s.exited = true ∨ (t.kind = .program ∧ s.policyPasses = false) → t.buf = s.buf)
    ∧ (t.kind ≠ .none → s.exited = false → (t.kind = .program → s.policyPasses = true) →
        Memory.readBlock t.buf s.opM ≠ 0#128 ∧ Memory.SameOutside s.buf t.buf s.opM 16)

/-! ### ENCODE -/

/-- R216: ENCODE.SETADDR. -/
def Obligations.EncodeSetaddrBuildsTheMessage : Prop :=
  decodeWord 0x00000111#32 = .ok .encodeSetaddr ∧ ∀ s : State,
    ∃ m : Memory, exec .encodeSetaddr s = .next { s with
        buf := m, msglen := 2#16, kind := .setaddr, latch := none, wait := 0 }
      ∧ (Memory.read m 16).toNat = s.opW.toNat % 256 ∧ (Memory.read m 17).toNat = s.opW.toNat / 256
      ∧ Memory.SameOutside s.buf m 16 2

/-- R217: ENCODE.PROGRAM. -/
def Obligations.EncodeProgramBuildsTheMessage : Prop :=
  decodeWord 0x00000211#32 = .ok .encodeProgram ∧ ∀ s : State,
    ∃ (m : Memory) (tag : Block) (n : Half), exec .encodeProgram s = .next { s with
        buf := m, acc := tag, msglen := n, kind := .program, latch := none, wait := 0 }
      ∧ n.toNat = s.params.pageSize + 32
      ∧ (Memory.read m 16).toNat = s.opW.toNat % 256 ∧ (Memory.read m 17).toNat = s.opW.toNat / 256
      ∧ (∀ i, i < 14 → Memory.read m (18 + i) = 0#8)
      ∧ tag = cbcMac s.key (Memory.readBlocks m 16 (s.params.pageSize / 16 + 1))
      ∧ Memory.readBlock m (32 + s.params.pageSize) = tag
      ∧ ∀ x, x < 16 ∨ (32 ≤ x ∧ x < 32 + s.params.pageSize) ∨ 48 + s.params.pageSize ≤ x →
          Memory.read m x = Memory.read s.buf x

/-- R218: ENCODE.CHANGEKEY. -/
def Obligations.EncodeChangekeyBuildsTheMessage : Prop :=
  decodeWord 0x00000311#32 = .ok .encodeChangekey ∧ ∀ s : State,
    ∃ (m : Memory) (tag : Block), exec .encodeChangekey s = .next { s with
        buf := m, acc := tag, msglen := 48#16, kind := .changekey, latch := none, wait := 0 }
      ∧ Memory.readBlock m 0 = 0#128
      ∧ Memory.readBlock m 16 = encrypt s.key (Memory.readBlock s.buf 16)
      ∧ Memory.readBlock m 32 = encrypt s.key (Memory.readBlock s.buf 32 ^^^ Memory.readBlock m 16)
      ∧ tag = cbcMac s.key [Memory.readBlock m 16, Memory.readBlock m 32]
      ∧ Memory.readBlock m 48 = tag ∧ Memory.SameOutside s.buf m 0 64

/-- R219: ENCODE.AUTH. -/
def Obligations.EncodeAuthBuildsTheMessage : Prop :=
  decodeWord 0x00000411#32 = .ok .encodeAuth ∧ ∀ s : State,
    ∃ (m : Memory) (tag : Block), exec .encodeAuth s = .next { s with
        buf := m, acc := tag, msglen := 32#16, kind := .auth, latch := none, wait := 0 }
      ∧ Memory.readBlock m 0 = 0#128
      ∧ Memory.readBlock m 16 = encrypt s.key (Memory.readBlock s.buf 16)
      ∧ tag = encrypt s.key (Memory.readBlock m 16)
      ∧ Memory.readBlock m 32 = tag ∧ Memory.SameOutside s.buf m 0 48

/-- R221(a): DECODE accepts what ENCODE built under the same KEY, in the mode ACCEPTING, with the exceptions the rule
names; the key and the challenge come back as they were. `r` is any state DECODE performs in. -/
def Obligations.DecodeAcceptsWhatEncodeBuilt : Prop :=
  ∀ (i : Instr) (s t r : State), exec i s = .next t →
    r.buf = t.buf → r.key = s.key → r.params = s.params → r.exited = false → r.opM = t.msglen.toNat →
    (i = .encodeSetaddr → ∃ u, exec .decode r = .next u ∧ u.verdict = true
      ∧ (s.opW = s.params.startApp → u.action = .startApp)
      ∧ (s.opW ≠ s.params.startApp → u.action = .setReadAddr ∧ u.rdaddr.toNat = widen s.params s.opW))
    ∧ (i = .encodeProgram → widen s.params s.opW % s.params.pageSize = 0 → widen s.params s.opW < s.params.bootStart →
        ∃ u, exec .decode r = .next u ∧ u.verdict = true ∧ u.action = .programPage
          ∧ u.pgaddr.toNat = widen s.params s.opW
          ∧ ∀ x, 32 ≤ x → x < 32 + s.params.pageSize → Memory.read u.buf x = Memory.read s.buf x)
    ∧ (i = .encodeChangekey → ∃ u, exec .decode r = .next u ∧ u.verdict = true ∧ u.action = .keyChanged
        ∧ u.key = Memory.readKey s.buf 16)
    ∧ (i = .encodeAuth → ∃ u, exec .decode r = .next u ∧ u.verdict = true ∧ u.action = .authResponse
        ∧ Memory.readBlock u.buf 16 = Memory.readBlock s.buf 16)

/-! ### Whole-machine rules -/

/-- R241 and R242: an error changes STATUS and nothing else; MISMATCH only for MACCMP and MACVFY, which set it. -/
def Obligations.ErrorsChangeOnlyStatus : Prop :=
  (∀ (i : Instr) (s t : State) (e : ErrCode), exec i s = .next t → s.err = none → t.err = some e →
    (i ≠ .maccmp → i ≠ .macvfy → t = { s with err := some e, latch := none, wait := 0 })
    ∧ (i = .maccmp ∨ i = .macvfy → t = { s with err := some e, mismatch := true, latch := none, wait := 0 }))
  ∧ (∀ (s : State) (l : Latch), s.latch = some l → s.wait = 0 → (∀ i, decodeWord l.cmd ≠ .ok i) →
      step s = .next { s with err := some .illegal, latch := none, wait := 0 })

/-- R244 and R247: nothing stops the block: from every state a step leads to a next state. -/
def Obligations.EveryStepAnswersNext : Prop :=
  ∀ s : State, ∃ t, step s = .next t ∧ t.params = s.params

/-- R31: KEY is written by KEYLOAD, by a DECODE that accepts a ChangeKey, and by reset, and by nothing else. -/
def Obligations.KeyIsWrittenOnlyByItsOperations : Prop :=
  ∀ s t : State, step s = .next t → t.key ≠ s.key →
    (∃ l, s.latch = some l ∧ s.wait = 0 ∧ (decodeWord l.cmd = .ok .keyload
      ∨ (decodeWord l.cmd = .ok .decode ∧ l.msglen = 48#16 ∧ t.verdict = true ∧ t.action = .keyChanged)))
    ∨ ∃ image rest, s.bus = .reset t.key image :: rest

/-- R39 and R249: EXITED is set only by a DECODE that accepts the sentinel, and cleared only by a reset. -/
def Obligations.ExitedIsSetBySentinelAndHeld : Prop :=
  ∀ s t : State, step s = .next t →
    (s.exited = false → t.exited = true → ∃ l, s.latch = some l ∧ s.wait = 0 ∧ decodeWord l.cmd = .ok .decode
      ∧ l.msglen = 2#16 ∧ s.wireAddress = s.params.startApp ∧ t.action = .startApp)
    ∧ (s.exited = true → t.exited = false → ∃ k image rest, s.bus = .reset k image :: rest)

/-- R29 and R206: PGADDR is written only by an accepted ProgramPage, to a page-aligned address below the reserved region, or
by reset. -/
def Obligations.PgaddrIsWrittenOnlyByAcceptedPages : Prop :=
  ∀ s t : State, step s = .next t → t.pgaddr ≠ s.pgaddr →
    (∃ l, s.latch = some l ∧ s.wait = 0 ∧ decodeWord l.cmd = .ok .decode
      ∧ l.msglen.toNat = s.params.pageSize + 32 ∧ t.verdict = true ∧ t.action = .programPage
      ∧ t.pgaddr.toNat % s.params.pageSize = 0 ∧ t.pgaddr.toNat < s.params.bootStart)
    ∨ (t.pgaddr = 0#32 ∧ ∃ k image rest, s.bus = .reset k image :: rest)

/-- R67: a turn of the bus reads nothing of KEY, ACC, CTR and KS: from two states that differ in these alone it
returns the same values and leaves states that still differ in these alone. That the free values of busy reads depend
on the count of draws is the model's choice (log entry 4). -/
def Obligations.HostTurnsCannotReadSecrets : Prop :=
  ∀ s t : State, s.SameButSecrets t → (s.busy = true → s.wait ≠ 0) →
    ∃ u v, step s = .next u ∧ step t = .next v ∧ u.responses = v.responses ∧ u.SameButSecrets v

/-- R256 with R245 and R281. With only the host of R256 on the bus no collision ever comes; so too with bare accesses that
wait. A move that breaks a "must" is not made. A write or read that breaks none is made: it is the bare access, and the
host's record notes it: the operand registers written, the issue awaited, the delivered message decoded, the challenge
used, the key loaded, the bytes overwritten. An operation writes no byte of BUF outside its regions. When the host reads
BUSY = 0 a DECODE's result becomes its debts: the stall, the start of the application, the page to program, the key to persist
and then to overwrite byte by byte, the challenge to send back; each is paid as it stands in BUF and then owed no more.
What the record keeps of a delivered message, of the host's intentions and over a reset. The end of a host program is a
read of STATUS with BUSY = 0 after its last issue, and leaves the block as it is. How the duties are read and recorded is
the model's choice (log entries 6, 13 and 18 to 23: that an accepted challenge is owed no overwrite is 22, that a comparison
has no term is 18, that R273 items 4 and 5 bind no move is 23). -/
def Obligations.DutifulHostNeverCollides : Prop :=
  (∀ s t : State, s.Dutiful → step s = .next t → t.Dutiful)
  ∧ (∀ s t : State, s.KeepsWaiting → step s = .next t → t.KeepsWaiting)
  -- a move that breaks a "must" is not made
  ∧ (∀ (s : State) (m : HostMove) (rest : List BusEvent), (s.busy = true → s.wait ≠ 0) → s.bus = .host m :: rest →
      BreaksMust s m → ∃ n, step s = .next { s with bus := rest, wait := n } ∧ (s.busy = false → n = s.wait))
  -- a write that breaks none is the bare write, and is noted
  ∧ (∀ (s : State) (w : Width) (offset : Half) (v : Word) (rest : List BusEvent),
      s.bus = .host (.write w offset v) :: rest → ¬ BreaksMust s (.write w offset v) →
      ∃ t d, step { s with bus := .write w offset v :: rest } = .next t ∧ step s = .next { t with duties := d }
        ∧ (w = .word → offset = 0x0000#16 → d = { s.duties with
            awaited := some {
              cmd := v, fromSender := decide (decodeWord v = .ok .decode) && s.duties.message.isSome }
            message := if decodeWord v = .ok .decode then none else s.duties.message
            keySource :=
              if decodeWord v = .ok .keyload ∧ s.arg0.toNat + 32 ≤ s.params.bufSize then
                .loaded (Memory.readKey s.buf s.arg0.toNat)
              else s.duties.keySource
            challenges :=
              if decodeWord v = .ok .encodeAuth then Memory.readBlock s.buf 16 :: s.duties.challenges
              else s.duties.challenges })
        ∧ (w = .word → offset = 0x0004#16 → d = { s.duties with arg0Written := true })
        ∧ (w = .word → offset = 0x0008#16 → d = { s.duties with arg1Written := true })
        ∧ (w = .word → offset = 0x000C#16 → d = { s.duties with msglenWritten := true })
        ∧ (offset.toNat < 0x8000 → w ≠ .word ∨ offset ∉ [0x0000#16, 0x0004#16, 0x0008#16, 0x000C#16] → d = s.duties)
        ∧ (0x8000 ≤ offset.toNat → d = { s.duties with debts := d.debts }
            ∧ ∀ debt, (∀ left, debt ≠ .scrub left) → (debt ∈ d.debts ↔ debt ∈ s.duties.debts)))
  -- a read that breaks none is the bare read, and only a read of BUSY = 0 is noted
  ∧ (∀ (s : State) (w : Width) (offset : Half) (rest : List BusEvent), (s.busy = true → s.wait ≠ 0) →
      s.bus = .host (.read w offset) :: rest → ¬ BreaksMust s (.read w offset) →
      ∃ t d, step { s with bus := .read w offset :: rest } = .next t ∧ step s = .next { t with duties := d }
        ∧ (s.busy = true ∨ w ≠ .word ∨ offset ≠ 0x0010#16 → d = s.duties))
  -- the regions an operation writes
  ∧ (∀ (s t : State) (l : Latch) (i : Instr), s.latch = some l → l.arg0 = s.arg0 → l.arg1 = s.arg1 →
      l.msglen = s.msglen → exec i s = .next t →
      ∀ x, (∀ region ∈ s.writtenRegions i, x < region.1 ∨ region.1 + region.2 ≤ x) →
        Memory.read t.buf x = Memory.read s.buf x)
  -- what a read of BUSY = 0 makes of the result
  ∧ (∀ (s : State) (m : HostMove) (rest : List BusEvent), s.busy = false → m = .poll ∨ m = .read .word 0x0010#16 →
      s.bus = .host m :: rest →
      ∃ d, step s = .next { s with bus := rest, responses := s.statusWord :: s.responses, duties := d }
        ∧ (s.duties.awaited = none → d = s.duties)
        ∧ ∀ a, s.duties.awaited = some a →
          (decodeWord a.cmd = .ok .decode → d = { s.duties with
            awaited := none
            debts := s.duties.debts ++ (match s.action with
              | .none => if a.fromSender = true then [.stall] else []
              | .setReadAddr => [] | .startApp => [.start] | .programPage => [.program] | .keyChanged => [.persist]
              | .authResponse => if a.fromSender = true then [.respond] else [])
            keySource := if s.action = .keyChanged then .changed else s.duties.keySource })
          ∧ (decodeWord a.cmd = .ok .encodeAuth → d = { s.duties with
            awaited := none, debts := s.duties.debts ++ (s.duties.challenges.take 1).map Debt.compare })
          ∧ (decodeWord a.cmd ≠ .ok .decode → decodeWord a.cmd ≠ .ok .encodeAuth →
            d = { s.duties with awaited := none }))
  -- paying
  ∧ (∀ (s : State) (rest : List BusEvent), s.rested = true → Debt.persist ∈ s.duties.debts →
      s.bus = .host .persistKey :: rest →
      ∃ left, (∀ x, x ∈ left ↔ 16 ≤ x ∧ x < 48)
        ∧ step s = .next { s with
            bus := rest
            duties := { s.duties with
              debts := s.duties.debts.erase .persist ++ [.scrub left]
              deeds := .persisted (Memory.readKey s.buf 16) :: s.duties.deeds } })
  ∧ (∀ (s : State) (w : Width) (o : Nat) (v : Word) (left : List Nat) (rest : List BusEvent), s.rested = true →
      s.duties.debts = [.scrub left] → o % w.bytes = 0 → o + w.bytes ≤ s.params.bufSize →
      s.bus = .host (.write w (BitVec.ofNat 16 (0x8000 + o)) v) :: rest →
      ∃ t, step s = .next t ∧ (∀ i < w.bytes, Memory.read t.buf (o + i) = v.extractLsb' (8 * i) 8)
        ∧ (t.duties.debts = [] ↔ ∀ x ∈ left, o ≤ x ∧ x < o + w.bytes)
        ∧ ∀ debt ∈ t.duties.debts, ∃ l, debt = .scrub l ∧ ∀ x, x ∈ l ↔ x ∈ left ∧ (x < o ∨ o + w.bytes ≤ x))
  ∧ (∀ (s : State) (failed : Bool) (rest : List BusEvent), s.rested = true → Debt.program ∈ s.duties.debts →
      s.bus = .host (.programPage failed) :: rest →
      step s = .next { s with
        bus := rest
        duties := { s.duties with
          debts := s.duties.debts.erase .program ++ (if failed = true then [.reenable, .surface] else [.reenable])
          deeds := .programmed s.pgaddr (Memory.readBytes s.buf 32 s.params.pageSize) :: s.duties.deeds } })
  ∧ (∀ (s : State) (m : HostMove) (debt : Debt) (deed : Deed) (rest : List BusEvent), s.rested = true →
      (m, debt, deed) ∈ [(.sendResponse, .respond, .responded (Memory.readBlock s.buf 16)),
        (.startApplication, .start, .started), (.stall, .stall, .stalled), (.reenableReads, .reenable, .readsReenabled),
        (.surfaceFlashError, .surface, .flashErrorSurfaced)] →
      debt ∈ s.duties.debts → s.bus = .host m :: rest →
      step s = .next { s with
        bus := rest
        duties := { s.duties with debts := s.duties.debts.erase debt, deeds := deed :: s.duties.deeds } })
  ∧ (∀ (s : State) (response challenge : Block) (before after : List Debt) (rest : List BusEvent), s.rested = true →
      s.duties.debts = before ++ .compare challenge :: after → (∀ c, Debt.compare c ∉ before) →
      s.bus = .host (.compareResponse response) :: rest →
      step s = .next { s with
        bus := rest
        duties := { s.duties with
          debts := before ++ after, deeds := .compared (decide (response = challenge)) :: s.duties.deeds } })
  ∧ (∀ (s : State) (flashStart flashEnd : Nat) (rest : List BusEvent), s.rested = true →
      flashStart ≤ s.rdaddr.toNat → s.rdaddr.toNat < flashEnd → s.bus = .host (.readPage flashStart flashEnd) :: rest →
      step s = .next { s with
        bus := rest, duties := { s.duties with deeds := .pageRead s.rdaddr :: s.duties.deeds } })
  -- messages and intentions
  ∧ (∀ (s : State) (m : HostMove) (d : Duties) (message : List Byte) (k : Option Key) (on : Bool) (rest : List BusEvent),
      (s.busy = true → s.wait ≠ 0) →
      (m, d) ∈ [(.receive message, { s.duties with message := some message }),
        (.encodeUnder k, { s.duties with encodeKey := k }), (.keepStreamKey on, { s.duties with oneStreamKey := on })] →
      s.bus = .host m :: rest →
      ∃ n, step s = .next { s with bus := rest, wait := n, duties := d } ∧ (s.busy = false → n = s.wait))
  -- a reset
  ∧ (∀ (s : State) (k : Key) (image : List Byte) (rest : List BusEvent), (s.busy = true → s.wait ≠ 0) →
      s.bus = .reset k image :: rest →
      ∃ t, step s = .next t ∧ t.duties = { s.duties with
        awaited := none, arg0Written := false, arg1Written := false, msglenWritten := false, message := none
        debts := s.duties.debts.filter (fun debt => debt ∉ [Debt.persist, .program, .respond]), keySource := .boot })
  -- the end of a host program
  ∧ (∀ s : State, s.endsProgram = true →
      ∃ bus d, step s = .next { s with bus := bus, responses := s.statusWord :: s.responses, duties := d }
        ∧ s.statusWord.getLsbD 0 = false ∧ ∀ e ∈ bus, e.issues = false)

/-- The invariant of the block is kept by every step. -/
def Obligations.EveryStepKeepsTheInvariant : Prop :=
  ∀ s t : State, s.Inv → step s = .next t → t.Inv

/-- The invariant holds after power-on reset, whatever the parameters, the boot key and BUF are. -/
def Obligations.ResetMeetsTheInvariant : Prop :=
  State.reset.Inv
end

