-- ==== Sys2Proof/Laws/Memory.lean ====
section
/-! SUPPORT. What the operations over BUF do: reading after writing, and that every write keeps the canonical form. -/

namespace Sys2Proof.Machine

/-! ### One byte -/

@[simp] theorem lookup_put (m : Memory) (a x : Nat) (v : Byte) :
    Memory.lookup (Memory.put m a v) x = if a = x then some v else Memory.lookup m x := by
  induction m with
  | nil => simp [Memory.put, Memory.lookup]
  | cons c m ih =>
    obtain ⟨k, w⟩ := c
    simp only [Memory.put]
    split_ifs with h1 h2 <;> simp only [Memory.lookup, ih] <;> split_ifs <;> first | rfl | omega

@[simp] theorem read_put (m : Memory) (a x : Nat) (v : Byte) :
    Memory.read (Memory.put m a v) x = if a = x then v else Memory.read m x := by
  simp only [Memory.read, lookup_put]
  split_ifs <;> rfl

theorem risingFrom_put {low a : Nat} {m : Memory} (v : Byte) (h : Memory.risingFrom low m = true) (ha : low ≤ a) :
    Memory.risingFrom low (Memory.put m a v) = true := by
  induction m generalizing low with
  | nil => simpa [Memory.put, Memory.risingFrom] using ha
  | cons c m ih =>
    obtain ⟨k, w⟩ := c
    simp only [Memory.risingFrom, Bool.and_eq_true, decide_eq_true_eq] at h
    simp only [Memory.put]
    split_ifs with h1 h2
    · simp only [Memory.risingFrom, Bool.and_eq_true, decide_eq_true_eq]; exact ⟨ha, h1, h.2⟩
    · subst h2; simpa [Memory.risingFrom, h.2] using ha
    · simp only [Memory.risingFrom, Bool.and_eq_true, decide_eq_true_eq]
      exact ⟨h.1, ih h.2 (by omega)⟩

theorem wf_put {m : Memory} (a : Nat) (v : Byte) (h : Memory.wf m = true) : Memory.wf (Memory.put m a v) = true :=
  risingFrom_put v h (Nat.zero_le a)

theorem within_put {m : Memory} {a size : Nat} (v : Byte) (h : Memory.within m size = true) (ha : a < size) :
    Memory.within (Memory.put m a v) size = true := by
  induction m with
  | nil => simpa [Memory.put, Memory.within] using ha
  | cons c m ih =>
    obtain ⟨k, w⟩ := c
    simp only [Memory.within, List.all_cons, Bool.and_eq_true, decide_eq_true_eq] at h
    simp only [Memory.put]
    split_ifs
    · simp only [Memory.within, List.all_cons, Bool.and_eq_true, decide_eq_true_eq]; exact ⟨ha, h⟩
    · simp only [Memory.within, List.all_cons, Bool.and_eq_true, decide_eq_true_eq]; exact ⟨ha, h.2⟩
    · simp only [Memory.within, List.all_cons, Bool.and_eq_true, decide_eq_true_eq]; exact ⟨h.1, ih h.2⟩

/-! ### Byte strings -/

@[simp] theorem length_readBytes (m : Memory) (a n : Nat) : (Memory.readBytes m a n).length = n := by
  induction n generalizing a with
  | zero => rfl
  | succ n ih => simp [Memory.readBytes, ih]

theorem getElem_readBytes (m : Memory) (a n i : Nat) (h : i < (Memory.readBytes m a n).length) :
    (Memory.readBytes m a n)[i] = Memory.read m (a + i) := by
  induction n generalizing a i with
  | zero => simp at h
  | succ n ih =>
    cases i with
    | zero => rfl
    | succ i =>
      simp only [Memory.readBytes, List.getElem_cons_succ]
      rw [ih]
      congr 1
      omega

theorem readBytes_congr {m m' : Memory} {a n : Nat} (h : ∀ i, i < n → Memory.read m' (a + i) = Memory.read m (a + i)) :
    Memory.readBytes m' a n = Memory.readBytes m a n := by
  apply List.ext_getElem (by simp)
  intro i h1 h2
  rw [getElem_readBytes, getElem_readBytes]
  exact h i (by simpa using h1)

theorem read_writeBytes (m : Memory) (a x : Nat) (bs : List Byte) :
    Memory.read (Memory.writeBytes m a bs) x
      = if a ≤ x ∧ x < a + bs.length then bs.getD (x - a) 0#8 else Memory.read m x := by
  induction bs generalizing m a with
  | nil =>
    have h : ¬ (a ≤ x ∧ x < a + ([] : List Byte).length) := by simp
    rw [if_neg h]; rfl
  | cons b bs ih =>
    simp only [Memory.writeBytes, ih, read_put, List.length_cons]
    rcases Nat.lt_trichotomy a x with h | h | h
    · obtain ⟨d, rfl⟩ : ∃ d, x = a + 1 + d := ⟨x - (a + 1), by omega⟩
      have e : a + 1 + d - a = d + 1 := by omega
      have e' : a + 1 + d - (a + 1) = d := by omega
      rw [e, e', List.getD_cons_succ]
      split_ifs <;> first | rfl | omega
    · subst h
      split_ifs <;> first | omega | simp
    · split_ifs <;> first | rfl | omega

theorem wf_writeBytes {m : Memory} (a : Nat) (bs : List Byte) (h : Memory.wf m = true) :
    Memory.wf (Memory.writeBytes m a bs) = true := by
  induction bs generalizing m a with
  | nil => exact h
  | cons b bs ih => exact ih (a + 1) (wf_put a b h)

theorem within_writeBytes {m : Memory} {a size : Nat} {bs : List Byte} (h : Memory.within m size = true)
    (ha : a + bs.length ≤ size) : Memory.within (Memory.writeBytes m a bs) size = true := by
  induction bs generalizing m a with
  | nil => exact h
  | cons b bs ih =>
    simp only [List.length_cons] at ha
    exact ih (within_put b h (by omega)) (by omega)

/-! ### Little-endian integers -/

theorem readLe_lt (m : Memory) (a n : Nat) : Memory.readLe m a n < 256 ^ n := by
  induction n generalizing a with
  | zero => simp [Memory.readLe]
  | succ n ih =>
    have h := ih (a + 1)
    have hb := (Memory.read m a).isLt
    simp only [Memory.readLe, Nat.pow_succ]
    omega

theorem readLe_byte (m : Memory) (a n j : Nat) (h : j < n) :
    BitVec.ofNat 8 (Memory.readLe m a n / 256 ^ j) = Memory.read m (a + j) := by
  induction n generalizing a j with
  | zero => omega
  | succ n ih =>
    have hb := (Memory.read m a).isLt
    cases j with
    | zero =>
      apply BitVec.eq_of_toNat_eq
      simp only [Memory.readLe, BitVec.toNat_ofNat, Nat.pow_zero, Nat.div_one, Nat.add_zero]
      omega
    | succ j =>
      have e : Memory.readLe m a (n + 1) / 256 ^ (j + 1) = Memory.readLe m (a + 1) n / 256 ^ j := by
        rw [Nat.pow_succ, Nat.mul_comm, ← Nat.div_div_eq_div_mul]
        congr 1
        simp only [Memory.readLe]
        omega
      rw [e, ih (a + 1) j (by omega)]
      congr 1
      omega

theorem read_writeLe (m : Memory) (a n v x : Nat) :
    Memory.read (Memory.writeLe m a n v) x
      = if a ≤ x ∧ x < a + n then BitVec.ofNat 8 (v / 256 ^ (x - a)) else Memory.read m x := by
  induction n generalizing m a v with
  | zero =>
    have h : ¬ (a ≤ x ∧ x < a + 0) := by omega
    rw [if_neg h]; rfl
  | succ n ih =>
    simp only [Memory.writeLe, ih, read_put]
    rcases Nat.lt_trichotomy a x with h | h | h
    · obtain ⟨d, rfl⟩ : ∃ d, x = a + 1 + d := ⟨x - (a + 1), by omega⟩
      have e : a + 1 + d - a = d + 1 := by omega
      have e' : a + 1 + d - (a + 1) = d := by omega
      rw [e, e', Nat.div_div_eq_div_mul, ← Nat.pow_succ']
      split_ifs <;> first | rfl | omega
    · subst h
      split_ifs <;> first | omega | simp
    · split_ifs <;> first | rfl | omega

theorem wf_writeLe {m : Memory} (a n v : Nat) (h : Memory.wf m = true) :
    Memory.wf (Memory.writeLe m a n v) = true := by
  induction n generalizing m a v with
  | zero => exact h
  | succ n ih => exact ih (a + 1) (v / 256) (wf_put a _ h)

theorem within_writeLe {m : Memory} {a n size : Nat} (v : Nat) (h : Memory.within m size = true)
    (ha : a + n ≤ size) : Memory.within (Memory.writeLe m a n v) size = true := by
  induction n generalizing m a v with
  | zero => exact h
  | succ n ih => exact ih (v / 256) (within_put _ h (by omega)) (by omega)

end Sys2Proof.Machine
end

