-- ==== Sys2Proof/Laws/Strings.lean ====
section
/-! SUPPORT. Byte strings held as bit vectors: their bytes determine them, and reading a string after writing it
gives it back. -/

namespace Sys2Proof.Machine

theorem beNat_append (bs : List Byte) (b : Byte) : beNat (bs ++ [b]) = 256 * beNat bs + b.toNat := by
  simp [beNat]

theorem beNat_lt (bs : List Byte) : beNat bs < 256 ^ bs.length := by
  induction bs using List.reverseRecOn with
  | nil => simp [beNat]
  | append_singleton bs b ih =>
    have := b.isLt
    rw [beNat_append, List.length_append, List.length_singleton, Nat.pow_succ]
    omega

/-- Byte `i` of the integer a string is read as. -/
theorem beNat_byte (bs : List Byte) (i : Nat) (h : i < bs.length) :
    beNat bs / 256 ^ (bs.length - 1 - i) % 256 = (bs[i]).toNat := by
  induction bs using List.reverseRecOn with
  | nil => simp at h
  | append_singleton bs b ih =>
    have hb := b.isLt
    rw [List.length_append, List.length_singleton] at h
    simp only [beNat_append, List.length_append, List.length_singleton]
    by_cases hi : i < bs.length
    · rw [List.getElem_append_left hi, ← ih hi]
      have e : bs.length + 1 - 1 - i = bs.length - 1 - i + 1 := by omega
      rw [e, Nat.pow_succ, Nat.mul_comm (256 ^ _) 256, ← Nat.div_div_eq_div_mul]
      congr 2
      omega
    · have e : i = bs.length := by omega
      subst e
      simp only [Nat.add_sub_cancel, Nat.sub_self, Nat.pow_zero, Nat.div_one, List.getElem_append_right (Nat.le_refl _),
        List.getElem_singleton]
      omega

theorem toNat_strByte {w : Nat} (x : BitVec w) (i : Nat) :
    (strByte x i).toNat = x.toNat / 2 ^ (w - 8 * (i + 1)) % 256 := by
  simp [strByte, BitVec.extractLsb'_toNat, Nat.shiftRight_eq_div_pow]

/-- A byte of a string made from its integer reading. -/
theorem strByte_ofNat {n : Nat} (bs : List Byte) (hn : bs.length = n) (i : Nat) (h : i < bs.length) :
    strByte (BitVec.ofNat (8 * n) (beNat bs)) i = bs[i] := by
  apply BitVec.eq_of_toNat_eq
  have hlt : beNat bs < 2 ^ (8 * n) := by
    have := beNat_lt bs
    rw [hn] at this
    calc beNat bs < 256 ^ n := this
      _ = 2 ^ (8 * n) := by rw [Nat.pow_mul]
  have e : 2 ^ (8 * n - 8 * (i + 1)) = 256 ^ (bs.length - 1 - i) := by
    have : 8 * n - 8 * (i + 1) = 8 * (bs.length - 1 - i) := by omega
    rw [this, Nat.pow_mul]
  rw [toNat_strByte, BitVec.toNat_ofNat, Nat.mod_eq_of_lt hlt, e, beNat_byte bs i h]

/-- Two strings of whole bytes are equal when their bytes are. -/
theorem eq_of_strByte {n : Nat} {x y : BitVec (8 * n)} (h : ∀ i, i < n → strByte x i = strByte y i) : x = y := by
  apply BitVec.eq_of_getLsbD_eq
  intro k hk
  have hi : n - 1 - k / 8 < n := by omega
  have hb := congrArg (fun b => b.getLsbD (k % 8)) (h (n - 1 - k / 8) hi)
  simp only [strByte, BitVec.getLsbD_extractLsb'] at hb
  have h8 : k % 8 < 8 := Nat.mod_lt _ (by omega)
  have e : 8 * n - 8 * (n - 1 - k / 8 + 1) + k % 8 = k := by omega
  rw [e] at hb
  simpa [h8] using hb

theorem block_eq_of_strByte {x y : Block} (h : ∀ i, i < 16 → strByte x i = strByte y i) : x = y :=
  eq_of_strByte (n := 16) h

theorem key_eq_of_strByte {x y : Key} (h : ∀ i, i < 32 → strByte x i = strByte y i) : x = y :=
  eq_of_strByte (n := 32) h

@[simp] theorem strByte_xor {w : Nat} (x y : BitVec w) (i : Nat) : strByte (x ^^^ y) i = strByte x i ^^^ strByte y i := by
  apply BitVec.eq_of_getLsbD_eq
  intro k hk
  simp [strByte, hk]

@[simp] theorem strByte_zero {w : Nat} (i : Nat) : strByte (0#w) i = 0#8 := by
  simp [strByte]

@[simp] theorem length_strBytes {w : Nat} (x : BitVec w) : (strBytes x).length = w / 8 := by
  simp [strBytes]

theorem getD_strBytes {w : Nat} (x : BitVec w) (i : Nat) (h : i < w / 8) : (strBytes x).getD i 0#8 = strByte x i := by
  simp [strBytes, List.getD_eq_getElem?_getD, h]

/-! ### Blocks and keys in BUF -/

@[simp] theorem strByte_readBlock (m : Memory) (a i : Nat) (h : i < 16) :
    strByte (Memory.readBlock m a) i = Memory.read m (a + i) := by
  unfold Memory.readBlock Memory.readStr
  have := strByte_ofNat (n := 16) (Memory.readBytes m a 16) (by simp) i (by simpa using h)
  rw [getElem_readBytes] at this
  exact this

@[simp] theorem strByte_readKey (m : Memory) (a i : Nat) (h : i < 32) :
    strByte (Memory.readKey m a) i = Memory.read m (a + i) := by
  unfold Memory.readKey Memory.readStr
  have := strByte_ofNat (n := 32) (Memory.readBytes m a 32) (by simp) i (by simpa using h)
  rw [getElem_readBytes] at this
  exact this

theorem toNat_readBlock (m : Memory) (a : Nat) : (Memory.readBlock m a).toNat = beNat (Memory.readBytes m a 16) := by
  have h := beNat_lt (Memory.readBytes m a 16)
  rw [length_readBytes] at h
  simp only [Memory.readBlock, Memory.readStr, BitVec.toNat_ofNat]
  exact Nat.mod_eq_of_lt (lt_of_lt_of_le h (by norm_num))

theorem readBlock_congr {m m' : Memory} {a : Nat} (h : ∀ i, i < 16 → Memory.read m' (a + i) = Memory.read m (a + i)) :
    Memory.readBlock m' a = Memory.readBlock m a := by
  simp only [Memory.readBlock, Memory.readStr]
  rw [readBytes_congr h]

theorem read_writeBlock (m : Memory) (a x : Nat) (b : Block) :
    Memory.read (Memory.writeBlock m a b) x
      = if a ≤ x ∧ x < a + 16 then strByte b (x - a) else Memory.read m x := by
  simp only [Memory.writeBlock, Memory.writeStr, read_writeBytes, length_strBytes]
  split_ifs with h
  · exact getD_strBytes b _ (by omega)
  · rfl

@[simp] theorem readBlock_writeBlock (m : Memory) (a : Nat) (b : Block) :
    Memory.readBlock (Memory.writeBlock m a b) a = b := by
  apply block_eq_of_strByte
  intro i hi
  rw [strByte_readBlock _ _ _ hi, read_writeBlock, if_pos (by omega)]
  congr 1
  omega

theorem readBlock_writeBlock_disjoint (m : Memory) {a x : Nat} (b : Block) (h : x + 16 ≤ a ∨ a + 16 ≤ x) :
    Memory.readBlock (Memory.writeBlock m a b) x = Memory.readBlock m x := by
  apply readBlock_congr
  intro i hi
  rw [read_writeBlock, if_neg (by omega)]

theorem wf_writeBlock {m : Memory} (a : Nat) (b : Block) (h : Memory.wf m = true) :
    Memory.wf (Memory.writeBlock m a b) = true := by
  unfold Memory.writeBlock Memory.writeStr
  exact wf_writeBytes a _ h

theorem within_writeBlock {m : Memory} {a size : Nat} (b : Block) (h : Memory.within m size = true)
    (ha : a + 16 ≤ size) : Memory.within (Memory.writeBlock m a b) size = true := by
  unfold Memory.writeBlock Memory.writeStr
  exact within_writeBytes h (by simpa using ha)

/-! ### Strings of blocks -/

@[simp] theorem length_readBlocks (m : Memory) (a n : Nat) : (Memory.readBlocks m a n).length = n := by
  induction n generalizing a with
  | zero => rfl
  | succ n ih => simp [Memory.readBlocks, ih]

theorem getElem_readBlocks (m : Memory) (a n j : Nat) (h : j < (Memory.readBlocks m a n).length) :
    (Memory.readBlocks m a n)[j] = Memory.readBlock m (a + 16 * j) := by
  induction n generalizing a j with
  | zero => simp at h
  | succ n ih =>
    cases j with
    | zero => rfl
    | succ j =>
      simp only [Memory.readBlocks, List.getElem_cons_succ]
      rw [ih]
      congr 1
      omega

theorem readBlocks_congr {m m' : Memory} {a n : Nat}
    (h : ∀ i, i < 16 * n → Memory.read m' (a + i) = Memory.read m (a + i)) :
    Memory.readBlocks m' a n = Memory.readBlocks m a n := by
  induction n generalizing a with
  | zero => rfl
  | succ n ih =>
    simp only [Memory.readBlocks]
    rw [readBlock_congr (fun i hi => h i (by omega)), ih]
    intro i hi
    have := h (16 + i) (by omega)
    rwa [← Nat.add_assoc] at this

theorem readBlocks_add (m : Memory) (a n k : Nat) :
    Memory.readBlocks m a (n + k) = Memory.readBlocks m a n ++ Memory.readBlocks m (a + 16 * n) k := by
  induction n generalizing a with
  | zero => simp [Memory.readBlocks]
  | succ n ih =>
    have e : n + 1 + k = n + k + 1 := by omega
    rw [e]
    simp only [Memory.readBlocks, ih, List.cons_append]
    congr 3
    omega

theorem read_writeBlocks_outside (m : Memory) {a x : Nat} (xs : List Block) (h : x < a ∨ a + 16 * xs.length ≤ x) :
    Memory.read (Memory.writeBlocks m a xs) x = Memory.read m x := by
  induction xs generalizing m a with
  | nil => rfl
  | cons b bs ih =>
    simp only [List.length_cons] at h
    rw [Memory.writeBlocks, ih _ (by omega), read_writeBlock, if_neg (by omega)]

theorem readBlock_writeBlocks (m : Memory) (a j : Nat) (xs : List Block) (h : j < xs.length) :
    Memory.readBlock (Memory.writeBlocks m a xs) (a + 16 * j) = xs[j] := by
  induction xs generalizing m a j with
  | nil => simp at h
  | cons b bs ih =>
    cases j with
    | zero =>
      simp only [Memory.writeBlocks, List.getElem_cons_zero, Nat.mul_zero, Nat.add_zero]
      rw [readBlock_congr (m := Memory.writeBlock m a b), readBlock_writeBlock]
      intro i hi
      exact read_writeBlocks_outside _ _ (by omega)
    | succ j =>
      simp only [List.length_cons] at h
      simp only [Memory.writeBlocks, List.getElem_cons_succ]
      have e : a + 16 * (j + 1) = a + 16 + 16 * j := by omega
      rw [e, ih _ _ _ (by omega)]

theorem wf_writeBlocks {m : Memory} (a : Nat) (xs : List Block) (h : Memory.wf m = true) :
    Memory.wf (Memory.writeBlocks m a xs) = true := by
  induction xs generalizing m a with
  | nil => exact h
  | cons b bs ih => exact ih (a + 16) (wf_writeBlock a b h)

theorem within_writeBlocks {m : Memory} {a size : Nat} {xs : List Block} (h : Memory.within m size = true)
    (ha : a + 16 * xs.length ≤ size) : Memory.within (Memory.writeBlocks m a xs) size = true := by
  induction xs generalizing m a with
  | nil => exact h
  | cons b bs ih =>
    simp only [List.length_cons] at ha
    exact ih (within_writeBlock b h (by omega)) (by omega)

end Sys2Proof.Machine
end

