-- ==== Sys2Proof/Laws/BlockCipher.lean ====
section
/-! SUPPORT. Each step of the cipher is undone by its counterpart (spec/40_block_cipher.md R105, R107), and the state's bytes
are the block's (R101). -/

namespace Sys2Proof.Machine

/-! ### Field arithmetic (R102) -/

theorem xtime_xor (a b : Byte) : xtime (a ^^^ b) = xtime a ^^^ xtime b := by
  unfold xtime
  rw [BitVec.shiftLeft_xor_distrib, BitVec.msb_xor]
  have h : ∀ x y k : Byte, x ^^^ k ^^^ (y ^^^ k) = x ^^^ y := by
    intro x y k
    rw [show x ^^^ k ^^^ (y ^^^ k) = x ^^^ y ^^^ (k ^^^ k) by ac_rfl, BitVec.xor_self, BitVec.xor_zero]
  cases a.msb <;> cases b.msb
  · simp
  · simp only [Bool.xor_true, Bool.not_false, if_true, Bool.false_eq_true, if_false, BitVec.xor_zero]; ac_rfl
  · simp only [Bool.xor_false, if_true, Bool.false_eq_true, if_false, BitVec.xor_zero]; ac_rfl
  · simp [h]

theorem gmul_2 (a : Byte) : gmul a 2#8 = xtime a := by
  revert a; decide +kernel

theorem gmul_3 (a : Byte) : gmul a 3#8 = xtime a ^^^ a := by
  revert a; decide +kernel

theorem gmul_9 (a : Byte) : gmul a 9#8 = xtime (xtime (xtime a)) ^^^ a := by
  revert a; decide +kernel

theorem gmul_11 (a : Byte) : gmul a 11#8 = xtime (xtime (xtime a)) ^^^ xtime a ^^^ a := by
  revert a; decide +kernel

theorem gmul_13 (a : Byte) : gmul a 13#8 = xtime (xtime (xtime a)) ^^^ xtime (xtime a) ^^^ a := by
  revert a; decide +kernel

theorem gmul_14 (a : Byte) : gmul a 14#8 = xtime (xtime (xtime a)) ^^^ xtime (xtime a) ^^^ xtime a := by
  revert a; decide +kernel

/-- A row of the product of two of the circulant matrices, as one function of each byte of the column. -/
theorem xor_regroup (a0 a1 a2 a3 b0 b1 b2 b3 c0 c1 c2 c3 d0 d1 d2 d3 : Byte) :
    (a0 ^^^ b0 ^^^ c0 ^^^ d0) ^^^ (a1 ^^^ b1 ^^^ c1 ^^^ d1) ^^^ (a2 ^^^ b2 ^^^ c2 ^^^ d2) ^^^ (a3 ^^^ b3 ^^^ c3 ^^^ d3)
      = (a0 ^^^ a1 ^^^ a2 ^^^ a3) ^^^ (b0 ^^^ b1 ^^^ b2 ^^^ b3) ^^^ (c0 ^^^ c1 ^^^ c2 ^^^ c3) ^^^ (d0 ^^^ d1 ^^^ d2 ^^^ d3) := by
  ac_rfl

theorem gmul_9_xor (a b : Byte) : gmul (a ^^^ b) 9#8 = gmul a 9#8 ^^^ gmul b 9#8 := by
  simp only [gmul_9, xtime_xor]; ac_rfl

theorem gmul_11_xor (a b : Byte) : gmul (a ^^^ b) 11#8 = gmul a 11#8 ^^^ gmul b 11#8 := by
  simp only [gmul_11, xtime_xor]; ac_rfl

theorem gmul_13_xor (a b : Byte) : gmul (a ^^^ b) 13#8 = gmul a 13#8 ^^^ gmul b 13#8 := by
  simp only [gmul_13, xtime_xor]; ac_rfl

theorem gmul_14_xor (a b : Byte) : gmul (a ^^^ b) 14#8 = gmul a 14#8 ^^^ gmul b 14#8 := by
  simp only [gmul_14, xtime_xor]; ac_rfl

theorem gmul_2_xor (a b : Byte) : gmul (a ^^^ b) 2#8 = gmul a 2#8 ^^^ gmul b 2#8 := by
  simp only [gmul_2, xtime_xor]

theorem gmul_3_xor (a b : Byte) : gmul (a ^^^ b) 3#8 = gmul a 3#8 ^^^ gmul b 3#8 := by
  simp only [gmul_3, xtime_xor]; ac_rfl

/-- The entries of `InvMixColumns · MixColumns`, and of the product the other way round, on one byte: 1 on the
diagonal, 0 off it. -/
theorem mix_byte (a : Byte) :
    (gmul (gmul a 2#8) 14#8 ^^^ gmul a 11#8 ^^^ gmul a 13#8 ^^^ gmul (gmul a 3#8) 9#8 = a
    ∧ gmul (gmul a 3#8) 14#8 ^^^ gmul (gmul a 2#8) 11#8 ^^^ gmul a 13#8 ^^^ gmul a 9#8 = 0#8
    ∧ gmul a 14#8 ^^^ gmul (gmul a 3#8) 11#8 ^^^ gmul (gmul a 2#8) 13#8 ^^^ gmul a 9#8 = 0#8
    ∧ gmul a 14#8 ^^^ gmul a 11#8 ^^^ gmul (gmul a 3#8) 13#8 ^^^ gmul (gmul a 2#8) 9#8 = 0#8)
    ∧ (gmul (gmul a 14#8) 2#8 ^^^ gmul (gmul a 9#8) 3#8 ^^^ gmul a 13#8 ^^^ gmul a 11#8 = a
    ∧ gmul (gmul a 11#8) 2#8 ^^^ gmul (gmul a 14#8) 3#8 ^^^ gmul a 9#8 ^^^ gmul a 13#8 = 0#8
    ∧ gmul (gmul a 13#8) 2#8 ^^^ gmul (gmul a 11#8) 3#8 ^^^ gmul a 14#8 ^^^ gmul a 9#8 = 0#8
    ∧ gmul (gmul a 9#8) 2#8 ^^^ gmul (gmul a 13#8) 3#8 ^^^ gmul a 11#8 ^^^ gmul a 14#8 = 0#8) := by
  revert a; decide +kernel

/-- A sum of four bytes, started at the last, the third or the second. -/
theorem xor_rotate {a b c d x : Byte} (h : b ^^^ c ^^^ d ^^^ a = x) :
    a ^^^ b ^^^ c ^^^ d = x ∧ d ^^^ a ^^^ b ^^^ c = x ∧ c ^^^ d ^^^ a ^^^ b = x := by
  subst h
  refine ⟨?_, ?_, ?_⟩ <;> ac_rfl

theorem invMixColumn_mixColumn (c : Column) : invMixColumn (mixColumn c) = c := by
  obtain ⟨r0, r1, r2, r3⟩ := c
  obtain ⟨⟨p0, q0, s0, t0⟩, -⟩ := mix_byte r0
  obtain ⟨⟨p1, q1, s1, t1⟩, -⟩ := mix_byte r1
  obtain ⟨⟨p2, q2, s2, t2⟩, -⟩ := mix_byte r2
  obtain ⟨⟨p3, q3, s3, t3⟩, -⟩ := mix_byte r3
  simp only [invMixColumn, mixColumn, gmul_9_xor, gmul_11_xor, gmul_13_xor, gmul_14_xor, Column.mk.injEq]
  refine ⟨?_, ?_, ?_, ?_⟩
  · rw [xor_regroup, p0, q1, s2, t3]; simp
  · rw [xor_regroup, (xor_rotate t0).1, (xor_rotate p1).1, (xor_rotate q2).1, (xor_rotate s3).1]; simp
  · rw [xor_regroup, (xor_rotate s0).2.1, (xor_rotate t1).2.1, (xor_rotate p2).2.1, (xor_rotate q3).2.1]; simp
  · rw [xor_regroup, (xor_rotate q0).2.2, (xor_rotate s1).2.2, (xor_rotate t2).2.2, (xor_rotate p3).2.2]; simp

theorem mixColumn_invMixColumn (c : Column) : mixColumn (invMixColumn c) = c := by
  obtain ⟨r0, r1, r2, r3⟩ := c
  obtain ⟨-, p0, q0, s0, t0⟩ := mix_byte r0
  obtain ⟨-, p1, q1, s1, t1⟩ := mix_byte r1
  obtain ⟨-, p2, q2, s2, t2⟩ := mix_byte r2
  obtain ⟨-, p3, q3, s3, t3⟩ := mix_byte r3
  simp only [invMixColumn, mixColumn, gmul_2_xor, gmul_3_xor, Column.mk.injEq]
  refine ⟨?_, ?_, ?_, ?_⟩
  · rw [xor_regroup, p0, q1, s2, t3]; simp
  · rw [xor_regroup, (xor_rotate t0).1, (xor_rotate p1).1, (xor_rotate q2).1, (xor_rotate s3).1]; simp
  · rw [xor_regroup, (xor_rotate s0).2.1, (xor_rotate t1).2.1, (xor_rotate p2).2.1, (xor_rotate q3).2.1]; simp
  · rw [xor_regroup, (xor_rotate q0).2.2, (xor_rotate s1).2.2, (xor_rotate t2).2.2, (xor_rotate p3).2.2]; simp

/-! ### The other steps -/

theorem invSbox_sbox (b : Byte) : invSbox (sbox b) = b := by
  revert b; decide +kernel

theorem sbox_invSbox (b : Byte) : sbox (invSbox b) = b := by
  revert b; decide +kernel

@[simp] theorem invSubBytes_subBytes (s : Square) : invSubBytes (subBytes s) = s := by
  simp [invSubBytes, subBytes, Square.map, Column.map, invSbox_sbox]

@[simp] theorem subBytes_invSubBytes (s : Square) : subBytes (invSubBytes s) = s := by
  simp [invSubBytes, subBytes, Square.map, Column.map, sbox_invSbox]

@[simp] theorem invShiftRows_shiftRows (s : Square) : invShiftRows (shiftRows s) = s := rfl

@[simp] theorem shiftRows_invShiftRows (s : Square) : shiftRows (invShiftRows s) = s := rfl

@[simp] theorem mixColumns_inv (s : Square) : (s.map mixColumn).map invMixColumn = s := by
  simp [Square.map, invMixColumn_mixColumn]

@[simp] theorem invMixColumns_mix (s : Square) : (s.map invMixColumn).map mixColumn = s := by
  simp [Square.map, mixColumn_invMixColumn]

@[simp] theorem Column.xor_xor (c d : Column) : (c.xor d).xor d = c := by
  simp [Column.xor]

@[simp] theorem addRoundKey_twice (k s : Square) : addRoundKey k (addRoundKey k s) = s := by
  simp [addRoundKey]

/-- A round of decryption undoes the round of encryption with the same round key. -/
theorem decryptRound_encryptRound (s k : Square) :
    invSubBytes (invShiftRows ((addRoundKey k (encryptRound s k)).map invMixColumn)) = s := by
  simp [encryptRound]

/-- A round of encryption undoes the round of decryption with the same round key. -/
theorem encryptRound_decryptRound (s k : Square) :
    addRoundKey k ((decryptRound s k).map mixColumn) = invSubBytes (invShiftRows s) := by
  simp [decryptRound]

/-! ### Bytes of the state (R101) -/

/-- A byte of the front part of a string. -/
theorem strByte_append_high {v w : Nat} (x : BitVec v) (y : BitVec w) (i : Nat) (h : 8 * (i + 1) ≤ v) :
    strByte (x ++ y) i = strByte x i := by
  apply BitVec.eq_of_getLsbD_eq
  intro k hk
  simp only [strByte, BitVec.getLsbD_extractLsb', BitVec.getLsbD_append, hk, decide_true, Bool.true_and]
  rw [if_neg (by omega)]
  congr 1
  omega

/-- A byte of the back part of a string. -/
theorem strByte_append_low {v w : Nat} (x : BitVec v) (y : BitVec w) (i j : Nat) (h : 8 * i = v + 8 * j)
    (hj : 8 * (j + 1) ≤ w) : strByte (x ++ y) i = strByte y j := by
  apply BitVec.eq_of_getLsbD_eq
  intro k hk
  simp only [strByte, BitVec.getLsbD_extractLsb', BitVec.getLsbD_append, hk, decide_true, Bool.true_and]
  rw [if_pos (by omega)]
  congr 1
  omega

/-- The bytes of four strings of `m` bytes, one after another. -/
theorem strByte_four {m : Nat} (a b c d : BitVec (8 * m)) (j : Nat) (h : j < m) :
    strByte (a ++ b ++ c ++ d) j = strByte a j ∧ strByte (a ++ b ++ c ++ d) (m + j) = strByte b j
    ∧ strByte (a ++ b ++ c ++ d) (2 * m + j) = strByte c j ∧ strByte (a ++ b ++ c ++ d) (3 * m + j) = strByte d j := by
  refine ⟨?_, ?_, ?_, ?_⟩
  · rw [strByte_append_high _ _ _ (by omega), strByte_append_high _ _ _ (by omega), strByte_append_high _ _ _ (by omega)]
  · rw [strByte_append_high _ _ _ (by omega), strByte_append_high _ _ _ (by omega),
      strByte_append_low _ _ _ j (by omega) (by omega)]
  · rw [strByte_append_high _ _ _ (by omega), strByte_append_low _ _ _ j (by omega) (by omega)]
  · rw [strByte_append_low _ _ _ j (by omega) (by omega)]

theorem strByte_byte (b : Byte) : strByte b 0 = b := by
  simp [strByte]

/-- The bytes of a column are its rows. -/
theorem strByte_bits (c : Column) :
    strByte c.bits 0 = c.r0 ∧ strByte c.bits 1 = c.r1 ∧ strByte c.bits 2 = c.r2 ∧ strByte c.bits 3 = c.r3 := by
  have h := strByte_four (m := 1) c.r0 c.r1 c.r2 c.r3 0 (by omega)
  exact ⟨h.1.trans (strByte_byte _), h.2.1.trans (strByte_byte _), h.2.2.1.trans (strByte_byte _),
    h.2.2.2.trans (strByte_byte _)⟩

/-- Loading a stored square gives it back. -/
@[simp] theorem load_store (s : Square) : Square.load s.store = s := by
  have h : ∀ j, j < 4 → strByte s.store j = strByte s.c0.bits j ∧ strByte s.store (4 + j) = strByte s.c1.bits j
      ∧ strByte s.store (8 + j) = strByte s.c2.bits j ∧ strByte s.store (12 + j) = strByte s.c3.bits j :=
    fun j hj => strByte_four (m := 4) s.c0.bits s.c1.bits s.c2.bits s.c3.bits j hj
  have h0 := h 0 (by omega)
  have h1 := h 1 (by omega)
  have h2 := h 2 (by omega)
  have h3 := h 3 (by omega)
  have b0 := strByte_bits s.c0
  have b1 := strByte_bits s.c1
  have b2 := strByte_bits s.c2
  have b3 := strByte_bits s.c3
  simp only [Nat.add_zero] at h0
  simp only [Square.load, columnAt, Nat.zero_add]
  rw [h0.1, h1.1, h2.1, h3.1, h0.2.1, h1.2.1, h2.2.1, h3.2.1, h0.2.2.1, h1.2.2.1, h2.2.2.1, h3.2.2.1,
    h0.2.2.2, h1.2.2.2, h2.2.2.2, h3.2.2.2, b0.1, b0.2.1, b0.2.2.1, b0.2.2.2, b1.1, b1.2.1, b1.2.2.1, b1.2.2.2,
    b2.1, b2.2.1, b2.2.2.1, b2.2.2.2, b3.1, b3.2.1, b3.2.2.1, b3.2.2.2]

end Sys2Proof.Machine
end

