-- ==== Sys2Proof/Laws/Parameters.lean ====
section
/-! SUPPORT. Every value of `Params` meets the constraints of spec/00_scope.md R5, R6 and R10, and every page size and buffer
size those rules allow is some value's. -/

namespace Sys2Proof

theorem pageSize_ge (p : Params) : 32 ≤ p.pageSize := by
  unfold Params.pageSize
  calc 32 = 2 ^ 5 := rfl
    _ ≤ 2 ^ (p.pageLog.val + 5) := Nat.pow_le_pow_right (by omega) (by omega)

theorem pageSize_le (p : Params) : p.pageSize ≤ 16384 := by
  unfold Params.pageSize
  calc 2 ^ (p.pageLog.val + 5) ≤ 2 ^ 14 := Nat.pow_le_pow_right (by omega) (by omega)
    _ = 16384 := rfl

theorem pageSize_mod (p : Params) : p.pageSize % 16 = 0 := by
  unfold Params.pageSize
  rw [Nat.pow_add, Nat.mul_mod]
  simp

theorem addrBits_le (p : Params) : p.addrBits ≤ 30 := by
  unfold Params.addrBits
  split <;> omega

theorem bufSize_mod (p : Params) : p.bufSize % 4 = 0 := by
  have := pageSize_mod p
  unfold Params.bufSize
  omega

theorem bufSize_ge (p : Params) : p.pageSize + 48 ≤ p.bufSize := by
  have := pageSize_le p
  unfold Params.bufSize
  omega

theorem bufSize_le (p : Params) : p.bufSize ≤ 32768 := by
  unfold Params.bufSize
  omega

theorem bootStart_lt (p : Params) : p.bootStart < 2 ^ p.addrBits :=
  Nat.mod_lt _ (Nat.two_pow_pos _)

/-- Every page size and buffer size R5 and R10 allow, with every start of the reserved region R6 allows. -/
theorem exists_params (k b boot : Nat) (startApp : Half) (wide : Bool) (base : Nat) (hk : 5 ≤ k)
    (hb : b % 4 = 0) (hlo : 2 ^ k + 48 ≤ b) (hhi : b ≤ 32768) (hboot : boot < 2 ^ (if wide then 16 + k else 16)) :
    ∃ p : Params, p.pageSize = 2 ^ k ∧ p.bufSize = b ∧ p.bootStart = boot ∧ p.startApp = startApp
      ∧ p.wideAddr = wide ∧ p.base = base := by
  have hk' : k - 5 < 10 := by
    by_contra h
    have : 2 ^ 15 ≤ 2 ^ k := Nat.pow_le_pow_right (by omega) (by omega)
    omega
  have e : k - 5 + 5 = k := by omega
  have h16 : 2 ^ k % 4 = 0 := by
    obtain ⟨d, rfl⟩ : ∃ d, k = d + 2 := ⟨k - 2, by omega⟩
    rw [Nat.pow_add]; omega
  refine ⟨⟨⟨k - 5, hk'⟩, (b - 2 ^ k - 48) / 4, boot, startApp, wide, base⟩, ?_, ?_, ?_, rfl, rfl, rfl⟩
  · simp only [Params.pageSize, e]
  · simp only [Params.bufSize, Params.pageSize, e]; omega
  · simp only [Params.bootStart, Params.addrBits, e]; exact Nat.mod_eq_of_lt hboot

namespace Machine

theorem widen_lt (p : Params) (w : Half) : widen p w < 2 ^ p.addrBits := by
  have hw := w.isLt
  unfold widen Params.addrBits
  split
  · rw [Nat.pow_add]
    exact Nat.mul_lt_mul_of_pos_right hw (Nat.two_pow_pos _)
  · exact hw

theorem widen_lt_word (p : Params) (w : Half) : widen p w < 2 ^ 32 :=
  lt_of_lt_of_le (widen_lt p w) (Nat.pow_le_pow_right (by omega) (by have := addrBits_le p; omega))

end Machine

end Sys2Proof
end

