-- ==== Sys2Proof/Laws/Modes.lean ====
section
/-! SUPPORT. What the cipher modes compute on block strings, and what their bodies write into BUF. The lemmas that need the
cipher to be invertible (spec/40_block_cipher.md R100) take it as a hypothesis. -/

namespace Sys2Proof.Machine

/-! ### CBC -/

@[simp] theorem length_cbcEncrypt (k : Key) (p : Block) (xs : List Block) : (cbcEncrypt k p xs).length = xs.length := by
  induction xs generalizing p with
  | nil => rfl
  | cons x xs ih => simp [cbcEncrypt, ih]

@[simp] theorem length_cbcDecrypt (k : Key) (p : Block) (cs : List Block) : (cbcDecrypt k p cs).length = cs.length := by
  induction cs generalizing p with
  | nil => rfl
  | cons c cs ih => simp [cbcDecrypt, ih]

theorem getElem_cbcEncrypt_zero (k : Key) (p : Block) (xs : List Block) (h : 0 < xs.length) :
    (cbcEncrypt k p xs)[0]'(by simpa using h) = encrypt k (xs[0] ^^^ p) := by
  cases xs with
  | nil => simp at h
  | cons x xs => rfl

theorem getElem_cbcEncrypt_succ (k : Key) (p : Block) (xs : List Block) (j : Nat) (h : j + 1 < xs.length) :
    (cbcEncrypt k p xs)[j + 1]'(by simpa using h)
      = encrypt k (xs[j + 1] ^^^ (cbcEncrypt k p xs)[j]'(by simp; omega)) := by
  induction xs generalizing p j with
  | nil => simp at h
  | cons x xs ih =>
    simp only [List.length_cons] at h
    cases j with
    | zero => simpa [cbcEncrypt] using getElem_cbcEncrypt_zero k _ xs (by omega)
    | succ j => simpa [cbcEncrypt] using ih (encrypt k (x ^^^ p)) j (by omega)

theorem getElem_cbcDecrypt_zero (k : Key) (p : Block) (cs : List Block) (h : 0 < cs.length) :
    (cbcDecrypt k p cs)[0]'(by simpa using h) = decrypt k cs[0] ^^^ p := by
  cases cs with
  | nil => simp at h
  | cons c cs => rfl

theorem getElem_cbcDecrypt_succ (k : Key) (p : Block) (cs : List Block) (j : Nat) (h : j + 1 < cs.length) :
    (cbcDecrypt k p cs)[j + 1]'(by simpa using h) = decrypt k cs[j + 1] ^^^ cs[j] := by
  induction cs generalizing p j with
  | nil => simp at h
  | cons c cs ih =>
    simp only [List.length_cons] at h
    cases j with
    | zero => simpa [cbcDecrypt] using getElem_cbcDecrypt_zero k c cs (by omega)
    | succ j => simpa [cbcDecrypt] using ih c j (by omega)

theorem cbcDecrypt_cbcEncrypt {k : Key} (hk : ∀ x, decrypt k (encrypt k x) = x) (p : Block) (xs : List Block) :
    cbcDecrypt k p (cbcEncrypt k p xs) = xs := by
  induction xs generalizing p with
  | nil => rfl
  | cons x xs ih => simp [cbcEncrypt, cbcDecrypt, hk, ih]

theorem cbcEncrypt_cbcDecrypt {k : Key} (hk : ∀ y, encrypt k (decrypt k y) = y) (p : Block) (cs : List Block) :
    cbcEncrypt k p (cbcDecrypt k p cs) = cs := by
  induction cs generalizing p with
  | nil => rfl
  | cons c cs ih => simp [cbcEncrypt, cbcDecrypt, hk, ih]

/-! ### CBC-MAC -/

@[simp] theorem macAbsorb_nil (k : Key) (acc : Block) : macAbsorb k acc [] = acc := rfl

@[simp] theorem macAbsorb_cons (k : Key) (acc x : Block) (xs : List Block) :
    macAbsorb k acc (x :: xs) = macAbsorb k (encrypt k (acc ^^^ x)) xs := rfl

theorem macAbsorb_append (k : Key) (acc : Block) (xs ys : List Block) :
    macAbsorb k acc (xs ++ ys) = macAbsorb k (macAbsorb k acc xs) ys := by
  simp [macAbsorb]

@[simp] theorem macUnwind_nil (k : Key) (t : Block) : macUnwind k t [] = t := rfl

@[simp] theorem macUnwind_cons (k : Key) (t x : Block) (xs : List Block) :
    macUnwind k t (x :: xs) = decrypt k (macUnwind k t xs) ^^^ x := rfl

theorem macUnwind_append (k : Key) (t : Block) (xs ys : List Block) :
    macUnwind k t (xs ++ ys) = macUnwind k (macUnwind k t ys) xs := by
  simp [macUnwind]

/-- The walk from a claimed tag ends in `acc` exactly when absorbing the blocks into `acc` gives the claimed tag. -/
theorem macUnwind_eq_iff {k : Key} (hd : ∀ x, decrypt k (encrypt k x) = x) (he : ∀ y, encrypt k (decrypt k y) = y)
    (t acc : Block) (xs : List Block) : macUnwind k t xs = acc ↔ t = macAbsorb k acc xs := by
  induction xs generalizing acc with
  | nil => rfl
  | cons x xs ih =>
    rw [macAbsorb_cons, ← ih, macUnwind_cons]
    constructor
    · rintro rfl
      simp [he]
    · intro h
      rw [h, hd, BitVec.xor_assoc, BitVec.xor_self, BitVec.xor_zero]

/-- The tag of nonempty data is the last block of their CBC encryption. -/
theorem macAbsorb_eq_getLast (k : Key) (p : Block) (xs : List Block) (h : xs ≠ []) :
    macAbsorb k p xs = (cbcEncrypt k p xs).getLast (by cases xs with
      | nil => exact absurd rfl h
      | cons x xs => simp [cbcEncrypt]) := by
  induction xs generalizing p with
  | nil => exact absurd rfl h
  | cons x xs ih =>
    cases xs with
    | nil => simp [cbcEncrypt, BitVec.xor_comm]
    | cons y ys =>
      rw [macAbsorb_cons, ih _ (by simp)]
      simp [cbcEncrypt, BitVec.xor_comm]

/-! ### CTR -/

theorem advance_add (k : Key) (m n : Nat) (c : CtrContext) :
    CtrContext.advance k (m + n) c = CtrContext.advance k n (CtrContext.advance k m c) := by
  induction m generalizing c with
  | zero => simp [CtrContext.advance]
  | succ m ih => rw [Nat.succ_add]; exact ih _

@[simp] theorem length_xorBytes (k : Key) (c : CtrContext) (bs : List Byte) :
    (CtrContext.xorBytes k c bs).length = bs.length := by
  induction bs generalizing c with
  | nil => rfl
  | cons b bs ih => simp [CtrContext.xorBytes, ih]

theorem getElem_xorBytes (k : Key) (c : CtrContext) (bs : List Byte) (i : Nat) (h : i < bs.length) :
    (CtrContext.xorBytes k c bs)[i]'(by simpa using h)
      = bs[i] ^^^ ((CtrContext.advance k i c).refill k).byte := by
  induction bs generalizing c i with
  | nil => simp at h
  | cons b bs ih =>
    cases i with
    | zero => rfl
    | succ i => simpa [CtrContext.xorBytes, CtrContext.advance] using ih _ i (by simpa using h)

theorem refill_unused_pos (k : Key) (c : CtrContext) : 0 < (c.refill k).unused := by
  unfold CtrContext.refill
  split_ifs with h
  · exact Nat.succ_pos _
  · exact Nat.pos_of_ne_zero h

theorem advance_unused_le (k : Key) (n : Nat) {c : CtrContext} (h : c.unused ≤ 16) :
    (CtrContext.advance k n c).unused ≤ 16 := by
  induction n generalizing c with
  | zero => exact h
  | succ n ih =>
    apply ih
    unfold CtrContext.consume CtrContext.refill
    split_ifs <;> (simp_all; try omega)

/-! ### What the bodies write -/

/-- A zero block and then `xs`, written from `a` on. -/
theorem read_zero_and_blocks (m : Memory) {a x : Nat} (xs : List Block) (h : x < a ∨ a + (16 + 16 * xs.length) ≤ x) :
    Memory.read (Memory.writeBlocks (Memory.writeBlock m a 0#128) (a + 16) xs) x = Memory.read m x := by
  rw [read_writeBlocks_outside _ _ (by omega), read_writeBlock, if_neg (by omega)]

theorem readBlock_zero_and_blocks (m : Memory) (a : Nat) (xs : List Block) :
    Memory.readBlock (Memory.writeBlocks (Memory.writeBlock m a 0#128) (a + 16) xs) a = 0#128 := by
  rw [readBlock_congr (m := Memory.writeBlock m a 0#128), readBlock_writeBlock]
  intro i hi
  exact read_writeBlocks_outside _ _ (by omega)

theorem sameOutside_writeBlock (m : Memory) (a : Nat) (b : Block) :
    Memory.SameOutside m (Memory.writeBlock m a b) a 16 := by
  intro x hx
  rw [read_writeBlock, if_neg (by omega)]

theorem sameOutside_writeBytes (m : Memory) (a : Nat) (bs : List Byte) :
    Memory.SameOutside m (Memory.writeBytes m a bs) a bs.length := by
  intro x hx
  rw [read_writeBytes, if_neg (by omega)]

theorem sameOutside_writeLe (m : Memory) (a n v : Nat) :
    Memory.SameOutside m (Memory.writeLe m a n v) a n := by
  intro x hx
  rw [read_writeLe, if_neg (by omega)]

theorem sameOutside_cbcEncBody (s : State) (a l : Nat) :
    Memory.SameOutside s.buf (s.cbcEncBody a l).buf a (16 + l) := by
  intro x hx
  exact read_zero_and_blocks _ _ (by simp; omega)

theorem sameOutside_cbcDecBody (s : State) (a l : Nat) :
    Memory.SameOutside s.buf (s.cbcDecBody a l).buf a (16 + l) := by
  intro x hx
  exact read_zero_and_blocks _ _ (by simp; omega)

theorem readBlock_cbcEncBody (s : State) (a l j : Nat) (h : j < l / 16) :
    Memory.readBlock (s.cbcEncBody a l).buf (a + 16 * (j + 1))
      = (cbcEncrypt s.key 0#128 (Memory.readBlocks s.buf (a + 16) (l / 16)))[j]'(by simpa using h) := by
  have e : a + 16 * (j + 1) = a + 16 + 16 * j := by omega
  rw [e]
  have hb : (s.cbcEncBody a l).buf = Memory.writeBlocks (Memory.writeBlock s.buf a 0#128) (a + 16)
      (cbcEncrypt s.key 0#128 (Memory.readBlocks s.buf (a + 16) (l / 16))) := rfl
  rw [hb, readBlock_writeBlocks _ _ _ _ (by simpa using h)]

theorem readBlock_cbcDecBody (s : State) (a l j : Nat) (h : j < l / 16) :
    Memory.readBlock (s.cbcDecBody a l).buf (a + 16 * (j + 1))
      = (cbcDecrypt s.key 0#128 (Memory.readBlocks s.buf (a + 16) (l / 16)))[j]'(by simpa using h) := by
  have e : a + 16 * (j + 1) = a + 16 + 16 * j := by omega
  rw [e]
  have hb : (s.cbcDecBody a l).buf = Memory.writeBlocks (Memory.writeBlock s.buf a 0#128) (a + 16)
      (cbcDecrypt s.key 0#128 (Memory.readBlocks s.buf (a + 16) (l / 16))) := rfl
  rw [hb, readBlock_writeBlocks _ _ _ _ (by simpa using h)]

/-- The tag slot after a verifier's walk holds the residual, whether or not a step ran. -/
theorem readBlock_macVerifyStep (s : State) (a l : Nat) :
    Memory.readBlock (s.macVerifyStep a l).buf (a + l) = s.macResidual a l := by
  unfold State.macVerifyStep
  split_ifs with h
  · unfold State.macResidual; rw [h]; rfl
  · simp only [readBlock_writeBlock]

theorem sameOutside_macVerifyStep (s : State) (a l : Nat) :
    Memory.SameOutside s.buf (s.macVerifyStep a l).buf (a + l) 16 := by
  intro x hx
  unfold State.macVerifyStep
  split_ifs
  · rfl
  · simp only [sameOutside_writeBlock s.buf (a + l) (s.macResidual a l) x hx]

end Sys2Proof.Machine
end

