-- ==== Sys2Proof/Laws/State.lean ====
section
/-! SUPPORT. What each update of State leaves in each field: one lemma per field per update. -/

namespace Sys2Proof.Machine

/-! ### `State.issue` -/

@[simp] theorem issue_params (s : State) (cmd : Word) : (s.issue cmd).params = s.params := rfl
@[simp] theorem issue_arg0 (s : State) (cmd : Word) : (s.issue cmd).arg0 = s.arg0 := rfl
@[simp] theorem issue_arg1 (s : State) (cmd : Word) : (s.issue cmd).arg1 = s.arg1 := rfl
@[simp] theorem issue_msglen (s : State) (cmd : Word) : (s.issue cmd).msglen = s.msglen := rfl
@[simp] theorem issue_err (s : State) (cmd : Word) : (s.issue cmd).err = none := rfl
@[simp] theorem issue_mismatch (s : State) (cmd : Word) : (s.issue cmd).mismatch = false := rfl
@[simp] theorem issue_verdict (s : State) (cmd : Word) : (s.issue cmd).verdict = false := rfl
@[simp] theorem issue_exited (s : State) (cmd : Word) : (s.issue cmd).exited = s.exited := rfl
@[simp] theorem issue_coll (s : State) (cmd : Word) : (s.issue cmd).coll = false := rfl
@[simp] theorem issue_kind (s : State) (cmd : Word) : (s.issue cmd).kind = .none := rfl
@[simp] theorem issue_action (s : State) (cmd : Word) : (s.issue cmd).action = .none := rfl
@[simp] theorem issue_order (s : State) (cmd : Word) : (s.issue cmd).order = .equal := rfl
@[simp] theorem issue_rdaddr (s : State) (cmd : Word) : (s.issue cmd).rdaddr = s.rdaddr := rfl
@[simp] theorem issue_pgaddr (s : State) (cmd : Word) : (s.issue cmd).pgaddr = s.pgaddr := rfl
@[simp] theorem issue_buf (s : State) (cmd : Word) : (s.issue cmd).buf = s.buf := rfl
@[simp] theorem issue_key (s : State) (cmd : Word) : (s.issue cmd).key = s.key := rfl
@[simp] theorem issue_acc (s : State) (cmd : Word) : (s.issue cmd).acc = s.acc := rfl
@[simp] theorem issue_ctr (s : State) (cmd : Word) : (s.issue cmd).ctr = s.ctr := rfl
@[simp] theorem issue_ks (s : State) (cmd : Word) : (s.issue cmd).ks = s.ks := rfl
@[simp] theorem issue_unused (s : State) (cmd : Word) : (s.issue cmd).unused = s.unused := rfl
@[simp] theorem issue_latch (s : State) (cmd : Word) : (s.issue cmd).latch = some { cmd := cmd, arg0 := s.arg0, arg1 := s.arg1, msglen := s.msglen } := rfl
@[simp] theorem issue_wait (s : State) (cmd : Word) : (s.issue cmd).wait = Config.latency s.draws cmd s.arg1 s.msglen := rfl
@[simp] theorem issue_draws (s : State) (cmd : Word) : (s.issue cmd).draws = s.draws + 1 := rfl
@[simp] theorem issue_bus (s : State) (cmd : Word) : (s.issue cmd).bus = s.bus := rfl
@[simp] theorem issue_responses (s : State) (cmd : Word) : (s.issue cmd).responses = s.responses := rfl
@[simp] theorem issue_duties (s : State) (cmd : Word) : (s.issue cmd).duties = s.duties := rfl

/-! ### `State.complete` -/

@[simp] theorem complete_params (s : State) : s.complete.params = s.params := rfl
@[simp] theorem complete_arg0 (s : State) : s.complete.arg0 = s.arg0 := rfl
@[simp] theorem complete_arg1 (s : State) : s.complete.arg1 = s.arg1 := rfl
@[simp] theorem complete_msglen (s : State) : s.complete.msglen = s.msglen := rfl
@[simp] theorem complete_err (s : State) : s.complete.err = s.err := rfl
@[simp] theorem complete_mismatch (s : State) : s.complete.mismatch = s.mismatch := rfl
@[simp] theorem complete_verdict (s : State) : s.complete.verdict = s.verdict := rfl
@[simp] theorem complete_exited (s : State) : s.complete.exited = s.exited := rfl
@[simp] theorem complete_coll (s : State) : s.complete.coll = s.coll := rfl
@[simp] theorem complete_kind (s : State) : s.complete.kind = s.kind := rfl
@[simp] theorem complete_action (s : State) : s.complete.action = s.action := rfl
@[simp] theorem complete_order (s : State) : s.complete.order = s.order := rfl
@[simp] theorem complete_rdaddr (s : State) : s.complete.rdaddr = s.rdaddr := rfl
@[simp] theorem complete_pgaddr (s : State) : s.complete.pgaddr = s.pgaddr := rfl
@[simp] theorem complete_buf (s : State) : s.complete.buf = s.buf := rfl
@[simp] theorem complete_key (s : State) : s.complete.key = s.key := rfl
@[simp] theorem complete_acc (s : State) : s.complete.acc = s.acc := rfl
@[simp] theorem complete_ctr (s : State) : s.complete.ctr = s.ctr := rfl
@[simp] theorem complete_ks (s : State) : s.complete.ks = s.ks := rfl
@[simp] theorem complete_unused (s : State) : s.complete.unused = s.unused := rfl
@[simp] theorem complete_latch (s : State) : s.complete.latch = none := rfl
@[simp] theorem complete_wait (s : State) : s.complete.wait = 0 := rfl
@[simp] theorem complete_draws (s : State) : s.complete.draws = s.draws := rfl
@[simp] theorem complete_bus (s : State) : s.complete.bus = s.bus := rfl
@[simp] theorem complete_responses (s : State) : s.complete.responses = s.responses := rfl
@[simp] theorem complete_duties (s : State) : s.complete.duties = s.duties := rfl

/-! ### `State.raiseError` -/

@[simp] theorem raiseError_params (s : State) (e : ErrCode) : (s.raiseError e).params = s.params := rfl
@[simp] theorem raiseError_arg0 (s : State) (e : ErrCode) : (s.raiseError e).arg0 = s.arg0 := rfl
@[simp] theorem raiseError_arg1 (s : State) (e : ErrCode) : (s.raiseError e).arg1 = s.arg1 := rfl
@[simp] theorem raiseError_msglen (s : State) (e : ErrCode) : (s.raiseError e).msglen = s.msglen := rfl
@[simp] theorem raiseError_err (s : State) (e : ErrCode) : (s.raiseError e).err = some e := rfl
@[simp] theorem raiseError_mismatch (s : State) (e : ErrCode) : (s.raiseError e).mismatch = s.mismatch := rfl
@[simp] theorem raiseError_verdict (s : State) (e : ErrCode) : (s.raiseError e).verdict = s.verdict := rfl
@[simp] theorem raiseError_exited (s : State) (e : ErrCode) : (s.raiseError e).exited = s.exited := rfl
@[simp] theorem raiseError_coll (s : State) (e : ErrCode) : (s.raiseError e).coll = s.coll := rfl
@[simp] theorem raiseError_kind (s : State) (e : ErrCode) : (s.raiseError e).kind = s.kind := rfl
@[simp] theorem raiseError_action (s : State) (e : ErrCode) : (s.raiseError e).action = s.action := rfl
@[simp] theorem raiseError_order (s : State) (e : ErrCode) : (s.raiseError e).order = s.order := rfl
@[simp] theorem raiseError_rdaddr (s : State) (e : ErrCode) : (s.raiseError e).rdaddr = s.rdaddr := rfl
@[simp] theorem raiseError_pgaddr (s : State) (e : ErrCode) : (s.raiseError e).pgaddr = s.pgaddr := rfl
@[simp] theorem raiseError_buf (s : State) (e : ErrCode) : (s.raiseError e).buf = s.buf := rfl
@[simp] theorem raiseError_key (s : State) (e : ErrCode) : (s.raiseError e).key = s.key := rfl
@[simp] theorem raiseError_acc (s : State) (e : ErrCode) : (s.raiseError e).acc = s.acc := rfl
@[simp] theorem raiseError_ctr (s : State) (e : ErrCode) : (s.raiseError e).ctr = s.ctr := rfl
@[simp] theorem raiseError_ks (s : State) (e : ErrCode) : (s.raiseError e).ks = s.ks := rfl
@[simp] theorem raiseError_unused (s : State) (e : ErrCode) : (s.raiseError e).unused = s.unused := rfl
@[simp] theorem raiseError_latch (s : State) (e : ErrCode) : (s.raiseError e).latch = none := rfl
@[simp] theorem raiseError_wait (s : State) (e : ErrCode) : (s.raiseError e).wait = 0 := rfl
@[simp] theorem raiseError_draws (s : State) (e : ErrCode) : (s.raiseError e).draws = s.draws := rfl
@[simp] theorem raiseError_bus (s : State) (e : ErrCode) : (s.raiseError e).bus = s.bus := rfl
@[simp] theorem raiseError_responses (s : State) (e : ErrCode) : (s.raiseError e).responses = s.responses := rfl
@[simp] theorem raiseError_duties (s : State) (e : ErrCode) : (s.raiseError e).duties = s.duties := rfl

/-! ### `State.raiseVerifyError` -/

@[simp] theorem raiseVerifyError_params (s : State) (e : ErrCode) : (s.raiseVerifyError e).params = s.params := rfl
@[simp] theorem raiseVerifyError_arg0 (s : State) (e : ErrCode) : (s.raiseVerifyError e).arg0 = s.arg0 := rfl
@[simp] theorem raiseVerifyError_arg1 (s : State) (e : ErrCode) : (s.raiseVerifyError e).arg1 = s.arg1 := rfl
@[simp] theorem raiseVerifyError_msglen (s : State) (e : ErrCode) : (s.raiseVerifyError e).msglen = s.msglen := rfl
@[simp] theorem raiseVerifyError_err (s : State) (e : ErrCode) : (s.raiseVerifyError e).err = some e := rfl
@[simp] theorem raiseVerifyError_mismatch (s : State) (e : ErrCode) : (s.raiseVerifyError e).mismatch = true := rfl
@[simp] theorem raiseVerifyError_verdict (s : State) (e : ErrCode) : (s.raiseVerifyError e).verdict = s.verdict := rfl
@[simp] theorem raiseVerifyError_exited (s : State) (e : ErrCode) : (s.raiseVerifyError e).exited = s.exited := rfl
@[simp] theorem raiseVerifyError_coll (s : State) (e : ErrCode) : (s.raiseVerifyError e).coll = s.coll := rfl
@[simp] theorem raiseVerifyError_kind (s : State) (e : ErrCode) : (s.raiseVerifyError e).kind = s.kind := rfl
@[simp] theorem raiseVerifyError_action (s : State) (e : ErrCode) : (s.raiseVerifyError e).action = s.action := rfl
@[simp] theorem raiseVerifyError_order (s : State) (e : ErrCode) : (s.raiseVerifyError e).order = s.order := rfl
@[simp] theorem raiseVerifyError_rdaddr (s : State) (e : ErrCode) : (s.raiseVerifyError e).rdaddr = s.rdaddr := rfl
@[simp] theorem raiseVerifyError_pgaddr (s : State) (e : ErrCode) : (s.raiseVerifyError e).pgaddr = s.pgaddr := rfl
@[simp] theorem raiseVerifyError_buf (s : State) (e : ErrCode) : (s.raiseVerifyError e).buf = s.buf := rfl
@[simp] theorem raiseVerifyError_key (s : State) (e : ErrCode) : (s.raiseVerifyError e).key = s.key := rfl
@[simp] theorem raiseVerifyError_acc (s : State) (e : ErrCode) : (s.raiseVerifyError e).acc = s.acc := rfl
@[simp] theorem raiseVerifyError_ctr (s : State) (e : ErrCode) : (s.raiseVerifyError e).ctr = s.ctr := rfl
@[simp] theorem raiseVerifyError_ks (s : State) (e : ErrCode) : (s.raiseVerifyError e).ks = s.ks := rfl
@[simp] theorem raiseVerifyError_unused (s : State) (e : ErrCode) : (s.raiseVerifyError e).unused = s.unused := rfl
@[simp] theorem raiseVerifyError_latch (s : State) (e : ErrCode) : (s.raiseVerifyError e).latch = none := rfl
@[simp] theorem raiseVerifyError_wait (s : State) (e : ErrCode) : (s.raiseVerifyError e).wait = 0 := rfl
@[simp] theorem raiseVerifyError_draws (s : State) (e : ErrCode) : (s.raiseVerifyError e).draws = s.draws := rfl
@[simp] theorem raiseVerifyError_bus (s : State) (e : ErrCode) : (s.raiseVerifyError e).bus = s.bus := rfl
@[simp] theorem raiseVerifyError_responses (s : State) (e : ErrCode) : (s.raiseVerifyError e).responses = s.responses := rfl
@[simp] theorem raiseVerifyError_duties (s : State) (e : ErrCode) : (s.raiseVerifyError e).duties = s.duties := rfl

/-! ### `State.performIllegal` -/

@[simp] theorem performIllegal_params (s : State) : s.performIllegal.params = s.params := rfl
@[simp] theorem performIllegal_arg0 (s : State) : s.performIllegal.arg0 = s.arg0 := rfl
@[simp] theorem performIllegal_arg1 (s : State) : s.performIllegal.arg1 = s.arg1 := rfl
@[simp] theorem performIllegal_msglen (s : State) : s.performIllegal.msglen = s.msglen := rfl
@[simp] theorem performIllegal_err (s : State) : s.performIllegal.err = some .illegal := rfl
@[simp] theorem performIllegal_mismatch (s : State) : s.performIllegal.mismatch = s.mismatch := rfl
@[simp] theorem performIllegal_verdict (s : State) : s.performIllegal.verdict = s.verdict := rfl
@[simp] theorem performIllegal_exited (s : State) : s.performIllegal.exited = s.exited := rfl
@[simp] theorem performIllegal_coll (s : State) : s.performIllegal.coll = s.coll := rfl
@[simp] theorem performIllegal_kind (s : State) : s.performIllegal.kind = s.kind := rfl
@[simp] theorem performIllegal_action (s : State) : s.performIllegal.action = s.action := rfl
@[simp] theorem performIllegal_order (s : State) : s.performIllegal.order = s.order := rfl
@[simp] theorem performIllegal_rdaddr (s : State) : s.performIllegal.rdaddr = s.rdaddr := rfl
@[simp] theorem performIllegal_pgaddr (s : State) : s.performIllegal.pgaddr = s.pgaddr := rfl
@[simp] theorem performIllegal_buf (s : State) : s.performIllegal.buf = s.buf := rfl
@[simp] theorem performIllegal_key (s : State) : s.performIllegal.key = s.key := rfl
@[simp] theorem performIllegal_acc (s : State) : s.performIllegal.acc = s.acc := rfl
@[simp] theorem performIllegal_ctr (s : State) : s.performIllegal.ctr = s.ctr := rfl
@[simp] theorem performIllegal_ks (s : State) : s.performIllegal.ks = s.ks := rfl
@[simp] theorem performIllegal_unused (s : State) : s.performIllegal.unused = s.unused := rfl
@[simp] theorem performIllegal_latch (s : State) : s.performIllegal.latch = none := rfl
@[simp] theorem performIllegal_wait (s : State) : s.performIllegal.wait = 0 := rfl
@[simp] theorem performIllegal_draws (s : State) : s.performIllegal.draws = s.draws := rfl
@[simp] theorem performIllegal_bus (s : State) : s.performIllegal.bus = s.bus := rfl
@[simp] theorem performIllegal_responses (s : State) : s.performIllegal.responses = s.responses := rfl
@[simp] theorem performIllegal_duties (s : State) : s.performIllegal.duties = s.duties := rfl

/-! ### `State.accept` -/

@[simp] theorem accept_params (s : State) (x : Action) : (s.accept x).params = s.params := rfl
@[simp] theorem accept_arg0 (s : State) (x : Action) : (s.accept x).arg0 = s.arg0 := rfl
@[simp] theorem accept_arg1 (s : State) (x : Action) : (s.accept x).arg1 = s.arg1 := rfl
@[simp] theorem accept_msglen (s : State) (x : Action) : (s.accept x).msglen = s.msglen := rfl
@[simp] theorem accept_err (s : State) (x : Action) : (s.accept x).err = s.err := rfl
@[simp] theorem accept_mismatch (s : State) (x : Action) : (s.accept x).mismatch = s.mismatch := rfl
@[simp] theorem accept_verdict (s : State) (x : Action) : (s.accept x).verdict = true := rfl
@[simp] theorem accept_exited (s : State) (x : Action) : (s.accept x).exited = s.exited := rfl
@[simp] theorem accept_coll (s : State) (x : Action) : (s.accept x).coll = s.coll := rfl
@[simp] theorem accept_kind (s : State) (x : Action) : (s.accept x).kind = s.kind := rfl
@[simp] theorem accept_action (s : State) (x : Action) : (s.accept x).action = x := rfl
@[simp] theorem accept_order (s : State) (x : Action) : (s.accept x).order = s.order := rfl
@[simp] theorem accept_rdaddr (s : State) (x : Action) : (s.accept x).rdaddr = s.rdaddr := rfl
@[simp] theorem accept_pgaddr (s : State) (x : Action) : (s.accept x).pgaddr = s.pgaddr := rfl
@[simp] theorem accept_buf (s : State) (x : Action) : (s.accept x).buf = s.buf := rfl
@[simp] theorem accept_key (s : State) (x : Action) : (s.accept x).key = s.key := rfl
@[simp] theorem accept_acc (s : State) (x : Action) : (s.accept x).acc = s.acc := rfl
@[simp] theorem accept_ctr (s : State) (x : Action) : (s.accept x).ctr = s.ctr := rfl
@[simp] theorem accept_ks (s : State) (x : Action) : (s.accept x).ks = s.ks := rfl
@[simp] theorem accept_unused (s : State) (x : Action) : (s.accept x).unused = s.unused := rfl
@[simp] theorem accept_latch (s : State) (x : Action) : (s.accept x).latch = s.latch := rfl
@[simp] theorem accept_wait (s : State) (x : Action) : (s.accept x).wait = s.wait := rfl
@[simp] theorem accept_draws (s : State) (x : Action) : (s.accept x).draws = s.draws := rfl
@[simp] theorem accept_bus (s : State) (x : Action) : (s.accept x).bus = s.bus := rfl
@[simp] theorem accept_responses (s : State) (x : Action) : (s.accept x).responses = s.responses := rfl
@[simp] theorem accept_duties (s : State) (x : Action) : (s.accept x).duties = s.duties := rfl

/-! ### `State.exit` -/

@[simp] theorem exit_params (s : State) : s.exit.params = s.params := rfl
@[simp] theorem exit_arg0 (s : State) : s.exit.arg0 = s.arg0 := rfl
@[simp] theorem exit_arg1 (s : State) : s.exit.arg1 = s.arg1 := rfl
@[simp] theorem exit_msglen (s : State) : s.exit.msglen = s.msglen := rfl
@[simp] theorem exit_err (s : State) : s.exit.err = s.err := rfl
@[simp] theorem exit_mismatch (s : State) : s.exit.mismatch = s.mismatch := rfl
@[simp] theorem exit_verdict (s : State) : s.exit.verdict = s.verdict := rfl
@[simp] theorem exit_exited (s : State) : s.exit.exited = true := rfl
@[simp] theorem exit_coll (s : State) : s.exit.coll = s.coll := rfl
@[simp] theorem exit_kind (s : State) : s.exit.kind = s.kind := rfl
@[simp] theorem exit_action (s : State) : s.exit.action = s.action := rfl
@[simp] theorem exit_order (s : State) : s.exit.order = s.order := rfl
@[simp] theorem exit_rdaddr (s : State) : s.exit.rdaddr = s.rdaddr := rfl
@[simp] theorem exit_pgaddr (s : State) : s.exit.pgaddr = s.pgaddr := rfl
@[simp] theorem exit_buf (s : State) : s.exit.buf = s.buf := rfl
@[simp] theorem exit_key (s : State) : s.exit.key = s.key := rfl
@[simp] theorem exit_acc (s : State) : s.exit.acc = s.acc := rfl
@[simp] theorem exit_ctr (s : State) : s.exit.ctr = s.ctr := rfl
@[simp] theorem exit_ks (s : State) : s.exit.ks = s.ks := rfl
@[simp] theorem exit_unused (s : State) : s.exit.unused = s.unused := rfl
@[simp] theorem exit_latch (s : State) : s.exit.latch = s.latch := rfl
@[simp] theorem exit_wait (s : State) : s.exit.wait = s.wait := rfl
@[simp] theorem exit_draws (s : State) : s.exit.draws = s.draws := rfl
@[simp] theorem exit_bus (s : State) : s.exit.bus = s.bus := rfl
@[simp] theorem exit_responses (s : State) : s.exit.responses = s.responses := rfl
@[simp] theorem exit_duties (s : State) : s.exit.duties = s.duties := rfl

/-! ### `State.encoded` -/

@[simp] theorem encoded_params (s : State) (n : Nat) (k : Kind) : (s.encoded n k).params = s.params := rfl
@[simp] theorem encoded_arg0 (s : State) (n : Nat) (k : Kind) : (s.encoded n k).arg0 = s.arg0 := rfl
@[simp] theorem encoded_arg1 (s : State) (n : Nat) (k : Kind) : (s.encoded n k).arg1 = s.arg1 := rfl
@[simp] theorem encoded_msglen (s : State) (n : Nat) (k : Kind) : (s.encoded n k).msglen = BitVec.ofNat 16 n := rfl
@[simp] theorem encoded_err (s : State) (n : Nat) (k : Kind) : (s.encoded n k).err = s.err := rfl
@[simp] theorem encoded_mismatch (s : State) (n : Nat) (k : Kind) : (s.encoded n k).mismatch = s.mismatch := rfl
@[simp] theorem encoded_verdict (s : State) (n : Nat) (k : Kind) : (s.encoded n k).verdict = s.verdict := rfl
@[simp] theorem encoded_exited (s : State) (n : Nat) (k : Kind) : (s.encoded n k).exited = s.exited := rfl
@[simp] theorem encoded_coll (s : State) (n : Nat) (k : Kind) : (s.encoded n k).coll = s.coll := rfl
@[simp] theorem encoded_kind (s : State) (n : Nat) (k : Kind) : (s.encoded n k).kind = k := rfl
@[simp] theorem encoded_action (s : State) (n : Nat) (k : Kind) : (s.encoded n k).action = s.action := rfl
@[simp] theorem encoded_order (s : State) (n : Nat) (k : Kind) : (s.encoded n k).order = s.order := rfl
@[simp] theorem encoded_rdaddr (s : State) (n : Nat) (k : Kind) : (s.encoded n k).rdaddr = s.rdaddr := rfl
@[simp] theorem encoded_pgaddr (s : State) (n : Nat) (k : Kind) : (s.encoded n k).pgaddr = s.pgaddr := rfl
@[simp] theorem encoded_buf (s : State) (n : Nat) (k : Kind) : (s.encoded n k).buf = s.buf := rfl
@[simp] theorem encoded_key (s : State) (n : Nat) (k : Kind) : (s.encoded n k).key = s.key := rfl
@[simp] theorem encoded_acc (s : State) (n : Nat) (k : Kind) : (s.encoded n k).acc = s.acc := rfl
@[simp] theorem encoded_ctr (s : State) (n : Nat) (k : Kind) : (s.encoded n k).ctr = s.ctr := rfl
@[simp] theorem encoded_ks (s : State) (n : Nat) (k : Kind) : (s.encoded n k).ks = s.ks := rfl
@[simp] theorem encoded_unused (s : State) (n : Nat) (k : Kind) : (s.encoded n k).unused = s.unused := rfl
@[simp] theorem encoded_latch (s : State) (n : Nat) (k : Kind) : (s.encoded n k).latch = s.latch := rfl
@[simp] theorem encoded_wait (s : State) (n : Nat) (k : Kind) : (s.encoded n k).wait = s.wait := rfl
@[simp] theorem encoded_draws (s : State) (n : Nat) (k : Kind) : (s.encoded n k).draws = s.draws := rfl
@[simp] theorem encoded_bus (s : State) (n : Nat) (k : Kind) : (s.encoded n k).bus = s.bus := rfl
@[simp] theorem encoded_responses (s : State) (n : Nat) (k : Kind) : (s.encoded n k).responses = s.responses := rfl
@[simp] theorem encoded_duties (s : State) (n : Nat) (k : Kind) : (s.encoded n k).duties = s.duties := rfl

/-! ### `State.appendTag` -/

@[simp] theorem appendTag_params (s : State) (a : Nat) (x : Block) : (s.appendTag a x).params = s.params := by unfold State.appendTag; rfl
@[simp] theorem appendTag_arg0 (s : State) (a : Nat) (x : Block) : (s.appendTag a x).arg0 = s.arg0 := by unfold State.appendTag; rfl
@[simp] theorem appendTag_arg1 (s : State) (a : Nat) (x : Block) : (s.appendTag a x).arg1 = s.arg1 := by unfold State.appendTag; rfl
@[simp] theorem appendTag_msglen (s : State) (a : Nat) (x : Block) : (s.appendTag a x).msglen = s.msglen := by unfold State.appendTag; rfl
@[simp] theorem appendTag_err (s : State) (a : Nat) (x : Block) : (s.appendTag a x).err = s.err := by unfold State.appendTag; rfl
@[simp] theorem appendTag_mismatch (s : State) (a : Nat) (x : Block) : (s.appendTag a x).mismatch = s.mismatch := by unfold State.appendTag; rfl
@[simp] theorem appendTag_verdict (s : State) (a : Nat) (x : Block) : (s.appendTag a x).verdict = s.verdict := by unfold State.appendTag; rfl
@[simp] theorem appendTag_exited (s : State) (a : Nat) (x : Block) : (s.appendTag a x).exited = s.exited := by unfold State.appendTag; rfl
@[simp] theorem appendTag_coll (s : State) (a : Nat) (x : Block) : (s.appendTag a x).coll = s.coll := by unfold State.appendTag; rfl
@[simp] theorem appendTag_kind (s : State) (a : Nat) (x : Block) : (s.appendTag a x).kind = s.kind := by unfold State.appendTag; rfl
@[simp] theorem appendTag_action (s : State) (a : Nat) (x : Block) : (s.appendTag a x).action = s.action := by unfold State.appendTag; rfl
@[simp] theorem appendTag_order (s : State) (a : Nat) (x : Block) : (s.appendTag a x).order = s.order := by unfold State.appendTag; rfl
@[simp] theorem appendTag_rdaddr (s : State) (a : Nat) (x : Block) : (s.appendTag a x).rdaddr = s.rdaddr := by unfold State.appendTag; rfl
@[simp] theorem appendTag_pgaddr (s : State) (a : Nat) (x : Block) : (s.appendTag a x).pgaddr = s.pgaddr := by unfold State.appendTag; rfl
@[simp] theorem appendTag_buf (s : State) (a : Nat) (x : Block) : (s.appendTag a x).buf = Memory.writeBlock s.buf a x := by unfold State.appendTag; rfl
@[simp] theorem appendTag_key (s : State) (a : Nat) (x : Block) : (s.appendTag a x).key = s.key := by unfold State.appendTag; rfl
@[simp] theorem appendTag_acc (s : State) (a : Nat) (x : Block) : (s.appendTag a x).acc = x := by unfold State.appendTag; rfl
@[simp] theorem appendTag_ctr (s : State) (a : Nat) (x : Block) : (s.appendTag a x).ctr = s.ctr := by unfold State.appendTag; rfl
@[simp] theorem appendTag_ks (s : State) (a : Nat) (x : Block) : (s.appendTag a x).ks = s.ks := by unfold State.appendTag; rfl
@[simp] theorem appendTag_unused (s : State) (a : Nat) (x : Block) : (s.appendTag a x).unused = s.unused := by unfold State.appendTag; rfl
@[simp] theorem appendTag_latch (s : State) (a : Nat) (x : Block) : (s.appendTag a x).latch = s.latch := by unfold State.appendTag; rfl
@[simp] theorem appendTag_wait (s : State) (a : Nat) (x : Block) : (s.appendTag a x).wait = s.wait := by unfold State.appendTag; rfl
@[simp] theorem appendTag_draws (s : State) (a : Nat) (x : Block) : (s.appendTag a x).draws = s.draws := by unfold State.appendTag; rfl
@[simp] theorem appendTag_bus (s : State) (a : Nat) (x : Block) : (s.appendTag a x).bus = s.bus := by unfold State.appendTag; rfl
@[simp] theorem appendTag_responses (s : State) (a : Nat) (x : Block) : (s.appendTag a x).responses = s.responses := by unfold State.appendTag; rfl
@[simp] theorem appendTag_duties (s : State) (a : Nat) (x : Block) : (s.appendTag a x).duties = s.duties := by unfold State.appendTag; rfl

/-! ### `State.placeAddressBlock` -/

@[simp] theorem placeAddressBlock_params (s : State) : s.placeAddressBlock.params = s.params := by unfold State.placeAddressBlock; rfl
@[simp] theorem placeAddressBlock_arg0 (s : State) : s.placeAddressBlock.arg0 = s.arg0 := by unfold State.placeAddressBlock; rfl
@[simp] theorem placeAddressBlock_arg1 (s : State) : s.placeAddressBlock.arg1 = s.arg1 := by unfold State.placeAddressBlock; rfl
@[simp] theorem placeAddressBlock_msglen (s : State) : s.placeAddressBlock.msglen = s.msglen := by unfold State.placeAddressBlock; rfl
@[simp] theorem placeAddressBlock_err (s : State) : s.placeAddressBlock.err = s.err := by unfold State.placeAddressBlock; rfl
@[simp] theorem placeAddressBlock_mismatch (s : State) : s.placeAddressBlock.mismatch = s.mismatch := by unfold State.placeAddressBlock; rfl
@[simp] theorem placeAddressBlock_verdict (s : State) : s.placeAddressBlock.verdict = s.verdict := by unfold State.placeAddressBlock; rfl
@[simp] theorem placeAddressBlock_exited (s : State) : s.placeAddressBlock.exited = s.exited := by unfold State.placeAddressBlock; rfl
@[simp] theorem placeAddressBlock_coll (s : State) : s.placeAddressBlock.coll = s.coll := by unfold State.placeAddressBlock; rfl
@[simp] theorem placeAddressBlock_kind (s : State) : s.placeAddressBlock.kind = s.kind := by unfold State.placeAddressBlock; rfl
@[simp] theorem placeAddressBlock_action (s : State) : s.placeAddressBlock.action = s.action := by unfold State.placeAddressBlock; rfl
@[simp] theorem placeAddressBlock_order (s : State) : s.placeAddressBlock.order = s.order := by unfold State.placeAddressBlock; rfl
@[simp] theorem placeAddressBlock_rdaddr (s : State) : s.placeAddressBlock.rdaddr = s.rdaddr := by unfold State.placeAddressBlock; rfl
@[simp] theorem placeAddressBlock_pgaddr (s : State) : s.placeAddressBlock.pgaddr = s.pgaddr := by unfold State.placeAddressBlock; rfl
@[simp] theorem placeAddressBlock_buf (s : State) : s.placeAddressBlock.buf = Memory.writeBytes s.buf 16 (addressBlock s.opW) := by unfold State.placeAddressBlock; rfl
@[simp] theorem placeAddressBlock_key (s : State) : s.placeAddressBlock.key = s.key := by unfold State.placeAddressBlock; rfl
@[simp] theorem placeAddressBlock_acc (s : State) : s.placeAddressBlock.acc = s.acc := by unfold State.placeAddressBlock; rfl
@[simp] theorem placeAddressBlock_ctr (s : State) : s.placeAddressBlock.ctr = s.ctr := by unfold State.placeAddressBlock; rfl
@[simp] theorem placeAddressBlock_ks (s : State) : s.placeAddressBlock.ks = s.ks := by unfold State.placeAddressBlock; rfl
@[simp] theorem placeAddressBlock_unused (s : State) : s.placeAddressBlock.unused = s.unused := by unfold State.placeAddressBlock; rfl
@[simp] theorem placeAddressBlock_latch (s : State) : s.placeAddressBlock.latch = s.latch := by unfold State.placeAddressBlock; rfl
@[simp] theorem placeAddressBlock_wait (s : State) : s.placeAddressBlock.wait = s.wait := by unfold State.placeAddressBlock; rfl
@[simp] theorem placeAddressBlock_draws (s : State) : s.placeAddressBlock.draws = s.draws := by unfold State.placeAddressBlock; rfl
@[simp] theorem placeAddressBlock_bus (s : State) : s.placeAddressBlock.bus = s.bus := by unfold State.placeAddressBlock; rfl
@[simp] theorem placeAddressBlock_responses (s : State) : s.placeAddressBlock.responses = s.responses := by unfold State.placeAddressBlock; rfl
@[simp] theorem placeAddressBlock_duties (s : State) : s.placeAddressBlock.duties = s.duties := by unfold State.placeAddressBlock; rfl

/-! ### `State.withCtrContext` -/

@[simp] theorem withCtrContext_params (s : State) (c : CtrContext) : (s.withCtrContext c).params = s.params := rfl
@[simp] theorem withCtrContext_arg0 (s : State) (c : CtrContext) : (s.withCtrContext c).arg0 = s.arg0 := rfl
@[simp] theorem withCtrContext_arg1 (s : State) (c : CtrContext) : (s.withCtrContext c).arg1 = s.arg1 := rfl
@[simp] theorem withCtrContext_msglen (s : State) (c : CtrContext) : (s.withCtrContext c).msglen = s.msglen := rfl
@[simp] theorem withCtrContext_err (s : State) (c : CtrContext) : (s.withCtrContext c).err = s.err := rfl
@[simp] theorem withCtrContext_mismatch (s : State) (c : CtrContext) : (s.withCtrContext c).mismatch = s.mismatch := rfl
@[simp] theorem withCtrContext_verdict (s : State) (c : CtrContext) : (s.withCtrContext c).verdict = s.verdict := rfl
@[simp] theorem withCtrContext_exited (s : State) (c : CtrContext) : (s.withCtrContext c).exited = s.exited := rfl
@[simp] theorem withCtrContext_coll (s : State) (c : CtrContext) : (s.withCtrContext c).coll = s.coll := rfl
@[simp] theorem withCtrContext_kind (s : State) (c : CtrContext) : (s.withCtrContext c).kind = s.kind := rfl
@[simp] theorem withCtrContext_action (s : State) (c : CtrContext) : (s.withCtrContext c).action = s.action := rfl
@[simp] theorem withCtrContext_order (s : State) (c : CtrContext) : (s.withCtrContext c).order = s.order := rfl
@[simp] theorem withCtrContext_rdaddr (s : State) (c : CtrContext) : (s.withCtrContext c).rdaddr = s.rdaddr := rfl
@[simp] theorem withCtrContext_pgaddr (s : State) (c : CtrContext) : (s.withCtrContext c).pgaddr = s.pgaddr := rfl
@[simp] theorem withCtrContext_buf (s : State) (c : CtrContext) : (s.withCtrContext c).buf = s.buf := rfl
@[simp] theorem withCtrContext_key (s : State) (c : CtrContext) : (s.withCtrContext c).key = s.key := rfl
@[simp] theorem withCtrContext_acc (s : State) (c : CtrContext) : (s.withCtrContext c).acc = s.acc := rfl
@[simp] theorem withCtrContext_ctr (s : State) (c : CtrContext) : (s.withCtrContext c).ctr = c.ctr := rfl
@[simp] theorem withCtrContext_ks (s : State) (c : CtrContext) : (s.withCtrContext c).ks = c.ks := rfl
@[simp] theorem withCtrContext_unused (s : State) (c : CtrContext) : (s.withCtrContext c).unused = c.unused := rfl
@[simp] theorem withCtrContext_latch (s : State) (c : CtrContext) : (s.withCtrContext c).latch = s.latch := rfl
@[simp] theorem withCtrContext_wait (s : State) (c : CtrContext) : (s.withCtrContext c).wait = s.wait := rfl
@[simp] theorem withCtrContext_draws (s : State) (c : CtrContext) : (s.withCtrContext c).draws = s.draws := rfl
@[simp] theorem withCtrContext_bus (s : State) (c : CtrContext) : (s.withCtrContext c).bus = s.bus := rfl
@[simp] theorem withCtrContext_responses (s : State) (c : CtrContext) : (s.withCtrContext c).responses = s.responses := rfl
@[simp] theorem withCtrContext_duties (s : State) (c : CtrContext) : (s.withCtrContext c).duties = s.duties := rfl

/-! ### `State.respond` -/

@[simp] theorem respond_params (s : State) (v : Word) : (s.respond v).params = s.params := rfl
@[simp] theorem respond_arg0 (s : State) (v : Word) : (s.respond v).arg0 = s.arg0 := rfl
@[simp] theorem respond_arg1 (s : State) (v : Word) : (s.respond v).arg1 = s.arg1 := rfl
@[simp] theorem respond_msglen (s : State) (v : Word) : (s.respond v).msglen = s.msglen := rfl
@[simp] theorem respond_err (s : State) (v : Word) : (s.respond v).err = s.err := rfl
@[simp] theorem respond_mismatch (s : State) (v : Word) : (s.respond v).mismatch = s.mismatch := rfl
@[simp] theorem respond_verdict (s : State) (v : Word) : (s.respond v).verdict = s.verdict := rfl
@[simp] theorem respond_exited (s : State) (v : Word) : (s.respond v).exited = s.exited := rfl
@[simp] theorem respond_coll (s : State) (v : Word) : (s.respond v).coll = s.coll := rfl
@[simp] theorem respond_kind (s : State) (v : Word) : (s.respond v).kind = s.kind := rfl
@[simp] theorem respond_action (s : State) (v : Word) : (s.respond v).action = s.action := rfl
@[simp] theorem respond_order (s : State) (v : Word) : (s.respond v).order = s.order := rfl
@[simp] theorem respond_rdaddr (s : State) (v : Word) : (s.respond v).rdaddr = s.rdaddr := rfl
@[simp] theorem respond_pgaddr (s : State) (v : Word) : (s.respond v).pgaddr = s.pgaddr := rfl
@[simp] theorem respond_buf (s : State) (v : Word) : (s.respond v).buf = s.buf := rfl
@[simp] theorem respond_key (s : State) (v : Word) : (s.respond v).key = s.key := rfl
@[simp] theorem respond_acc (s : State) (v : Word) : (s.respond v).acc = s.acc := rfl
@[simp] theorem respond_ctr (s : State) (v : Word) : (s.respond v).ctr = s.ctr := rfl
@[simp] theorem respond_ks (s : State) (v : Word) : (s.respond v).ks = s.ks := rfl
@[simp] theorem respond_unused (s : State) (v : Word) : (s.respond v).unused = s.unused := rfl
@[simp] theorem respond_latch (s : State) (v : Word) : (s.respond v).latch = s.latch := rfl
@[simp] theorem respond_wait (s : State) (v : Word) : (s.respond v).wait = s.wait := rfl
@[simp] theorem respond_draws (s : State) (v : Word) : (s.respond v).draws = s.draws := rfl
@[simp] theorem respond_bus (s : State) (v : Word) : (s.respond v).bus = s.bus := rfl
@[simp] theorem respond_responses (s : State) (v : Word) : (s.respond v).responses = v :: s.responses := rfl
@[simp] theorem respond_duties (s : State) (v : Word) : (s.respond v).duties = s.duties := rfl

/-! ### `State.cbcEncBody` -/

@[simp] theorem cbcEncBody_params (s : State) (a l : Nat) : (s.cbcEncBody a l).params = s.params := rfl
@[simp] theorem cbcEncBody_arg0 (s : State) (a l : Nat) : (s.cbcEncBody a l).arg0 = s.arg0 := rfl
@[simp] theorem cbcEncBody_arg1 (s : State) (a l : Nat) : (s.cbcEncBody a l).arg1 = s.arg1 := rfl
@[simp] theorem cbcEncBody_msglen (s : State) (a l : Nat) : (s.cbcEncBody a l).msglen = s.msglen := rfl
@[simp] theorem cbcEncBody_err (s : State) (a l : Nat) : (s.cbcEncBody a l).err = s.err := rfl
@[simp] theorem cbcEncBody_mismatch (s : State) (a l : Nat) : (s.cbcEncBody a l).mismatch = s.mismatch := rfl
@[simp] theorem cbcEncBody_verdict (s : State) (a l : Nat) : (s.cbcEncBody a l).verdict = s.verdict := rfl
@[simp] theorem cbcEncBody_exited (s : State) (a l : Nat) : (s.cbcEncBody a l).exited = s.exited := rfl
@[simp] theorem cbcEncBody_coll (s : State) (a l : Nat) : (s.cbcEncBody a l).coll = s.coll := rfl
@[simp] theorem cbcEncBody_kind (s : State) (a l : Nat) : (s.cbcEncBody a l).kind = s.kind := rfl
@[simp] theorem cbcEncBody_action (s : State) (a l : Nat) : (s.cbcEncBody a l).action = s.action := rfl
@[simp] theorem cbcEncBody_order (s : State) (a l : Nat) : (s.cbcEncBody a l).order = s.order := rfl
@[simp] theorem cbcEncBody_rdaddr (s : State) (a l : Nat) : (s.cbcEncBody a l).rdaddr = s.rdaddr := rfl
@[simp] theorem cbcEncBody_pgaddr (s : State) (a l : Nat) : (s.cbcEncBody a l).pgaddr = s.pgaddr := rfl
@[simp] theorem cbcEncBody_buf (s : State) (a l : Nat) : (s.cbcEncBody a l).buf = Memory.writeBlocks (Memory.writeBlock s.buf a 0#128) (a + 16)
      (cbcEncrypt s.key 0#128 (Memory.readBlocks s.buf (a + 16) (l / 16))) := rfl
@[simp] theorem cbcEncBody_key (s : State) (a l : Nat) : (s.cbcEncBody a l).key = s.key := rfl
@[simp] theorem cbcEncBody_acc (s : State) (a l : Nat) : (s.cbcEncBody a l).acc = s.acc := rfl
@[simp] theorem cbcEncBody_ctr (s : State) (a l : Nat) : (s.cbcEncBody a l).ctr = s.ctr := rfl
@[simp] theorem cbcEncBody_ks (s : State) (a l : Nat) : (s.cbcEncBody a l).ks = s.ks := rfl
@[simp] theorem cbcEncBody_unused (s : State) (a l : Nat) : (s.cbcEncBody a l).unused = s.unused := rfl
@[simp] theorem cbcEncBody_latch (s : State) (a l : Nat) : (s.cbcEncBody a l).latch = s.latch := rfl
@[simp] theorem cbcEncBody_wait (s : State) (a l : Nat) : (s.cbcEncBody a l).wait = s.wait := rfl
@[simp] theorem cbcEncBody_draws (s : State) (a l : Nat) : (s.cbcEncBody a l).draws = s.draws := rfl
@[simp] theorem cbcEncBody_bus (s : State) (a l : Nat) : (s.cbcEncBody a l).bus = s.bus := rfl
@[simp] theorem cbcEncBody_responses (s : State) (a l : Nat) : (s.cbcEncBody a l).responses = s.responses := rfl
@[simp] theorem cbcEncBody_duties (s : State) (a l : Nat) : (s.cbcEncBody a l).duties = s.duties := rfl

/-! ### `State.cbcDecBody` -/

@[simp] theorem cbcDecBody_params (s : State) (a l : Nat) : (s.cbcDecBody a l).params = s.params := rfl
@[simp] theorem cbcDecBody_arg0 (s : State) (a l : Nat) : (s.cbcDecBody a l).arg0 = s.arg0 := rfl
@[simp] theorem cbcDecBody_arg1 (s : State) (a l : Nat) : (s.cbcDecBody a l).arg1 = s.arg1 := rfl
@[simp] theorem cbcDecBody_msglen (s : State) (a l : Nat) : (s.cbcDecBody a l).msglen = s.msglen := rfl
@[simp] theorem cbcDecBody_err (s : State) (a l : Nat) : (s.cbcDecBody a l).err = s.err := rfl
@[simp] theorem cbcDecBody_mismatch (s : State) (a l : Nat) : (s.cbcDecBody a l).mismatch = s.mismatch := rfl
@[simp] theorem cbcDecBody_verdict (s : State) (a l : Nat) : (s.cbcDecBody a l).verdict = s.verdict := rfl
@[simp] theorem cbcDecBody_exited (s : State) (a l : Nat) : (s.cbcDecBody a l).exited = s.exited := rfl
@[simp] theorem cbcDecBody_coll (s : State) (a l : Nat) : (s.cbcDecBody a l).coll = s.coll := rfl
@[simp] theorem cbcDecBody_kind (s : State) (a l : Nat) : (s.cbcDecBody a l).kind = s.kind := rfl
@[simp] theorem cbcDecBody_action (s : State) (a l : Nat) : (s.cbcDecBody a l).action = s.action := rfl
@[simp] theorem cbcDecBody_order (s : State) (a l : Nat) : (s.cbcDecBody a l).order = s.order := rfl
@[simp] theorem cbcDecBody_rdaddr (s : State) (a l : Nat) : (s.cbcDecBody a l).rdaddr = s.rdaddr := rfl
@[simp] theorem cbcDecBody_pgaddr (s : State) (a l : Nat) : (s.cbcDecBody a l).pgaddr = s.pgaddr := rfl
@[simp] theorem cbcDecBody_buf (s : State) (a l : Nat) : (s.cbcDecBody a l).buf = Memory.writeBlocks (Memory.writeBlock s.buf a 0#128) (a + 16)
      (cbcDecrypt s.key 0#128 (Memory.readBlocks s.buf (a + 16) (l / 16))) := rfl
@[simp] theorem cbcDecBody_key (s : State) (a l : Nat) : (s.cbcDecBody a l).key = s.key := rfl
@[simp] theorem cbcDecBody_acc (s : State) (a l : Nat) : (s.cbcDecBody a l).acc = s.acc := rfl
@[simp] theorem cbcDecBody_ctr (s : State) (a l : Nat) : (s.cbcDecBody a l).ctr = s.ctr := rfl
@[simp] theorem cbcDecBody_ks (s : State) (a l : Nat) : (s.cbcDecBody a l).ks = s.ks := rfl
@[simp] theorem cbcDecBody_unused (s : State) (a l : Nat) : (s.cbcDecBody a l).unused = s.unused := rfl
@[simp] theorem cbcDecBody_latch (s : State) (a l : Nat) : (s.cbcDecBody a l).latch = s.latch := rfl
@[simp] theorem cbcDecBody_wait (s : State) (a l : Nat) : (s.cbcDecBody a l).wait = s.wait := rfl
@[simp] theorem cbcDecBody_draws (s : State) (a l : Nat) : (s.cbcDecBody a l).draws = s.draws := rfl
@[simp] theorem cbcDecBody_bus (s : State) (a l : Nat) : (s.cbcDecBody a l).bus = s.bus := rfl
@[simp] theorem cbcDecBody_responses (s : State) (a l : Nat) : (s.cbcDecBody a l).responses = s.responses := rfl
@[simp] theorem cbcDecBody_duties (s : State) (a l : Nat) : (s.cbcDecBody a l).duties = s.duties := rfl

/-! ### `State.macVerifyStep`, which writes BUF or nothing -/

@[simp] theorem macVerifyStep_params (s : State) (a l : Nat) : (s.macVerifyStep a l).params = s.params := by
  unfold State.macVerifyStep; split <;> rfl
@[simp] theorem macVerifyStep_arg0 (s : State) (a l : Nat) : (s.macVerifyStep a l).arg0 = s.arg0 := by
  unfold State.macVerifyStep; split <;> rfl
@[simp] theorem macVerifyStep_arg1 (s : State) (a l : Nat) : (s.macVerifyStep a l).arg1 = s.arg1 := by
  unfold State.macVerifyStep; split <;> rfl
@[simp] theorem macVerifyStep_msglen (s : State) (a l : Nat) : (s.macVerifyStep a l).msglen = s.msglen := by
  unfold State.macVerifyStep; split <;> rfl
@[simp] theorem macVerifyStep_err (s : State) (a l : Nat) : (s.macVerifyStep a l).err = s.err := by
  unfold State.macVerifyStep; split <;> rfl
@[simp] theorem macVerifyStep_mismatch (s : State) (a l : Nat) : (s.macVerifyStep a l).mismatch = s.mismatch := by
  unfold State.macVerifyStep; split <;> rfl
@[simp] theorem macVerifyStep_verdict (s : State) (a l : Nat) : (s.macVerifyStep a l).verdict = s.verdict := by
  unfold State.macVerifyStep; split <;> rfl
@[simp] theorem macVerifyStep_exited (s : State) (a l : Nat) : (s.macVerifyStep a l).exited = s.exited := by
  unfold State.macVerifyStep; split <;> rfl
@[simp] theorem macVerifyStep_coll (s : State) (a l : Nat) : (s.macVerifyStep a l).coll = s.coll := by
  unfold State.macVerifyStep; split <;> rfl
@[simp] theorem macVerifyStep_kind (s : State) (a l : Nat) : (s.macVerifyStep a l).kind = s.kind := by
  unfold State.macVerifyStep; split <;> rfl
@[simp] theorem macVerifyStep_action (s : State) (a l : Nat) : (s.macVerifyStep a l).action = s.action := by
  unfold State.macVerifyStep; split <;> rfl
@[simp] theorem macVerifyStep_order (s : State) (a l : Nat) : (s.macVerifyStep a l).order = s.order := by
  unfold State.macVerifyStep; split <;> rfl
@[simp] theorem macVerifyStep_rdaddr (s : State) (a l : Nat) : (s.macVerifyStep a l).rdaddr = s.rdaddr := by
  unfold State.macVerifyStep; split <;> rfl
@[simp] theorem macVerifyStep_pgaddr (s : State) (a l : Nat) : (s.macVerifyStep a l).pgaddr = s.pgaddr := by
  unfold State.macVerifyStep; split <;> rfl
@[simp] theorem macVerifyStep_key (s : State) (a l : Nat) : (s.macVerifyStep a l).key = s.key := by
  unfold State.macVerifyStep; split <;> rfl
@[simp] theorem macVerifyStep_acc (s : State) (a l : Nat) : (s.macVerifyStep a l).acc = s.acc := by
  unfold State.macVerifyStep; split <;> rfl
@[simp] theorem macVerifyStep_ctr (s : State) (a l : Nat) : (s.macVerifyStep a l).ctr = s.ctr := by
  unfold State.macVerifyStep; split <;> rfl
@[simp] theorem macVerifyStep_ks (s : State) (a l : Nat) : (s.macVerifyStep a l).ks = s.ks := by
  unfold State.macVerifyStep; split <;> rfl
@[simp] theorem macVerifyStep_unused (s : State) (a l : Nat) : (s.macVerifyStep a l).unused = s.unused := by
  unfold State.macVerifyStep; split <;> rfl
@[simp] theorem macVerifyStep_latch (s : State) (a l : Nat) : (s.macVerifyStep a l).latch = s.latch := by
  unfold State.macVerifyStep; split <;> rfl
@[simp] theorem macVerifyStep_wait (s : State) (a l : Nat) : (s.macVerifyStep a l).wait = s.wait := by
  unfold State.macVerifyStep; split <;> rfl
@[simp] theorem macVerifyStep_draws (s : State) (a l : Nat) : (s.macVerifyStep a l).draws = s.draws := by
  unfold State.macVerifyStep; split <;> rfl
@[simp] theorem macVerifyStep_bus (s : State) (a l : Nat) : (s.macVerifyStep a l).bus = s.bus := by
  unfold State.macVerifyStep; split <;> rfl
@[simp] theorem macVerifyStep_responses (s : State) (a l : Nat) : (s.macVerifyStep a l).responses = s.responses := by
  unfold State.macVerifyStep; split <;> rfl
@[simp] theorem macVerifyStep_duties (s : State) (a l : Nat) : (s.macVerifyStep a l).duties = s.duties := by
  unfold State.macVerifyStep; split <;> rfl

/-! ### `State.applyReset` -/

@[simp] theorem applyReset_params (s : State) (k : Key) (image : List Byte) : (s.applyReset k image).params = s.params := rfl
@[simp] theorem applyReset_arg0 (s : State) (k : Key) (image : List Byte) : (s.applyReset k image).arg0 = 0#16 := rfl
@[simp] theorem applyReset_arg1 (s : State) (k : Key) (image : List Byte) : (s.applyReset k image).arg1 = 0#16 := rfl
@[simp] theorem applyReset_msglen (s : State) (k : Key) (image : List Byte) : (s.applyReset k image).msglen = 0#16 := rfl
@[simp] theorem applyReset_err (s : State) (k : Key) (image : List Byte) : (s.applyReset k image).err = none := rfl
@[simp] theorem applyReset_mismatch (s : State) (k : Key) (image : List Byte) : (s.applyReset k image).mismatch = false := rfl
@[simp] theorem applyReset_verdict (s : State) (k : Key) (image : List Byte) : (s.applyReset k image).verdict = false := rfl
@[simp] theorem applyReset_exited (s : State) (k : Key) (image : List Byte) : (s.applyReset k image).exited = false := rfl
@[simp] theorem applyReset_coll (s : State) (k : Key) (image : List Byte) : (s.applyReset k image).coll = false := rfl
@[simp] theorem applyReset_kind (s : State) (k : Key) (image : List Byte) : (s.applyReset k image).kind = .none := rfl
@[simp] theorem applyReset_action (s : State) (k : Key) (image : List Byte) : (s.applyReset k image).action = .none := rfl
@[simp] theorem applyReset_order (s : State) (k : Key) (image : List Byte) : (s.applyReset k image).order = .equal := rfl
@[simp] theorem applyReset_rdaddr (s : State) (k : Key) (image : List Byte) : (s.applyReset k image).rdaddr = 0#32 := rfl
@[simp] theorem applyReset_pgaddr (s : State) (k : Key) (image : List Byte) : (s.applyReset k image).pgaddr = 0#32 := rfl
@[simp] theorem applyReset_buf (s : State) (k : Key) (image : List Byte) : (s.applyReset k image).buf = Memory.writeBytes [] 0 (image.take s.params.bufSize) := rfl
@[simp] theorem applyReset_key (s : State) (k : Key) (image : List Byte) : (s.applyReset k image).key = k := rfl
@[simp] theorem applyReset_acc (s : State) (k : Key) (image : List Byte) : (s.applyReset k image).acc = 0#128 := rfl
@[simp] theorem applyReset_ctr (s : State) (k : Key) (image : List Byte) : (s.applyReset k image).ctr = 0#128 := rfl
@[simp] theorem applyReset_ks (s : State) (k : Key) (image : List Byte) : (s.applyReset k image).ks = 0#128 := rfl
@[simp] theorem applyReset_unused (s : State) (k : Key) (image : List Byte) : (s.applyReset k image).unused = 0 := rfl
@[simp] theorem applyReset_latch (s : State) (k : Key) (image : List Byte) : (s.applyReset k image).latch = none := rfl
@[simp] theorem applyReset_wait (s : State) (k : Key) (image : List Byte) : (s.applyReset k image).wait = 0 := rfl
@[simp] theorem applyReset_draws (s : State) (k : Key) (image : List Byte) : (s.applyReset k image).draws = s.draws := rfl
@[simp] theorem applyReset_bus (s : State) (k : Key) (image : List Byte) : (s.applyReset k image).bus = s.bus := rfl
@[simp] theorem applyReset_responses (s : State) (k : Key) (image : List Byte) : (s.applyReset k image).responses = s.responses := rfl
@[simp] theorem applyReset_duties (s : State) (k : Key) (image : List Byte) : (s.applyReset k image).duties = s.duties.afterReset s.params := rfl

/-! ### `State.busy` -/

@[simp] theorem issue_busy (s : State) (cmd : Word) : (s.issue cmd).busy = true := rfl
@[simp] theorem complete_busy (s : State) : s.complete.busy = false := rfl
@[simp] theorem raiseError_busy (s : State) (code : ErrCode) : (s.raiseError code).busy = false := rfl
@[simp] theorem raiseVerifyError_busy (s : State) (code : ErrCode) : (s.raiseVerifyError code).busy = false := rfl
@[simp] theorem applyReset_busy (s : State) (k : Key) (image : List Byte) : (s.applyReset k image).busy = false := rfl

end Sys2Proof.Machine
end

