-- ==== Sys2Proof/Laws/Step.lean ====
section
/-! SUPPORT. What a step can do, said once: `exec` is the performance of its instruction, no performance touches the
operand registers ARG0 and ARG1, the bus, the host's record or the parameters, and a turn of the bus that is not a reset
touches nothing an operation owns. -/

namespace Sys2Proof.Machine

/-- The performance of an instruction as a function. -/
def performed : Instr → State → State
  | .keyload => performKeyload
  | .cbcenc => performCbcenc
  | .cbcdec => performCbcdec
  | .macinit => performMacinit
  | .macupd => performMacupd
  | .maccalc => performMaccalc
  | .macstore => performMacstore
  | .maccmp => performMaccmp
  | .macvfy => performMacvfy
  | .ctrload => performCtrload
  | .ctrstore => performCtrstore
  | .ctrxor => performCtrxor
  | .cntinc => performCntinc
  | .cntcmp => performCntcmp
  | .decode => performDecode
  | .encodeSetaddr => performEncodeSetaddr
  | .encodeProgram => performEncodeProgram
  | .encodeChangekey => performEncodeChangekey
  | .encodeAuth => performEncodeAuth

theorem exec_eq (i : Instr) (s : State) : exec i s = .next (performed i s) := by
  cases i <;> rfl

/-- What no performance changes, and how each ends. -/
structure Performed (s t : State) : Prop where
  params : t.params = s.params
  arg0 : t.arg0 = s.arg0
  arg1 : t.arg1 = s.arg1
  coll : t.coll = s.coll
  draws : t.draws = s.draws
  bus : t.bus = s.bus
  responses : t.responses = s.responses
  duties : t.duties = s.duties
  latch : t.latch = none
  wait : t.wait = 0

theorem Performed.complete {s t : State} (h1 : t.params = s.params) (h2 : t.arg0 = s.arg0) (h3 : t.arg1 = s.arg1)
    (h4 : t.coll = s.coll) (h5 : t.draws = s.draws) (h6 : t.bus = s.bus) (h7 : t.responses = s.responses)
    (h8 : t.duties = s.duties) :
    Performed s t.complete :=
  ⟨h1, h2, h3, h4, h5, h6, h7, h8, rfl, rfl⟩

theorem Performed.raiseError (s : State) (e : ErrCode) : Performed s (s.raiseError e) :=
  ⟨rfl, rfl, rfl, rfl, rfl, rfl, rfl, rfl, rfl, rfl⟩

theorem Performed.raiseVerifyError (s : State) (e : ErrCode) : Performed s (s.raiseVerifyError e) :=
  ⟨rfl, rfl, rfl, rfl, rfl, rfl, rfl, rfl, rfl, rfl⟩

theorem decodeKind_performed (s : State) (k : Kind) : Performed s (s.decodeKind k).complete := by
  cases k
  · exact .complete rfl rfl rfl rfl rfl rfl rfl rfl
  · simp only [State.decodeKind, State.decodeSetaddr]
    split <;> exact .complete rfl rfl rfl rfl rfl rfl rfl rfl
  · simp only [State.decodeKind, State.decodeProgram]
    split_ifs <;> apply Performed.complete <;> simp
  · simp only [State.decodeKind, State.decodeChangekey]
    split_ifs <;> apply Performed.complete <;> simp
  · simp only [State.decodeKind, State.decodeAuth]
    split_ifs <;> apply Performed.complete <;> simp

theorem decode_performed (s : State) : Performed s (performDecode s) := by
  simp only [performDecode]
  split_ifs
  · exact .complete rfl rfl rfl rfl rfl rfl rfl rfl
  · have h := decodeKind_performed { s with kind := classify s.params s.opM } (classify s.params s.opM)
    exact ⟨h.params, h.arg0, h.arg1, h.coll, h.draws, h.bus, h.responses, h.duties, h.latch, h.wait⟩

theorem performed_frame (i : Instr) (s : State) : Performed s (performed i s) := by
  cases i
  case decode => exact decode_performed s
  case macinit => exact .complete rfl rfl rfl rfl rfl rfl rfl rfl
  case encodeSetaddr => exact .complete rfl rfl rfl rfl rfl rfl rfl rfl
  case encodeProgram => simp only [performed, performEncodeProgram]; apply Performed.complete <;> simp
  case encodeChangekey => simp only [performed, performEncodeChangekey]; apply Performed.complete <;> simp
  case encodeAuth => simp only [performed, performEncodeAuth]; apply Performed.complete <;> simp
  all_goals
    simp only [performed, performKeyload, performCbcenc, performCbcdec, performMacupd,
      performMaccalc, performMacstore, performMaccmp, performMacvfy, performCtrload, performCtrstore, performCtrxor,
      State.ctrXorBody, performCntinc, performCntcmp]
    split_ifs <;> first
      | exact .raiseError s _
      | exact .raiseVerifyError s _
      | (apply Performed.complete <;> simp)

/-- A performance ends, so nothing is in flight after it. -/
theorem exec_next {i : Instr} {s t : State} (h : exec i s = .next t) : t = performed i s ∧ Performed s t := by
  rw [exec_eq] at h
  cases h
  exact ⟨rfl, performed_frame i s⟩

theorem wordOfBytes_bytesOfWord (w : Word) :
    wordOfBytes (w.extractLsb' 0 8) (w.extractLsb' 8 8) (w.extractLsb' 16 8) (w.extractLsb' 24 8) = w := by
  apply BitVec.eq_of_getLsbD_eq
  intro i hi
  simp only [wordOfBytes, BitVec.getLsbD_append, BitVec.getLsbD_extractLsb']
  rcases Nat.lt_or_ge i 8 with h1 | h1
  · simp [h1]
  rcases Nat.lt_or_ge (i - 8) 8 with h2 | h2
  · rw [if_neg (by simpa using h1), if_pos (by simpa using h2)]
    simp [h2, show 8 + (i - 8) = i by omega]
  rcases Nat.lt_or_ge (i - 8 - 8) 8 with h3 | h3
  · rw [if_neg (by simpa using h1), if_neg (by simpa using h2), if_pos (by simpa using h3)]
    simp [h3, show 16 + (i - 8 - 8) = i by omega]
  · rw [if_neg (by simpa using h1), if_neg (by simpa using h2), if_neg (by simpa using h3)]
    simp [show 24 + (i - 8 - 8 - 8) = i by omega, show i - 8 - 8 - 8 < 8 by omega]

theorem fetch_eq (l : Latch) : l.fetch = decodeWord l.cmd := by
  simp only [Latch.fetch, bytesOfWord, decode, wordOfBytes_bytesOfWord]
  cases decodeWord l.cmd <;> rfl

theorem performLatched_ok {l : Latch} {i : Instr} (s : State) (h : decodeWord l.cmd = .ok i) :
    performLatched l s = exec i s := by
  simp [performLatched, fetch_eq, h]

theorem performLatched_illegal {l : Latch} (s : State) (h : ∀ i, decodeWord l.cmd ≠ .ok i) :
    performLatched l s = .next (s.raiseError .illegal) := by
  rw [performLatched, fetch_eq]
  cases hd : decodeWord l.cmd with
  | ok i => exact absurd hd (h i)
  | error e => rfl

/-- Everything a step can be. -/
theorem step_cases {s t : State} (h : step s = .next t) :
    (∃ l i, s.latch = some l ∧ s.wait = 0 ∧ decodeWord l.cmd = .ok i ∧ t = performed i s)
    ∨ (∃ l, s.latch = some l ∧ s.wait = 0 ∧ (∀ i, decodeWord l.cmd ≠ .ok i) ∧ t = s.raiseError .illegal)
    ∨ (∃ l n, s.latch = some l ∧ s.wait = n + 1 ∧ t = ({ s with wait := n } : State).busTurn)
    ∨ (s.latch = none ∧ t = s.busTurn) := by
  unfold step at h
  cases hl : s.latch with
  | none =>
    rw [hl] at h
    simp only [Host.Outcome.next.injEq] at h
    exact .inr (.inr (.inr ⟨rfl, h.symm⟩))
  | some l =>
    cases hw : s.wait with
    | succ n =>
      rw [hl, hw] at h
      simp only [Host.Outcome.next.injEq] at h
      exact .inr (.inr (.inl ⟨l, n, rfl, rfl, h.symm⟩))
    | zero =>
      rw [hl, hw] at h
      simp only at h
      by_cases hd : ∃ i, decodeWord l.cmd = .ok i
      · obtain ⟨i, hi⟩ := hd
        rw [performLatched_ok s hi, exec_eq] at h
        exact .inl ⟨l, i, rfl, rfl, hi, (Host.Outcome.next.inj h).symm⟩
      · rw [performLatched_illegal s (not_exists.mp hd)] at h
        exact .inr (.inl ⟨l, rfl, rfl, not_exists.mp hd, (Host.Outcome.next.inj h).symm⟩)

/-- What a turn of the bus that is not a reset leaves as it was. -/
structure BusFrame (s t : State) : Prop where
  params : t.params = s.params
  exited : t.exited = s.exited
  rdaddr : t.rdaddr = s.rdaddr
  pgaddr : t.pgaddr = s.pgaddr
  key : t.key = s.key
  acc : t.acc = s.acc
  ctr : t.ctr = s.ctr
  ks : t.ks = s.ks
  unused : t.unused = s.unused

theorem busRead_frame (s : State) (w : Width) (offset : Half) : BusFrame s (s.busRead w offset) := by
  unfold State.busRead
  split
  · exact ⟨rfl, rfl, rfl, rfl, rfl, rfl, rfl, rfl, rfl⟩
  · split_ifs <;> exact ⟨rfl, rfl, rfl, rfl, rfl, rfl, rfl, rfl, rfl⟩
  · split_ifs <;> exact ⟨rfl, rfl, rfl, rfl, rfl, rfl, rfl, rfl, rfl⟩

theorem busWrite_frame (s : State) (w : Width) (offset : Half) (v : Word) : BusFrame s (s.busWrite w offset v) := by
  unfold State.busWrite
  split_ifs
  · exact ⟨rfl, rfl, rfl, rfl, rfl, rfl, rfl, rfl, rfl⟩
  · split
    · exact ⟨rfl, rfl, rfl, rfl, rfl, rfl, rfl, rfl, rfl⟩
    · rename_i r _
      cases r <;> exact ⟨rfl, rfl, rfl, rfl, rfl, rfl, rfl, rfl, rfl⟩
    · exact ⟨rfl, rfl, rfl, rfl, rfl, rfl, rfl, rfl, rfl⟩

theorem BusFrame.refl (s : State) : BusFrame s s := ⟨rfl, rfl, rfl, rfl, rfl, rfl, rfl, rfl, rfl⟩

/-! ### Moves of the host (R256) -/

/-- Two states that differ in the host's record of its duties alone. -/
def State.SameButDuties (s t : State) : Prop :=
  ∃ d, t = { s with duties := d }

theorem pay_same (s : State) (debt : Debt) (deed : Deed) (after : List Debt) : s.SameButDuties (s.pay debt deed after) :=
  ⟨_, rfl⟩

theorem payCompare_same (s : State) (response : Block) : s.SameButDuties (s.payCompare response) := by
  unfold State.payCompare
  split
  · exact pay_same _ _ _ _
  · exact ⟨_, rfl⟩

/-- A read of STATUS by the host returns STATUS and changes the host's record at most. -/
theorem hostReadsStatus_eq (s : State) :
    ∃ d, s.hostReadsStatus = { s with responses := s.statusWord :: s.responses, duties := d } := by
  unfold State.hostReadsStatus
  split <;> exact ⟨_, rfl⟩

/-- Whether a move breaks a duty does not depend on what is to come on the bus, or on the latency. -/
@[simp] theorem mayMove_bus_wait (s : State) (m : HostMove) (n : Nat) (bus : List BusEvent) :
    ({ s with wait := n, bus := bus } : State).mayMove m = s.mayMove m := by
  cases m <;> rfl

/-- A move that would break a duty is not made. -/
theorem hostTurn_of_not_mayMove {s : State} {m : HostMove} (h : s.mayMove m = false) : s.hostTurn m = s := by
  simp [State.hostTurn, h]

/-- A move that breaks no duty has its effect. -/
theorem hostTurn_of_mayMove {s : State} {m : HostMove} (h : s.mayMove m = true) : s.hostTurn m = s.makeMove m := by
  simp [State.hostTurn, h]

/-- Everything a move of the host can be: a bus write or read while it rests, a read of STATUS, or nothing to the block. -/
theorem hostTurn_cases (s : State) (m : HostMove) :
    (∃ w offset v d, m = .write w offset v ∧ s.busy = false
        ∧ s.hostTurn m = ({ s with duties := d } : State).busWrite w offset v)
    ∨ (∃ w offset, m = .read w offset ∧ s.busy = false ∧ s.hostTurn m = s.busRead w offset)
    ∨ s.hostTurn m = s.hostReadsStatus
    ∨ s.SameButDuties (s.hostTurn m) := by
  unfold State.hostTurn
  split
  case isFalse => exact .inr (.inr (.inr ⟨_, rfl⟩))
  case isTrue h =>
    cases m with
    | write w offset v =>
      simp only [State.mayMove, State.rested, Bool.and_eq_true, Bool.not_eq_true'] at h
      exact .inl ⟨w, offset, v, _, rfl, h.1.2, rfl⟩
    | read w offset =>
      simp only [State.makeMove]
      by_cases hs : readsStatus w offset = true
      · rw [if_pos hs]
        exact .inr (.inr (.inl rfl))
      · rw [if_neg hs]
        simp only [State.mayMove, State.rested, hs, Bool.or_false, Bool.and_eq_true, Bool.not_eq_true'] at h
        exact .inr (.inl ⟨w, offset, rfl, h.2, rfl⟩)
    | poll => exact .inr (.inr (.inl rfl))
    | compareResponse r => exact .inr (.inr (.inr (payCompare_same s r)))
    | _ => exact .inr (.inr (.inr ⟨_, rfl⟩))

theorem hostTurn_frame (s : State) (m : HostMove) : BusFrame s (s.hostTurn m) := by
  obtain ⟨w, offset, v, d, -, -, h⟩ | ⟨w, offset, -, -, h⟩ | h | ⟨d, h⟩ := hostTurn_cases s m
  · rw [h]
    have k := busWrite_frame { s with duties := d } w offset v
    exact ⟨k.params, k.exited, k.rdaddr, k.pgaddr, k.key, k.acc, k.ctr, k.ks, k.unused⟩
  · rw [h]
    exact busRead_frame s w offset
  · obtain ⟨d, hd⟩ := hostReadsStatus_eq s
    rw [h, hd]
    exact ⟨rfl, rfl, rfl, rfl, rfl, rfl, rfl, rfl, rfl⟩
  · rw [h]
    exact ⟨rfl, rfl, rfl, rfl, rfl, rfl, rfl, rfl, rfl⟩

/-! ### Turns of the bus -/

/-- A turn of the bus is a reset or leaves what operations own. -/
theorem busTurn_cases (s : State) :
    BusFrame s s.busTurn
    ∨ ∃ k image rest, s.bus = .reset k image :: rest
        ∧ s.busTurn = ({ s with bus := rest } : State).applyReset k image := by
  unfold State.busTurn
  split
  · exact .inl (.refl s)
  · have h := hostTurn_frame { s with bus := ‹_› } ‹_›
    split_ifs
    · exact .inl (hostTurn_frame s _)
    · exact .inl ⟨h.params, h.exited, h.rdaddr, h.pgaddr, h.key, h.acc, h.ctr, h.ks, h.unused⟩
  · have h := busWrite_frame { s with bus := ‹_› } ‹_› ‹_› ‹_›
    exact .inl ⟨h.params, h.exited, h.rdaddr, h.pgaddr, h.key, h.acc, h.ctr, h.ks, h.unused⟩
  · have h := busRead_frame { s with bus := ‹_› } ‹_› ‹_›
    exact .inl ⟨h.params, h.exited, h.rdaddr, h.pgaddr, h.key, h.acc, h.ctr, h.ks, h.unused⟩
  · split_ifs <;> exact .inl ⟨rfl, rfl, rfl, rfl, rfl, rfl, rfl, rfl, rfl⟩
  · exact .inr ⟨_, _, _, ‹_›, rfl⟩

theorem busTurn_params (s : State) : s.busTurn.params = s.params := by
  rcases busTurn_cases s with h | ⟨k, image, rest, _, h⟩
  · exact h.params
  · rw [h]; rfl

end Sys2Proof.Machine
end

