-- ==== Sys2Proof/Laws/HostDuties.lean ====
section
/-! SUPPORT. The moves of the host that are not made are those that break a "must" (spec/60_exceptions.md R256). -/

namespace Sys2Proof.Machine

/-! ### Targets and regions -/

theorem target_cmd (p : Params) : target p .word 0#16 = .reg .cmd := rfl

/-- An aligned access inside BUF reaches BUF. -/
theorem target_buf (p : Params) (w : Width) (o : Nat) (ha : o % w.bytes = 0) (hb : o + w.bytes ≤ p.bufSize) :
    target p w (BitVec.ofNat 16 (0x8000 + o)) = .buf o := by
  have hs := bufSize_le p
  have ho : (BitVec.ofNat 16 (0x8000 + o)).toNat = 0x8000 + o := by
    rw [BitVec.toNat_ofNat, Nat.mod_eq_of_lt]
    cases w <;> simp only [Width.bytes] at hb <;> omega
  have ha' : (0x8000 + o) % w.bytes = 0 := by cases w <;> simp only [Width.bytes] at ha ⊢ <;> omega
  have hlt : ¬ 0x8000 + o < 0x8000 := by omega
  simp only [target, ho, ha', hlt, Nat.add_sub_cancel_left, hb, and_self, if_true, if_false]

/-- An access that reaches BUF is aligned and inside BUF. -/
theorem of_target_buf {p : Params} {w : Width} {offset : Half} {a : Nat} (h : target p w offset = .buf a) :
    offset = BitVec.ofNat 16 (0x8000 + a) ∧ a % w.bytes = 0 ∧ a + w.bytes ≤ p.bufSize := by
  unfold target at h
  split_ifs at h with h1 h2
  · split at h <;> cases h
  · obtain rfl := Target.buf.inj h
    have hlt := offset.isLt
    refine ⟨?_, ?_, h2.2⟩
    · apply BitVec.eq_of_toNat_eq
      rw [BitVec.toNat_ofNat, Nat.add_sub_cancel' (by omega), Nat.mod_eq_of_lt hlt]
    · have := h2.1
      cases w <;> simp only [Width.bytes] at this ⊢ <;> omega

/-- An access that reaches CMD is the word at offset 0. -/
theorem of_target_cmd {p : Params} {w : Width} {offset : Half} (h : target p w offset = .reg .cmd) :
    w = .word ∧ offset = 0#16 := by
  unfold target at h
  split_ifs at h
  split at h
  · rename_i r hr
    cases h
    refine ⟨rfl, BitVec.eq_of_toNat_eq ?_⟩
    unfold regAt at hr
    split at hr <;> simp_all
  · cases h

theorem overlap_iff {r q : Nat × Nat} :
    overlap r q = true ↔ ∃ x, (r.1 ≤ x ∧ x < r.1 + r.2) ∧ q.1 ≤ x ∧ x < q.1 + q.2 := by
  simp only [overlap, decide_eq_true_eq]
  constructor
  · intro h
    exact ⟨max r.1 q.1, by omega⟩
  · rintro ⟨x, h⟩
    omega

/-- What a debt holds is what is owed on it. -/
theorem held_iff {s : State} {debt : Debt} {a n : Nat} :
    debt.held s.params = some (a, n) ↔ (debt, a, n) ∈ s.owed := by
  cases debt <;> simp [Debt.held, State.owed, eq_comm]

theorem releases_eq_false {s : State} {r : Nat × Nat} :
    s.releases r = false ↔ ∃ debt ∈ s.duties.debts, ∃ a n x, (debt, a, n) ∈ s.owed
      ∧ (r.1 ≤ x ∧ x < r.1 + r.2) ∧ a ≤ x ∧ x < a + n := by
  simp only [State.releases, List.all_eq_false]
  refine exists_congr fun debt => and_congr_right fun _ => ?_
  cases hd : debt.held s.params with
  | none =>
    simp only [not_true_eq_false, false_iff]
    rintro ⟨a, n, x, h, -⟩
    rw [← held_iff, hd] at h
    cases h
  | some q =>
    simp only [Bool.not_eq_true', Bool.not_eq_false, overlap_iff]
    constructor
    · rintro ⟨x, h⟩
      exact ⟨q.1, q.2, x, held_iff.mp hd, h⟩
    · rintro ⟨a, n, x, h, k⟩
      rw [← held_iff, hd] at h
      cases h
      exact ⟨x, k⟩

/-! ### Messages -/

theorem classify_program {p : Params} {m : Nat} : classify p m = .program ↔ m = p.pageSize + 32 := by
  have := pageSize_ge p
  unfold classify
  split_ifs <;> simp <;> omega

theorem classify_changekey {p : Params} {m : Nat} : classify p m = .changekey ↔ m = 48 := by
  have := pageSize_ge p
  unfold classify
  split_ifs <;> simp <;> omega

theorem readBytes_getElem? (m : Memory) (a n j : Nat) :
    (Memory.readBytes m a n)[j]? = if j < n then some (Memory.read m (a + j)) else none := by
  induction n generalizing a j with
  | zero => simp [Memory.readBytes]
  | succ n ih =>
    cases j with
    | zero => simp [Memory.readBytes]
    | succ j =>
      simp only [Memory.readBytes, List.getElem?_cons_succ, ih, Nat.add_lt_add_iff_right]
      rw [show a + 1 + j = a + (j + 1) by omega]

/-- Bytes of BUF are a list of bytes exactly when no byte of the list differs. -/
theorem readBytes_eq_take_iff (m : Memory) (bytes : List Byte) (size : Nat) :
    Memory.readBytes m 16 (min bytes.length (size - 16)) = bytes.take (min bytes.length (size - 16))
      ↔ ∀ (j : Nat) (b : Byte), 16 + j < size → bytes[j]? = some b → b = Memory.read m (16 + j) := by
  rw [List.ext_getElem?_iff]
  simp only [readBytes_getElem?, List.getElem?_take]
  refine forall_congr' fun j => ?_
  by_cases h : j < bytes.length
  · rw [List.getElem?_eq_getElem h]
    by_cases h' : 16 + j < size
    · rw [if_pos (by omega), if_pos (by omega)]
      simp [h', eq_comm]
    · rw [if_neg (by omega), if_neg (by omega)]
      simp [h']
  · rw [if_neg (by omega), if_neg (by omega)]
    simp only [true_iff]
    intro b _ hb
    rw [List.getElem?_eq_none (by omega)] at hb
    cases hb

/-! ### Issues -/

/-- The reasons for which an issue is not made. -/
theorem mayIssue_eq_false {s : State} {cmd : Word} :
    s.mayIssue cmd = false ↔ (∃ debt ∈ s.duties.debts, debt.atOnce = true)
      ∨ ∃ i, decodeWord cmd = .ok i ∧ ((∃ r ∈ operandRegs i, s.duties.written r = false) ∨ s.keepsHeld i = false
          ∨ s.keepsStreamKey i = false ∨ s.delivers i = false ∨ s.encodesAsMeant i = false) := by
  unfold State.mayIssue
  cases hd : decodeWord cmd with
  | error e => simp
  | ok i =>
    simp only [Bool.and_eq_false_iff, Bool.not_eq_false', List.any_eq_true, List.all_eq_false, Bool.not_eq_true]
    simp only [Except.ok.injEq, exists_eq_left', or_assoc]

theorem atOnce_iff {debt : Debt} : debt.atOnce = true ↔ debt = .respond ∨ debt = .start ∨ debt = .stall := by
  cases debt <;> simp [Debt.atOnce]

theorem encodesUnderKey_iff {i : Instr} :
    encodesUnderKey i = true ↔ i ∈ [Instr.encodeProgram, .encodeChangekey, .encodeAuth] := by
  cases i <;> simp [encodesUnderKey]

theorem encodeKeyReady_eq_false {d : Duties} :
    d.encodeKeyReady = false ↔ d.keySource = .changed ∨ ∃ k, d.encodeKey = some k ∧ d.keySource ≠ .loaded k := by
  unfold Duties.encodeKeyReady
  cases d.keySource <;> cases d.encodeKey <;> simp

theorem issueBreaks_of {s : State} {cmd : Word} (h : s.mayIssue cmd = false) : BreaksMust s (.write .word 0#16 cmd) := by
  obtain ⟨debt, hm, ha⟩ | ⟨i, hd, h⟩ := mayIssue_eq_false.mp h
  · exact .issueBeforePaying cmd debt hm (atOnce_iff.mp ha)
  obtain ⟨r, hr, hw⟩ | h | h | h | h := h
  · exact .issueWithoutOperands cmd i r hd hr hw
  · simp only [State.keepsHeld, Bool.and_eq_false_iff, List.all_eq_false, Bool.not_eq_true, releases_eq_false,
      Bool.not_eq_false', Bool.and_eq_true, List.contains_iff_mem, State.decodes, beq_iff_eq, classify_program] at h
    obtain ⟨region, hr, debt, hm, a, n, x, ho, h1, h2⟩ | ⟨hp, rfl, hl⟩ := h
    · exact .operateOverOwed cmd i region debt a n x hd hr hm ho h1 h2
    · exact .decodePageOverOwed cmd hd hp hl
  · simp only [State.keepsStreamKey, Bool.not_eq_false', Bool.and_eq_true, Bool.or_eq_true, beq_iff_eq, State.decodes,
      classify_changekey] at h
    exact .changeStreamKey cmd i h.1 hd h.2
  · unfold State.delivers at h
    split at h
    · rename_i bytes hb
      simp only [Bool.and_eq_false_iff, beq_eq_false_iff_ne] at h
      rcases h with h | h
      · exact .decodeOtherLength cmd bytes hd hb h
      · rw [Ne, readBytes_eq_take_iff] at h
        push Not at h
        obtain ⟨j, b, hj, hbj, hne⟩ := h
        exact .decodeOtherBytes cmd bytes j b hd hb hj hbj hne
    · cases h
  · simp only [State.encodesAsMeant, Bool.and_eq_false_iff, Bool.or_eq_false_iff, Bool.not_eq_false', encodesUnderKey_iff,
      encodeKeyReady_eq_false, Bool.and_eq_true, beq_iff_eq, List.contains_iff_mem] at h
    obtain ⟨hi, hc | ⟨k, hk, hs⟩⟩ | ⟨rfl, hc⟩ := h
    · exact .encodeUnderChangedKey cmd i hd hi hc
    · exact .encodeUnderOtherKey cmd i k hd hi hk hs
    · exact .staleChallenge cmd hd hc

/-! ### Accesses -/

theorem rested_eq_false {s : State} : s.rested = false ↔ s.duties.awaited ≠ none ∨ s.busy = true := by
  simp only [State.rested, Bool.and_eq_false_iff, Option.isNone_eq_false_iff, Bool.not_eq_false', Option.isSome_iff_ne_none]

theorem readsStatus_eq_false {w : Width} {offset : Half} :
    readsStatus w offset = false ↔ w ≠ .word ∨ offset ≠ 0x0010#16 := by
  simp only [readsStatus, Bool.and_eq_false_iff, beq_eq_false_iff_ne]

/-- A bus write of the host's is made unless it breaks a "must". -/
theorem write_breaks_of {s : State} {w : Width} {offset : Half} {v : Word} (h : s.mayMove (.write w offset v) = false) :
    BreaksMust s (.write w offset v) := by
  simp only [State.mayMove, Bool.and_eq_false_iff, rested_eq_false] at h
  rcases h with h | h
  · exact .writeBeforeWait w offset v h
  split at h
  · rename_i ht
    obtain ⟨rfl, rfl⟩ := of_target_cmd ht
    exact issueBreaks_of h
  · rename_i a ht
    obtain ⟨rfl, ha, hb⟩ := of_target_buf ht
    obtain ⟨debt, hm, b, n, x, ho, h1, h2⟩ := releases_eq_false.mp h
    exact .overwriteOwed w a v debt b n x hm ho ha hb h1 h2
  · cases h

/-- A bus read of the host's is made unless it breaks a "must". -/
theorem read_breaks_of {s : State} {w : Width} {offset : Half} (h : s.mayMove (.read w offset) = false) :
    BreaksMust s (.read w offset) := by
  simp only [State.mayMove, Bool.or_eq_false_iff, rested_eq_false, readsStatus_eq_false] at h
  exact .readBeforeWait w offset h.1 h.2

/-- A move that breaks a "must" is not made. -/
theorem mayMove_of_breaks {s : State} {m : HostMove} (h : BreaksMust s m) : s.mayMove m = false := by
  have issue : ∀ {cmd : Word}, s.mayIssue cmd = false → s.mayMove (.write .word 0#16 cmd) = false := by
    intro cmd h
    simp [State.mayMove, target_cmd, h]
  have of : ∀ {cmd : Word} {i : Instr}, decodeWord cmd = .ok i →
      ((∃ r ∈ operandRegs i, s.duties.written r = false) ∨ s.keepsHeld i = false
          ∨ s.keepsStreamKey i = false ∨ s.delivers i = false ∨ s.encodesAsMeant i = false) →
      s.mayMove (.write .word 0#16 cmd) = false :=
    fun hd h => issue (mayIssue_eq_false.mpr (.inr ⟨_, hd, h⟩))
  cases h with
  | writeBeforeWait w offset v h => simp [State.mayMove, rested_eq_false.mpr h]
  | readBeforeWait w offset h k => simp [State.mayMove, rested_eq_false.mpr h, readsStatus_eq_false.mpr k]
  | issueWithoutOperands cmd i r hd hr hw => exact of hd (.inl ⟨r, hr, hw⟩)
  | decodeOtherLength cmd message hd hm hl =>
    refine of hd (.inr (.inr (.inr (.inl ?_))))
    simp [State.delivers, hm, hl]
  | decodeOtherBytes cmd message j b hd hm hj hb hne =>
    refine of hd (.inr (.inr (.inr (.inl ?_))))
    simp only [State.delivers, hm, Bool.and_eq_false_iff, beq_eq_false_iff_ne]
    refine .inr ?_
    rw [Ne, readBytes_eq_take_iff]
    exact fun h => hne (h j b hj hb)
  | overwriteOwed w o v debt a n x hm ho ha hb h1 h2 =>
    have := releases_eq_false.mpr ⟨debt, hm, a, n, x, ho, (show (o, w.bytes).1 ≤ x ∧ _ from h1), h2⟩
    simp [State.mayMove, target_buf s.params w o ha hb, this]
  | operateOverOwed cmd i region debt a n x hd hr hm ho h1 h2 =>
    refine of hd (.inr (.inl ?_))
    simp only [State.keepsHeld, Bool.and_eq_false_iff, List.all_eq_false]
    exact .inl ⟨region, hr, by simp [releases_eq_false.mpr ⟨debt, hm, a, n, x, ho, h1, h2⟩]⟩
  | decodePageOverOwed cmd hd hp hl =>
    refine of hd (.inr (.inl ?_))
    simp [State.keepsHeld, hp, State.decodes, classify_program, hl]
  | issueBeforePaying cmd debt hm h => exact issue (mayIssue_eq_false.mpr (.inl ⟨debt, hm, atOnce_iff.mpr h⟩))
  | staleChallenge cmd hd hc =>
    refine of hd (.inr (.inr (.inr (.inr ?_))))
    simp [State.encodesAsMeant, hc]
  | encodeUnderChangedKey cmd i hd hi hc =>
    refine of hd (.inr (.inr (.inr (.inr ?_))))
    simp [State.encodesAsMeant, encodesUnderKey_iff.mpr hi, encodeKeyReady_eq_false.mpr (.inl hc)]
  | encodeUnderOtherKey cmd i k hd hi hk hs =>
    refine of hd (.inr (.inr (.inr (.inr ?_))))
    simp [State.encodesAsMeant, encodesUnderKey_iff.mpr hi, encodeKeyReady_eq_false.mpr (.inr ⟨k, hk, hs⟩)]
  | changeStreamKey cmd i ho hd h =>
    refine of hd (.inr (.inr (.inl ?_)))
    rcases h with rfl | ⟨rfl, h⟩ <;> simp [State.keepsStreamKey, State.decodes, classify_changekey, *]
  | readOutsideFlash a b h =>
    simp only [State.mayMove, Bool.and_eq_false_iff, decide_eq_false_iff_not]
    omega

/-- A move that is made breaks no "must". -/
theorem not_breaks_of_mayMove {s : State} {m : HostMove} (h : s.mayMove m = true) : ¬ BreaksMust s m := by
  intro hb
  rw [mayMove_of_breaks hb] at h
  cases h

end Sys2Proof.Machine
end

