-- ==== Sys2Proof/Laws/PerInstr.lean ====
section
/-! SUPPORT. Facts about each instruction as syntax, one lemma per constructor. Family `LegalWord`: the instruction's
command word has fields that pass every check of spec/30_encoding.md R72, and four bytes. -/

namespace Sys2Proof.Laws.LegalWord

/-- The command word of `i` is well formed, is four bytes long, and its fields make it up. -/
def Statement (i : Instr) : Prop :=
  (CmdFields.ofWord (encode i)).wf = true ∧ (encodeBytes i).length = 4
    ∧ (CmdFields.ofWord (encode i)).toWord = encode i

theorem keyload : Statement .keyload := by unfold Statement; decide
theorem cbcenc : Statement .cbcenc := by unfold Statement; decide
theorem cbcdec : Statement .cbcdec := by unfold Statement; decide
theorem macinit : Statement .macinit := by unfold Statement; decide
theorem macupd : Statement .macupd := by unfold Statement; decide
theorem maccalc : Statement .maccalc := by unfold Statement; decide
theorem macstore : Statement .macstore := by unfold Statement; decide
theorem maccmp : Statement .maccmp := by unfold Statement; decide
theorem macvfy : Statement .macvfy := by unfold Statement; decide
theorem ctrload : Statement .ctrload := by unfold Statement; decide
theorem ctrstore : Statement .ctrstore := by unfold Statement; decide
theorem ctrxor : Statement .ctrxor := by unfold Statement; decide
theorem cntinc : Statement .cntinc := by unfold Statement; decide
theorem cntcmp : Statement .cntcmp := by unfold Statement; decide
theorem decode : Statement .decode := by unfold Statement; decide
theorem encodeSetaddr : Statement .encodeSetaddr := by unfold Statement; decide
theorem encodeProgram : Statement .encodeProgram := by unfold Statement; decide
theorem encodeChangekey : Statement .encodeChangekey := by unfold Statement; decide
theorem encodeAuth : Statement .encodeAuth := by unfold Statement; decide

end Sys2Proof.Laws.LegalWord
end

