-- ==== Sys2Proof/Tests/Slice0.lean ====
section
/-! SUPPORT. Tests: expected values are the spec's own (spec/95_test_vectors.md, and the examples of the rules), in its
instantiation V unless a test says otherwise; each test names its source. Then a witness for every statement with
hypotheses. -/

namespace Sys2Proof.Tests

open Sys2Proof.Machine

-- The tests run one after another: each is an evaluation in the kernel.
set_option Elab.async false

/-! ### Small states -/

/-- Instantiation V of 95_test_vectors.md section 0. -/
def paramsV : Params :=
  { pageLog := 0, bufExtra := 44, bootRaw := 0x7000, startApp := 0xFFFF#16, wideAddr := false, base := 0 }

/-- `K0 = 00 01 02 ... 1f`. -/
def keyK0 : Key := 0x000102030405060708090a0b0c0d0e0f101112131415161718191a1b1c1d1e1f#256

/-- `K1 = 20 21 ... 3f`. -/
def keyK1 : Key := 0x202122232425262728292a2b2c2d2e2f303132333435363738393a3b3c3d3e3f#256

/-- `P1`. -/
def blockP1 : Block := 0x00112233445566778899aabbccddeeff#128

/-- `P2`. -/
def blockP2 : Block := 0x000102030405060708090a0b0c0d0e0f#128

/-- The reset state in V. -/
def stateV : State := { State.reset with params := paramsV, key := keyK0 }

/-- Blocks written into BUF from an offset on. -/
def withBlocks (s : State) (a : Nat) (xs : List Block) : State :=
  { s with buf := Memory.writeBlocks s.buf a xs }

/-- A command word latched with operands, about to perform. -/
def latched (s : State) (i : Instr) (a l m : Nat) : State :=
  ({ s with arg0 := BitVec.ofNat 16 a, arg1 := BitVec.ofNat 16 l, msglen := BitVec.ofNat 16 m } : State).withFetchWord 32
    (encode i).toNat

/-- The next state of an outcome. -/
def nextOf : Host.Outcome State Fault Refusal → State
  | .next t => t
  | .fault _ => State.reset
  | .refused _ => State.reset

/-- One step of a latched operation. -/
def ran (s : State) (i : Instr) (a l m : Nat) : State :=
  nextOf (step (latched s i a l m))

/-- One step with a move on the bus. -/
def moved (s : State) (e : BusEvent) : State :=
  nextOf (step { s with bus := [e] })

/-! ### Well-formedness: an ill-formed command word for each check (R72) -/

theorem test_wf_refuses_unknown_opcode : (CmdFields.mk 0#20 0#4 0x0F#8).opcodeKnown = false := by decide

theorem test_wf_refuses_used_kind : (CmdFields.mk 0#20 1#4 0x02#8).kindUnused = false := by decide

theorem test_wf_refuses_kind_out_of_range : (CmdFields.mk 0#20 5#4 0x11#8).kindInRange = false := by decide

theorem test_wf_refuses_reserved_bits : (CmdFields.mk 1#20 0#4 0x02#8).reservedZero = false := by decide

theorem test_wf_refuses_the_words :
    (CmdFields.ofWord 0x0000000F#32).wf = false ∧ (CmdFields.ofWord 0x00000102#32).wf = false
    ∧ (CmdFields.ofWord 0x00000511#32).wf = false ∧ (CmdFields.ofWord 0x80000002#32).wf = false := by decide

/-! ### Decoding, from the words of R71 and 95_test_vectors.md section 2.2 -/

theorem test_decode_key_cbc :
    decodeWord 0x00000001#32 = .ok .keyload ∧ decodeWord 0x00000002#32 = .ok .cbcenc
    ∧ decodeWord 0x00000003#32 = .ok .cbcdec := by decide

theorem test_decode_mac :
    decodeWord 0x00000004#32 = .ok .macinit ∧ decodeWord 0x00000005#32 = .ok .macupd
    ∧ decodeWord 0x00000006#32 = .ok .maccalc ∧ decodeWord 0x00000007#32 = .ok .macstore
    ∧ decodeWord 0x00000008#32 = .ok .maccmp ∧ decodeWord 0x00000009#32 = .ok .macvfy := by decide

theorem test_decode_ctr :
    decodeWord 0x0000000A#32 = .ok .ctrload ∧ decodeWord 0x0000000B#32 = .ok .ctrstore
    ∧ decodeWord 0x0000000C#32 = .ok .ctrxor ∧ decodeWord 0x0000000D#32 = .ok .cntinc
    ∧ decodeWord 0x0000000E#32 = .ok .cntcmp := by decide

theorem test_decode_codec :
    decodeWord 0x00000010#32 = .ok .decode ∧ decodeWord 0x00000111#32 = .ok .encodeSetaddr
    ∧ decodeWord 0x00000211#32 = .ok .encodeProgram ∧ decodeWord 0x00000311#32 = .ok .encodeChangekey
    ∧ decodeWord 0x00000411#32 = .ok .encodeAuth := by decide

/-- OPCODE 0x11 in bits 7:0, KIND 2 in bits 11:8, written out bit by bit (R70), in the order of the bus lanes. -/
theorem test_decode_bits :
    decode [0b00010001#8, 0b00000010#8, 0b00000000#8, 0b00000000#8, 0xAA#8] = .ok (.encodeProgram, [0xAA#8]) := by decide

theorem test_decode_refuses :
    decodeWord 0x00000000#32 = .error .opcodeUnknown ∧ decodeWord 0x0000000F#32 = .error .opcodeUnknown
    ∧ decodeWord 0x00000012#32 = .error .opcodeUnknown ∧ decodeWord 0x000000FF#32 = .error .opcodeUnknown
    ∧ decodeWord 0x00000011#32 = .error .kindOutOfRange ∧ decodeWord 0x00000F11#32 = .error .kindOutOfRange
    ∧ decodeWord 0x00000110#32 = .error .kindNotZero ∧ decodeWord 0x00001002#32 = .error .reservedNotZero
    ∧ decode [0x01#8, 0x00#8, 0x00#8] = .error .truncated := by decide

theorem test_decode_table_word :
    decodeTableWord 32 0x00000411 = some .encodeAuth ∧ decodeTableWord 32 0x00000511 = none := by decide

/-! ### The block cipher (R103, R104, R109, 95_test_vectors.md section 2.1) -/

/-- R103's affine map, bit by bit. -/
def affine (c : Byte) : Byte :=
  BitVec.ofNat 8 ((List.range 8).foldl (fun sum i =>
    sum + 2 ^ i * (c.getLsbD i ^^ c.getLsbD ((i + 4) % 8) ^^ c.getLsbD ((i + 5) % 8) ^^ c.getLsbD ((i + 6) % 8)
      ^^ c.getLsbD ((i + 7) % 8) ^^ (0x63#8).getLsbD i).toNat) 0)

/-- A byte the affine map takes to a given byte. -/
def unaffine (b : Byte) : Byte :=
  BitVec.ofNat 8 ((List.range 8).foldl (fun sum i =>
    sum + 2 ^ i * (b.getLsbD ((i + 2) % 8) ^^ b.getLsbD ((i + 5) % 8) ^^ b.getLsbD ((i + 7) % 8) ^^ (0x05#8).getLsbD i).toNat) 0)

/-- R103: each entry of `S` is the affine map of the inverse of its index in GF(2^8), with `0^-1 = 0`, and `S^-1` inverts `S`. -/
theorem test_sbox_is_the_affine_map :
    ∀ i : Fin 256, let b := BitVec.ofNat 8 i.val; let c := unaffine (sbox b)
      affine c = sbox b ∧ gmul b c = (if i.val = 0 then 0#8 else 1#8) ∧ invSbox (sbox b) = b := by decide +kernel

theorem test_sbox_spot_values : sbox 0x00#8 = 0x63#8 ∧ sbox 0x53#8 = 0xed#8 ∧ invSbox 0x63#8 = 0x00#8 := by decide

/-- R104's example words. -/
theorem test_key_schedule :
    let ws := schedule keyK0
    (ws.getD 7 .zero).bits = 0x1c1d1e1f#32 ∧ (ws.getD 8 .zero).bits = 0xa573c29f#32
    ∧ (ws.getD 9 .zero).bits = 0xa176c498#32 ∧ (ws.getD 12 .zero).bits = 0x1651a8cd#32
    ∧ (ws.getD 59 .zero).bits = 0x6d68de36#32 := by decide +kernel

/-- R109: the known answer. -/
theorem test_encrypt_known_answer : encrypt keyK0 blockP1 = 0x8ea2b7ca516745bfeafc49904b496089#128 := by decide +kernel

theorem test_decrypt_known_answer : decrypt keyK0 0x8ea2b7ca516745bfeafc49904b496089#128 = blockP1 := by decide +kernel

theorem test_encrypt_other_keys :
    encrypt 0#256 0#128 = 0xdc95c078a2408989ad48a21492842087#128
    ∧ encrypt keyK1 blockP1 = 0x6f4c30c4282d3f501e82de570fdcbf25#128 := by decide +kernel

/-! ### KEYLOAD, CBCENC, CBCDEC (95_test_vectors.md section 2.4) -/

theorem test_keyload_loads :
    (ran { stateV with buf := Memory.writeStr [] 0xE0 keyK1 } .keyload 0xE0 0 0).key = keyK1 := by decide +kernel

theorem test_keyload_bounds :
    (ran stateV .keyload 0xE1 0 0).statusWord = 0x202#32 ∧ (ran stateV .keyload 0xE1 0 0).key = keyK0 := by decide +kernel

theorem test_cbcenc_vector :
    let t := ran (withBlocks stateV 0 [0x55555555555555555555555555555555#128, blockP1, blockP2]) .cbcenc 0 32 0
    Memory.readBlocks t.buf 0 3
      = [0#128, 0x8ea2b7ca516745bfeafc49904b496089#128, 0x73097fabbec85dde70c52f771a42d3c1#128]
    ∧ t.statusWord = 0#32 := by decide +kernel

theorem test_cbcenc_errors :
    (ran stateV .cbcenc 0 17 0).statusWord = 0x302#32 ∧ (ran stateV .cbcenc 240 16 0).statusWord = 0x202#32
    ∧ (ran stateV .cbcenc 0xFFF0 17 0).statusWord = 0x202#32 := by decide +kernel

theorem test_cbcdec_vector :
    let t := ran (withBlocks stateV 0 [0x77777777777777777777777777777777#128, 0x8ea2b7ca516745bfeafc49904b496089#128,
      0x73097fabbec85dde70c52f771a42d3c1#128]) .cbcdec 0 32 0
    Memory.readBlocks t.buf 0 3 = [0#128, blockP1, blockP2] := by decide +kernel

theorem test_cbcdec_exactly_in_bounds : (ran stateV .cbcdec 224 16 0).statusWord = 0#32 := by decide +kernel

/-! ### CBC-MAC (95_test_vectors.md section 2.5) -/

theorem test_macinit : (ran { stateV with acc := blockP1 } .macinit 0 0 0).acc = 0#128 := by decide +kernel

theorem test_macupd_vector :
    (ran (withBlocks stateV 0 [blockP1, blockP2]) .macupd 0 32 0).acc = 0x73097fabbec85dde70c52f771a42d3c1#128 := by
  decide +kernel

theorem test_macupd_misaligned :
    (ran { stateV with acc := blockP1 } .macupd 16 8 0).statusWord = 0x302#32
    ∧ (ran { stateV with acc := blockP1 } .macupd 16 8 0).acc = blockP1 := by decide +kernel

theorem test_maccalc_vector :
    let t := ran (withBlocks stateV 0 [blockP1, blockP2]) .maccalc 0 32 0
    Memory.readBlock t.buf 32 = 0x73097fabbec85dde70c52f771a42d3c1#128 ∧ t.acc = Memory.readBlock t.buf 32 := by
  decide +kernel

theorem test_maccalc_empty :
    Memory.readBlock (ran (withBlocks stateV 0 [blockP1]) .maccalc 0 0 0).buf 0 = 0#128 := by decide +kernel

theorem test_macstore : Memory.readBlock (ran { stateV with acc := blockP2 } .macstore 0x40 0 0).buf 0x40 = blockP2 := by
  decide +kernel

theorem test_maccmp_mismatch :
    (ran (withBlocks { stateV with acc := blockP1 } 0x40 [blockP1]) .maccmp 0x40 0 0).statusWord = 0#32
    ∧ (ran (withBlocks { stateV with acc := blockP1 } 0x40 [blockP1 ^^^ 1#128]) .maccmp 0x40 0 0).statusWord = 4#32 := by
  decide +kernel

theorem test_maccmp_bounds : (ran stateV .maccmp 0xF8 0 0).statusWord = 0x206#32 := by decide +kernel

/-- 95_test_vectors.md 1.3: BUF[5] flipped, and BUF[40] flipped. -/
theorem test_macvfy_residuals :
    let tag : Block := 0x73097fabbec85dde70c52f771a42d3c1#128
    let t := ran (withBlocks stateV 0 [0x00112233445466778899aabbccddeeff#128, blockP2, tag]) .macvfy 0 32 0
    let u := ran (withBlocks stateV 0 [blockP1, blockP2, tag ^^^ 0x8000000000000000#128]) .macvfy 0 32 0
    t.statusWord = 4#32 ∧ Memory.readBlock t.buf 32 = 0x00000000000100000000000000000000#128
    ∧ Memory.readBlock u.buf 32 = 0x60b6480bf2ffc21f13f8cf11bdb32891#128 := by decide +kernel

theorem test_macvfy_errors :
    (ran stateV .macvfy 0 8 0).statusWord = 0x306#32 ∧ (ran stateV .macvfy 0 256 0).statusWord = 0x206#32
    ∧ (ran (withBlocks stateV 0 [1#128]) .macvfy 0 0 0).statusWord = 4#32 := by decide +kernel

/-! ### CTR and counters (95_test_vectors.md section 2.6) -/

theorem test_ctrload :
    let t := ran (withBlocks { stateV with unused := 7 } 0x80 [blockP1]) .ctrload 0x80 0 0
    t.ctr = blockP1 ∧ t.ctrstatWord = 0#32 := by decide +kernel

theorem test_ctrstore : Memory.readBlock (ran { stateV with ctr := blockP2 } .ctrstore 0x90 0 0).buf 0x90 = blockP2 := by
  decide +kernel

theorem test_ctrxor_wraps :
    let t := ran { stateV with ctr := BitVec.allOnes 128, buf := Memory.writeBytes [] 16 (List.replicate 17 0#8) }
      .ctrxor 16 17 0
    Memory.readBlock t.buf 16 = 0xe999e41d4ca770da5387117b5d8f57ee#128 ∧ Memory.read t.buf 32 = 0xf2#8
    ∧ t.ctr = 0#128 ∧ t.unused = 15 := by decide +kernel

/-- R173's example: after the first call of five bytes, the second of eleven. -/
theorem test_ctrxor_continues :
    let c0 : Block := 0xf0f1f2f3f4f5f6f7f8f9fafbfcfdfeff#128
    let t := ran { stateV with ctr := c0, ks := 0x9200cd8d239680cb5a69e65440326314#128, unused := 11
                               buf := Memory.writeBytes [] 5 [0x45#8, 0x46#8] } .ctrxor 5 11 0
    Memory.readBytes t.buf 5 2 = [0xd3#8, 0xc6#8] ∧ t.ctr = c0 + 1#128 ∧ t.unused = 0 := by decide +kernel

theorem test_cntinc :
    Memory.readBlock (ran (withBlocks stateV 0 [0x0102030405060708090a0b0c0d0e0fff#128]) .cntinc 0 0 0).buf 0
      = 0x0102030405060708090a0b0c0d0e1000#128
    ∧ Memory.readBlock (ran (withBlocks stateV 0 [BitVec.allOnes 128]) .cntinc 0 0 0).buf 0 = 0#128 := by decide +kernel

theorem test_cntcmp :
    let s := withBlocks stateV 32 [0x01000000000000000000000000000000#128, 0x00ffffffffffffffffffffffffffffff#128]
    (ran s .cntcmp 32 48 0).resultWord = 0x200#32 ∧ (ran s .cntcmp 48 32 0).resultWord = 0x100#32
    ∧ (ran s .cntcmp 32 32 0).resultWord = 0#32 ∧ (ran s .cntcmp 0 0xF1 0).statusWord = 0x202#32 := by decide +kernel

/-! ### DECODE and ENCODE (95_test_vectors.md sections 2.7 and 2.8) -/

/-- The ENCODE.PROGRAM 0x0100 message of R217, at BUF[16..80). -/
def programMessage : List Block :=
  [0x00010000000000000000000000000000#128, 0xa0a1a2a3a4a5a6a7a8a9aaabacadaeaf#128,
   0xb0b1b2b3b4b5b6b7b8b9babbbcbdbebf#128, 0x8e69afc26f5ded7316ce652adeb235a0#128]

theorem test_decode_accepts :
    let p := ran (withBlocks stateV 16 programMessage) .decode 0 0 64
    let k := ran (withBlocks stateV 16 [0x61a6936e4e8f101c1cc1f993b542a0d4#128, 0x0f6eac919d8c733bee8593bf182cf16c#128,
      0xc1c43c48de3e48f81a3780d4b3c5c7b4#128]) .decode 0 0 48
    let r := ran (withBlocks stateV 16 [0x72b1e3384c734f2b73aac4ca8a4285a1#128, 0x08384ad7ccfe075f4a59d2cd098714f7#128])
      .decode 0 0 32
    let x := ran { stateV with buf := [(16, 0xff#8), (17, 0xff#8)] } .decode 0 0 2
    let a := ran { stateV with buf := [(16, 0x34#8), (17, 0x12#8)] } .decode 0 0 2
    p.statusWord = 0x008#32 ∧ p.resultWord = 0x032#32 ∧ p.pgaddr = 0x100#32 ∧ Memory.readBlock p.buf 64 = 0#128
    ∧ k.resultWord = 0x043#32 ∧ k.key = keyK1 ∧ Memory.readKey k.buf 16 = keyK1 ∧ Memory.readBlock k.buf 48 = 0#128
    ∧ r.resultWord = 0x054#32 ∧ Memory.readBlock r.buf 16 = 0x0f0e0d0c0b0a09080706050403020100#128
    ∧ x.statusWord = 0x018#32 ∧ x.resultWord = 0x021#32 ∧ a.resultWord = 0x011#32 ∧ a.rdaddr = 0x1234#32 := by
  decide +kernel

theorem test_decode_rejects :
    let p := ran (withBlocks stateV 16 (programMessage.set 3 0x8e69afc26f5ded7316ce652adeb235a1#128)) .decode 0 0 64
    let q := ran (withBlocks stateV 16 (programMessage.set 0 0x10010000000000000000000000000000#128)) .decode 0 0 64
    let k := ran (withBlocks stateV 16 [0x60a6936e4e8f101c1cc1f993b542a0d4#128, 0x0f6eac919d8c733bee8593bf182cf16c#128,
      0xc1c43c48de3e48f81a3780d4b3c5c7b4#128]) .decode 0 0 48
    let x := ran { stateV with exited := true, buf := [(16, 0x34#8), (17, 0x12#8)] } .decode 0 0 2
    p.statusWord = 0#32 ∧ p.resultWord = 2#32 ∧ Memory.readBlock p.buf 64 = 0x90ea5b5c68f0a8921719e431314ff92c#128
    ∧ q.resultWord = 2#32 ∧ Memory.readBlock q.buf 64 = 0x8e69afc26f5ded7316ce652adeb235a0#128
    ∧ k.resultWord = 3#32 ∧ k.key = keyK0 ∧ Memory.readBlock k.buf 48 = 0x01000000000000000000000000000000#128
    ∧ x.statusWord = 0x010#32 ∧ x.resultWord = 1#32 ∧ (ran stateV .decode 0 0 33).resultWord = 0#32 := by
  decide +kernel

/-- R210's example: V with wide addresses and the reserved region from 0x1F000 on. -/
theorem test_widen :
    let p := { paramsV with wideAddr := true, bootRaw := 0x1F000 }
    widen p 0x0800#16 = 0x10000 ∧ widen p 0x0F80#16 = p.bootStart ∧ p.addrBits = 21 := by decide

theorem test_encode_setaddr :
    let t := ran stateV .encodeSetaddr 0 0x1234 0
    Memory.readBytes t.buf 16 2 = [0x34#8, 0x12#8] ∧ t.msglen = 2#16 ∧ t.resultWord = 1#32 := by decide +kernel

theorem test_encode_program :
    let t := ran (withBlocks stateV 32 [0xa0a1a2a3a4a5a6a7a8a9aaabacadaeaf#128, 0xb0b1b2b3b4b5b6b7b8b9babbbcbdbebf#128])
      .encodeProgram 0 0x0100 0
    Memory.readBlocks t.buf 16 4 = programMessage ∧ t.msglen = 64#16 ∧ t.resultWord = 2#32
    ∧ t.acc = 0x8e69afc26f5ded7316ce652adeb235a0#128 := by decide +kernel

theorem test_encode_changekey :
    let t := ran { stateV with buf := Memory.writeStr [] 16 keyK1 } .encodeChangekey 0 0 0
    Memory.readBlocks t.buf 0 4 = [0#128, 0x61a6936e4e8f101c1cc1f993b542a0d4#128, 0x0f6eac919d8c733bee8593bf182cf16c#128,
      0xc1c43c48de3e48f81a3780d4b3c5c7b4#128] ∧ t.msglen = 48#16 ∧ t.key = keyK0 := by decide +kernel

theorem test_encode_auth :
    let t := ran (withBlocks stateV 16 [0x0f0e0d0c0b0a09080706050403020100#128]) .encodeAuth 0 0 0
    Memory.readBlocks t.buf 16 2 = [0x72b1e3384c734f2b73aac4ca8a4285a1#128, 0x08384ad7ccfe075f4a59d2cd098714f7#128]
    ∧ t.msglen = 32#16 ∧ t.resultWord = 4#32 := by decide +kernel

/-! ### The bus (95_test_vectors.md section 2.3) and reset (section 2.10) -/

theorem test_bus_write_lanes :
    Memory.readBytes (moved stateV (.write .word 0x8000#16 0x44332211#32)).buf 0 4 = [0x11#8, 0x22#8, 0x33#8, 0x44#8] := by
  decide +kernel

theorem test_bus_read_lanes :
    let s := { stateV with buf := Memory.writeLe [] 0 4 0x44332211 }
    (moved s (.read .byte 0x8000#16)).responses = [0x11#32] ∧ (moved s (.read .half 0x8002#16)).responses = [0x4433#32]
    ∧ (moved s (.read .half 0x8001#16)).responses = [0#32] ∧ (moved s (.read .word 0x8100#16)).responses = [0#32] := by
  decide +kernel

theorem test_bus_misaligned_write :
    (moved stateV (.write .word 0x8002#16 0xAABBCCDD#32)).buf = [] ∧
    (moved stateV (.write .half 0x0004#16 1#32)).arg0 = 0#16 := by decide +kernel

theorem test_bus_register_write :
    (moved stateV (.write .word 0x0004#16 0x12345678#32)).arg0 = 0x5678#16
    ∧ (moved stateV (.write .word 0x0010#16 0xFF#32)).statusWord = 0#32 := by decide +kernel

/-- P4 of section 3: MACINIT issued, then ARG0 written while BUSY. -/
theorem test_bus_collision :
    let s := { moved stateV (.write .word 0x0000#16 0x00000004#32) with wait := 1 }
    (moved s (.write .word 0x0004#16 0x55#32)).statusWord = 0x021#32
    ∧ (moved s (.write .word 0x0004#16 0x55#32)).arg0 = 0#16 := by decide +kernel

theorem test_illegal_word :
    (nextOf (step (stateV.withFetchWord 32 0x00000012))).statusWord = 0x102#32 := by decide +kernel

/-- R77's worked encoding. -/
theorem test_assemble_example :
    assemble (expand .macvfy [0x10#32, 0x30#32])
      = [.write .word 0x0004#16 0x00000010#32, .write .word 0x0008#16 0x00000030#32, .write .word 0x0000#16 0x00000009#32,
         .poll] := by decide

/-- The last byte of the window, and the byte after it, which is no access of the block (notes/assumptions/17.md). -/
theorem test_assemble_window_end :
    (AsmLine.wrb 0x7FFF [1#8, 2#8]).events = [.write .byte 0xFFFF#16 1#32] ∧ (AsmLine.rdb 0x10000 1).events = [] := by decide

/-- R256 row "wait": the host of P4's collision does not make it. -/
theorem test_host_waits :
    let s := { moved stateV (.host (.write .word 0x0000#16 0x00000004#32)) with wait := 1 }
    s.busy = true ∧ (moved s (.host (.write .word 0x0004#16 0x55#32))).statusWord = 0x001#32
    ∧ (moved s (.host (.read .word 0x0010#16))).responses = [0x001#32] := by decide +kernel

/-- R256 row KEY_CHANGED, and P2: the accepted ChangeKey, seen by a poll, is persisted as K1; then each byte is owed a scrub. -/
theorem test_host_persists :
    let s := { stateV with buf := Memory.writeStr [] 16 keyK1, action := .keyChanged
                           duties := { Duties.fresh with awaited := some ⟨0x10#32, true⟩ } }
    let t := moved s (.host .poll)
    let u := moved t (.host .persistKey)
    t.duties.debts = [.persist] ∧ Memory.read (moved t (.host (.write .byte 0x8010#16 0#32))).buf 16 = 0x20#8
    ∧ u.duties.deeds = [.persisted keyK1] ∧ u.duties.debts = [.scrub (List.range' 16 32)]
    ∧ Memory.read (moved u (.host (.write .byte 0x8010#16 0#32))).buf 16 = 0#8
    ∧ (moved u (.host (.write .word 0x8010#16 0#32))).duties.debts = [.scrub (List.range' 20 28)] := by decide +kernel

/-- R256 row "issue an operation": KEYLOAD is not issued before ARG0 is written, and is after. -/
theorem test_host_sets_up :
    (moved stateV (.host (.write .word 0x0000#16 0x00000001#32))).busy = false
    ∧ (moved (moved stateV (.host (.write .word 0x0004#16 0#32))) (.host (.write .word 0x0000#16 0x00000001#32))).busy = true := by
  decide +kernel

/-- R256 row "CTR streams": no KEYLOAD while the stream is wanted under one key. -/
theorem test_host_keeps_stream_key :
    (moved { stateV with duties := { Duties.fresh with arg0Written := true, oneStreamKey := true } }
      (.host (.write .word 0x0000#16 0x00000001#32))).busy = false := by decide +kernel

/-- R256 row "host-side encoding", R257: after a ChangeKey the host encodes only when it has loaded the new key. -/
theorem test_host_loads_its_key :
    let s := { stateV with duties := { Duties.fresh with keySource := .changed, arg0Written := true } }
    (moved s (.host (.write .word 0x0000#16 0x00000411#32))).busy = false
    ∧ (moved s (.host (.write .word 0x0000#16 0x00000001#32))).duties.keySource = .loaded (Memory.readKey stateV.buf 0)
    ∧ (moved { s with duties := { s.duties with keySource := .loaded keyK1 } }
        (.host (.write .word 0x0000#16 0x00000411#32))).busy = true := by
  exact ⟨by decide +kernel, rfl, by decide +kernel⟩

theorem test_window_offset :
    paramsV.windowOffset 0xFFFF = some 0xFFFF#16 ∧ paramsV.windowOffset 0x10000 = none := by decide

theorem test_reset_values :
    State.reset.statusWord = 0#32 ∧ State.reset.resultWord = 0#32 ∧ State.reset.ctrstatWord = 0#32 := by decide +kernel

theorem test_reset_abandons :
    let s := { moved stateV (.write .word 0x0000#16 0x00000004#32) with wait := 1, acc := blockP1 }
    let t := moved s (.reset keyK1 [0xAB#8])
    t.statusWord = 0#32 ∧ t.key = keyK1 ∧ t.acc = 0#128 ∧ Memory.read t.buf 0 = 0xAB#8 := by decide +kernel

/-! ### Witnesses: for each statement with hypotheses, a state and operands that meet them, clause by clause -/

/-- With these moves to come on the bus. -/
def hosting (s : State) (es : List BusEvent) : State :=
  { s with bus := es }

/-- With MACINIT in flight and a latency of `n` turns to pass. -/
def waiting (s : State) (n : Nat) : State :=
  { latched s .macinit 0 0 0 with wait := n }

/-- The instruction with the operands `a`, `l`, `m` latched in V, about to perform. -/
def about (i : Instr) (a l m : Nat) : State :=
  latched stateV i a l m

/-- MACINIT about to be issued. -/
def issuing : State :=
  hosting stateV [.write .word 0#16 4#32]

theorem witness_IllegalWordsRaiseIllegal :
    issuing.latch = none ∧ issuing.bus = .write .word 0#16 4#32 :: []
    ∧ (let s := stateV.withFetchWord 32 0x511
       s.wait = 0 ∧ (s.latch.map Latch.cmd) = some 0x511#32 ∧ decodeWord 0x511#32 = .error .kindOutOfRange) := by
  decide +kernel

theorem witness_StepPerformsDecodedCommand :
    (about .encodeAuth 0 0 0).wait = 0 ∧ (about .encodeAuth 0 0 0).latch.map Latch.cmd = some 0x411#32
    ∧ decodeWord 0x411#32 = .ok .encodeAuth := by decide +kernel

theorem witness_OtherStepsAreHostTurns :
    (waiting stateV 1).busy = true ∧ (waiting stateV 1).wait = 0 + 1 ∧ issuing.busy = false
    ∧ stateV.busy = false ∧ stateV.bus = []
    ∧ (hosting (waiting stateV 1) [.poll]).busy = true ∧ (hosting (waiting stateV 1) [.poll]).bus = .poll :: []
    ∧ (hosting (waiting stateV 1) [.host .poll]).bus = .host .poll :: []
    ∧ (hosting stateV [.poll]).busy = false ∧ (hosting stateV [.poll]).bus = .poll :: [] := by decide +kernel

theorem witness_OperandsAreTheLatchedRegisters :
    issuing.latch = none ∧ issuing.bus = .write .word 0#16 4#32 :: []
    ∧ (∃ t, step issuing = .next t ∧ t.latch = t.latch) := by exact ⟨rfl, rfl, _, rfl, rfl⟩

theorem witness_CommandWriteIssues :
    issuing.latch = none ∧ issuing.bus = .write .word 0#16 4#32 :: [] := by exact ⟨rfl, rfl⟩

/-- Two turns to pass with a reset only in the third. -/
theorem witness_IssuedOperationPerforms :
    let s := hosting (waiting stateV 2) [.poll, .write .byte 0#16 0#32, .reset keyK1 []]
    s.latch.isSome = true ∧ s.wait = 2 ∧ ∀ e ∈ s.bus.take s.wait, ∀ k image, e ≠ .reset k image := by
  refine ⟨by decide +kernel, rfl, ?_⟩
  intro e he
  obtain rfl | rfl : e = .poll ∨ e = .write .byte 0#16 0#32 := by simpa [hosting, waiting] using he
  all_goals exact fun _ _ h => nomatch h

theorem witness_ResetLeavesTheSpecValues :
    (let s := hosting stateV [.reset keyK1 [1#8]]
     s.latch = none ∧ s.bus = .reset keyK1 [1#8] :: [])
    ∧ (hosting (waiting stateV 1) [.reset keyK1 []]).wait ≠ 0 := by decide +kernel

theorem witness_WritesWhileBusyOnlyCollide :
    let s := hosting (waiting stateV 1) [.write .word 0#16 4#32]
    s.busy = true ∧ s.wait = 0 + 1 ∧ s.bus = .write .word 0#16 4#32 :: [] := by decide +kernel

theorem witness_ReadsReturn :
    (let s := hosting (waiting stateV 1) [.read .word 0x0010#16]
     s.busy = true ∧ s.wait = 0 + 1 ∧ s.bus = .read .word 0x0010#16 :: [])
    ∧ (hosting (waiting stateV 1) [.read .word 0x0004#16]).bus = .read .word 0x0004#16 :: []
    ∧ (hosting (waiting stateV 1) [.read .word 0x0008#16]).bus = .read .word 0x0008#16 :: []
    ∧ (let s := hosting stateV [.read .word 0x0000#16]
       s.busy = false ∧ s.bus = .read .word 0x0000#16 :: [])
    ∧ (let s := hosting stateV [.read .word 0x0020#16]
       s.busy = false ∧ s.bus = .read .word 0x0020#16 :: [])
    ∧ (let s := hosting stateV [.read .byte (BitVec.ofNat 16 (0x8000 + 255))]
       255 < s.params.bufSize ∧ s.bus = .read .byte (BitVec.ofNat 16 (0x8000 + 255)) :: []) := by decide +kernel

theorem witness_ReadsHaveNoSideEffects :
    (let s := hosting (waiting stateV 1) [.read .byte 0xFFFF#16]
     s.busy = true ∧ s.wait ≠ 0 ∧ s.bus = .read .byte 0xFFFF#16 :: [])
    ∧ (hosting stateV [.read .half 0x8002#16]).busy = false := by decide +kernel

/-- The last word and the last byte of BUF. -/
theorem witness_BufLanesAreLittleEndian :
    (let s := hosting stateV [.write .word (BitVec.ofNat 16 (0x8000 + 252)) 1#32]
     s.busy = false ∧ 252 % Width.word.bytes = 0 ∧ 252 + Width.word.bytes = s.params.bufSize
     ∧ s.bus = .write .word (BitVec.ofNat 16 (0x8000 + 252)) 1#32 :: [])
    ∧ (let s := hosting stateV [.read .byte (BitVec.ofNat 16 (0x8000 + 255))]
       255 % Width.byte.bytes = 0 ∧ 255 + Width.byte.bytes = s.params.bufSize
       ∧ s.bus = .read .byte (BitVec.ofNat 16 (0x8000 + 255)) :: []) := by decide +kernel

/-- The edge of the register window, a half word, the first and the last reserved register, and the first byte past BUF,
idle and busy. -/
theorem witness_MisplacedAccessesAreIgnored :
    ((0x0024#16).toNat < 0x8000 ∧ 0x0024 ≤ (0x0024#16).toNat) ∧ ((0x7FFC#16).toNat < 0x8000 ∧ 0x0024 ≤ (0x7FFC#16).toNat)
    ∧ (hosting stateV [.read .word 0x7FFC#16]).bus = .read .word 0x7FFC#16 :: []
    ∧ ((0x7FFF#16).toNat < 0x8000 ∧ (0x7FFF#16).toNat % 4 ≠ 0) ∧ ((0x0004#16).toNat < 0x8000 ∧ Width.half ≠ .word)
    ∧ (0x8000 ≤ (0x8002#16).toNat ∧ (0x8002#16).toNat % Width.word.bytes ≠ 0)
    ∧ stateV.params.bufSize < (0x8100#16).toNat - 0x8000 + Width.byte.bytes
    ∧ (hosting stateV [.write .byte 0x8100#16 1#32]).busy = false
    ∧ (hosting stateV [.read .byte 0x8100#16]).bus = .read .byte 0x8100#16 :: []
    ∧ (hosting (waiting stateV 1) [.write .byte 0x8100#16 1#32]).busy = true
    ∧ (hosting (waiting stateV 1) [.write .byte 0x8100#16 1#32]).wait = 0 + 1 := by decide +kernel

/-- One offset for each clause; the last is the last of the register window. -/
theorem witness_RegisterWritesTakeLowHalf :
    (∀ o ∈ [0x0004, 0x0008, 0x000C, 0x0010, 0x7FFC],
      (BitVec.ofNat 16 o).toNat < 0x8000 ∧ (BitVec.ofNat 16 o).toNat % 4 = 0 ∧ BitVec.ofNat 16 o ≠ 0#16)
    ∧ ∀ o : Half, (hosting stateV [.write .word o 0xFFFFFFFF#32]).busy = false
      ∧ (hosting stateV [.write .word o 0xFFFFFFFF#32]).bus = .write .word o 0xFFFFFFFF#32 :: [] := by
  exact ⟨by decide, fun o => ⟨rfl, rfl⟩⟩

theorem witness_StatusAndResultLayout : ({ stateV with unused := 16 } : State).unused ≤ 16 := by decide +kernel

theorem witness_PseudoInstructionsIssue :
    let s := hosting stateV (assemble (expand .cntcmp [1#32, 2#32]))
    Instr.cntinc ∈ [Instr.keyload, .macstore, .maccmp, .ctrload, .ctrstore, .cntinc]
    ∧ Instr.cntcmp ∈ [Instr.cbcenc, .cbcdec, .macupd, .maccalc, .macvfy, .ctrxor, .cntcmp]
    ∧ Instr.encodeProgram ∈ [Instr.encodeSetaddr, .encodeProgram] ∧ Instr.encodeAuth ∈ [Instr.macinit, .encodeChangekey, .encodeAuth]
    ∧ s.busy = false ∧ [1#32, 2#32].length = (operandRegs .cntcmp).length
    ∧ s.bus = assemble (expand .cntcmp [1#32, 2#32]) ++ [] := by decide +kernel

/-- BUF has 256 bytes: 224 is the last offset of a key, 225 the first out of bounds. -/
theorem witness_KeyloadLoadsTheKey :
    (about .keyload 224 0 0).opA + 32 = (about .keyload 224 0 0).params.bufSize
    ∧ (about .keyload 225 0 0).params.bufSize < (about .keyload 225 0 0).opA + 32 := by decide +kernel

/-- The last region in bounds, the same with a length off a block boundary, and one block too far. -/
theorem witness_CbcencEncryptsInPlace :
    (about .cbcenc 208 32 0).opA + 16 + (about .cbcenc 208 32 0).opL = (about .cbcenc 208 32 0).params.bufSize
    ∧ (about .cbcenc 208 32 0).opL % 16 = 0
    ∧ (about .cbcenc 209 31 0).opA + 16 + (about .cbcenc 209 31 0).opL = (about .cbcenc 209 31 0).params.bufSize
    ∧ (about .cbcenc 209 31 0).opL % 16 ≠ 0
    ∧ (about .cbcenc 209 32 0).params.bufSize < (about .cbcenc 209 32 0).opA + 16 + (about .cbcenc 209 32 0).opL := by
  decide +kernel

theorem witness_CbcdecDecryptsInPlace :
    (about .cbcdec 208 32 0).opA + 16 + (about .cbcdec 208 32 0).opL = (about .cbcdec 208 32 0).params.bufSize
    ∧ (about .cbcdec 208 32 0).opL % 16 = 0
    ∧ (about .cbcdec 209 31 0).opA + 16 + (about .cbcdec 209 31 0).opL = (about .cbcdec 209 31 0).params.bufSize
    ∧ (about .cbcdec 209 31 0).opL % 16 ≠ 0
    ∧ (about .cbcdec 209 32 0).params.bufSize < (about .cbcdec 209 32 0).opA + 16 + (about .cbcdec 209 32 0).opL := by
  decide +kernel

theorem witness_CbcRoundTrips :
    let s := about .cbcenc 208 32 0
    s.opA + 16 + s.opL = s.params.bufSize ∧ s.opL % 16 = 0
    ∧ ∃ t t' : State, exec .cbcenc s = .next t ∧ exec .cbcdec s = .next t'
      ∧ (let r : State := { s with buf := t.buf }; let r' : State := { s with buf := t'.buf }
         r.buf = t.buf ∧ r'.buf = t'.buf ∧ r.key = s.key ∧ r.params = s.params ∧ r.opA = s.opA ∧ r.opL = s.opL
         ∧ r'.key = s.key ∧ r'.params = s.params ∧ r'.opA = s.opA ∧ r'.opL = s.opL) := by
  exact ⟨by decide +kernel, by decide +kernel, _, _, rfl, rfl, rfl, rfl, rfl, rfl, rfl, rfl, rfl, rfl, rfl, rfl⟩

theorem witness_MacinitClearsTheTag :
    ∃ t : State, exec .macinit (about .macinit 0 0 0) = .next t
      ∧ (let r : State := { about .macstore 240 0 0 with acc := t.acc }
         r.acc = t.acc ∧ r.opA + 16 ≤ r.params.bufSize) := by
  exact ⟨_, rfl, rfl, by decide +kernel⟩

theorem witness_MacupdAbsorbsBlocks :
    (about .macupd 224 32 0).opA + (about .macupd 224 32 0).opL = (about .macupd 224 32 0).params.bufSize
    ∧ (about .macupd 224 32 0).opL % 16 = 0
    ∧ (about .macupd 225 31 0).opA + (about .macupd 225 31 0).opL = (about .macupd 225 31 0).params.bufSize
    ∧ (about .macupd 225 31 0).opL % 16 ≠ 0
    ∧ (about .macupd 225 32 0).params.bufSize < (about .macupd 225 32 0).opA + (about .macupd 225 32 0).opL := by
  decide +kernel

theorem witness_MaccalcAppendsTheTag :
    (about .maccalc 208 32 0).opA + (about .maccalc 208 32 0).opL + 16 = (about .maccalc 208 32 0).params.bufSize
    ∧ (about .maccalc 208 32 0).opL % 16 = 0
    ∧ (about .maccalc 209 31 0).opA + (about .maccalc 209 31 0).opL + 16 = (about .maccalc 209 31 0).params.bufSize
    ∧ (about .maccalc 209 31 0).opL % 16 ≠ 0
    ∧ (about .maccalc 209 32 0).params.bufSize < (about .maccalc 209 32 0).opA + (about .maccalc 209 32 0).opL + 16 := by
  decide +kernel

theorem witness_MacstoreWritesTheTag :
    (about .macstore 240 0 0).opA + 16 = (about .macstore 240 0 0).params.bufSize
    ∧ (about .macstore 241 0 0).params.bufSize < (about .macstore 241 0 0).opA + 16 := by decide +kernel

theorem witness_MaccmpComparesAllBytes :
    (about .maccmp 240 0 0).opA + 16 = (about .maccmp 240 0 0).params.bufSize
    ∧ (about .maccmp 241 0 0).params.bufSize < (about .maccmp 241 0 0).opA + 16 := by decide +kernel

/-- As MACCALC's, and the empty walk with its tag slot last in BUF. -/
theorem witness_MacvfyWalksBackward :
    (about .macvfy 208 32 0).opA + (about .macvfy 208 32 0).opL + 16 = (about .macvfy 208 32 0).params.bufSize
    ∧ (about .macvfy 208 32 0).opL % 16 = 0
    ∧ (about .macvfy 240 0 0).opA + (about .macvfy 240 0 0).opL + 16 = (about .macvfy 240 0 0).params.bufSize
    ∧ (about .macvfy 240 0 0).opL = 0
    ∧ (about .macvfy 209 31 0).opA + (about .macvfy 209 31 0).opL + 16 = (about .macvfy 209 31 0).params.bufSize
    ∧ (about .macvfy 209 31 0).opL % 16 ≠ 0
    ∧ (about .macvfy 209 32 0).params.bufSize < (about .macvfy 209 32 0).opA + (about .macvfy 209 32 0).opL + 16 := by
  decide +kernel

theorem witness_MacvfyAcceptsExactlyTheMac :
    (about .macvfy 208 32 0).opA + (about .macvfy 208 32 0).opL + 16 = (about .macvfy 208 32 0).params.bufSize
    ∧ (about .macvfy 208 32 0).opL % 16 = 0 := by decide +kernel

/-- A message of one block, verified, and the same with its block, or its tag, changed. -/
theorem witness_MacvfyDetectsTampering :
    let s := withBlocks (about .macvfy 224 16 0) 224 [blockP1, 0x8ea2b7ca516745bfeafc49904b496089#128]
    let r := withBlocks s 224 [blockP2]
    let q := withBlocks s 240 [blockP2]
    s.opA + s.opL + 16 = s.params.bufSize ∧ s.opL % 16 = 0 ∧ (performMacvfy s).mismatch = false
    ∧ Memory.readBlock r.buf (s.opA + 16 * 0) ≠ Memory.readBlock s.buf (s.opA + 16 * 0)
    ∧ Memory.readBlock r.buf (s.opA + 16 * 1) = Memory.readBlock s.buf (s.opA + 16 * 1)
    ∧ Memory.readBlock q.buf (s.opA + 16 * 1) ≠ Memory.readBlock s.buf (s.opA + 16 * 1)
    ∧ Memory.readBlock q.buf (s.opA + 16 * 0) = Memory.readBlock s.buf (s.opA + 16 * 0) := by decide +kernel

theorem witness_MacIsTheLastCbcBlock :
    let s := about .cbcenc 224 16 0
    let r := about .macupd 240 16 0
    s.opA + 16 + s.opL = s.params.bufSize ∧ s.opL % 16 = 0 ∧ 0 < s.opL ∧ r.buf = s.buf ∧ r.key = s.key
    ∧ r.params = s.params ∧ r.acc = 0#128 ∧ r.opA = s.opA + 16 ∧ r.opL = s.opL := by decide +kernel

theorem witness_CtrloadStartsAStream :
    (about .ctrload 240 0 0).opA + 16 = (about .ctrload 240 0 0).params.bufSize
    ∧ (about .ctrload 241 0 0).params.bufSize < (about .ctrload 241 0 0).opA + 16 := by decide +kernel

theorem witness_CtrstoreWritesTheCounter :
    (about .ctrstore 240 0 0).opA + 16 = (about .ctrstore 240 0 0).params.bufSize
    ∧ (about .ctrstore 241 0 0).params.bufSize < (about .ctrstore 241 0 0).opA + 16 := by decide +kernel

theorem witness_CtrxorAppliesTheKeystream :
    (about .ctrxor 255 1 0).opA + (about .ctrxor 255 1 0).opL = (about .ctrxor 255 1 0).params.bufSize
    ∧ (about .ctrxor 256 0 0).opA + (about .ctrxor 256 0 0).opL = (about .ctrxor 256 0 0).params.bufSize
    ∧ (about .ctrxor 255 2 0).params.bufSize < (about .ctrxor 255 2 0).opA + (about .ctrxor 255 2 0).opL
    ∧ (about .ctrxor 255 1 0).unused = 0 ∧ ({ about .ctrxor 255 1 0 with unused := 1 } : State).unused ≠ 0 := by
  decide +kernel

theorem witness_CtrStreamIsTheCounterKeystream :
    (about .ctrxor 239 17 0).opA + (about .ctrxor 239 17 0).opL = (about .ctrxor 239 17 0).params.bufSize
    ∧ (about .ctrxor 239 17 0).unused = 0 := by decide +kernel

/-- Seventeen bytes in one call, or five and then twelve, the second call on what the first left. -/
theorem witness_CtrxorIsChunkingIndependent :
    let s := about .ctrxor 239 17 0
    let r := about .ctrxor 239 5 0
    let u := performCtrxor r
    let q := { about .ctrxor 244 12 0 with buf := u.buf, ctr := u.ctr, ks := u.ks, unused := u.unused }
    exec .ctrxor r = .next u ∧ q.buf = u.buf ∧ q.ctrContext = u.ctrContext
    ∧ s.opA + s.opL = s.params.bufSize ∧ s.opL = r.opL + q.opL ∧ r.params = s.params ∧ r.opA = s.opA ∧ r.buf = s.buf
    ∧ r.key = s.key ∧ r.ctrContext = s.ctrContext ∧ q.params = s.params ∧ q.opA = s.opA + r.opL ∧ q.key = s.key := by
  refine ⟨rfl, rfl, rfl, ?_⟩
  decide +kernel

theorem witness_CntincAddsOne :
    (about .cntinc 240 0 0).opA + 16 = (about .cntinc 240 0 0).params.bufSize
    ∧ (about .cntinc 241 0 0).params.bufSize < (about .cntinc 241 0 0).opA + 16 := by decide +kernel

theorem witness_CntcmpComparesLexicographically :
    (about .cntcmp 0 240 0).opA + 16 ≤ (about .cntcmp 0 240 0).params.bufSize
    ∧ (about .cntcmp 0 240 0).opB + 16 = (about .cntcmp 0 240 0).params.bufSize
    ∧ (about .cntcmp 241 0 0).params.bufSize < (about .cntcmp 241 0 0).opA + 16
    ∧ (about .cntcmp 0 241 0).params.bufSize < (about .cntcmp 0 241 0).opB + 16 := by decide +kernel

/-- One more than each of the four lengths. -/
theorem witness_DecodeRejectsMalformedLength :
    (∀ m ∈ [0, 3, 33, 49, 65], (about .decode 0 0 m).opM ≠ 2
      ∧ (about .decode 0 0 m).opM ≠ (about .decode 0 0 m).params.pageSize + 32
      ∧ (about .decode 0 0 m).opM ≠ 48 ∧ (about .decode 0 0 m).opM ≠ 32)
    ∧ (about .decode 0 0 33).resultWord = 0#32 := by decide +kernel

theorem witness_DecodeRejectsAfterExit :
    ({ about .decode 0 0 2 with exited := true } : State).exited = true
    ∧ Instr.encodeAuth ≠ .decode
    ∧ exec .encodeAuth (about .encodeAuth 0 0 0) = .next (performEncodeAuth (about .encodeAuth 0 0 0)) := by
  exact ⟨rfl, by decide, rfl⟩

/-- The sentinel and the address before it. -/
theorem witness_DecodeSetaddress :
    let s := { about .decode 0 0 2 with buf := [(16, 0xFF#8), (17, 0xFF#8)] }
    let r := { about .decode 0 0 2 with buf := [(16, 0xFE#8), (17, 0xFF#8)] }
    s.opM = 2 ∧ s.exited = false ∧ (Memory.read s.buf 16).toNat + 256 * (Memory.read s.buf 17).toNat = s.params.startApp.toNat
    ∧ (Memory.read r.buf 16).toNat + 256 * (Memory.read r.buf 17).toNat ≠ r.params.startApp.toNat := by decide +kernel

/-- DECODE of a ProgramPage with the wire address `w`, fourteen bytes of padding, a zero payload and a zero tag. -/
def aboutPage (w : Nat) (padding : Nat) : State :=
  { about .decode 0 0 64 with
    buf := Memory.writeBlocks (Memory.writeStr (Memory.writeLe [] 16 2 w) 18 (BitVec.ofNat 112 padding)) 32 [0#128, 0#128, 0#128] }

/-- An address off a page boundary, the first reserved address, and padding whose last byte is not zero. -/
theorem witness_DecodeProgramAddressPolicy :
    (aboutPage 0x101 0).opM = (aboutPage 0x101 0).params.pageSize + 32 ∧ (aboutPage 0x101 0).exited = false
    ∧ (let s := aboutPage 0x101 0
       ((Memory.read s.buf 16).toNat + 256 * (Memory.read s.buf 17).toNat) % s.params.pageSize ≠ 0)
    ∧ (let s := aboutPage 0x7000 0
       s.params.wideAddr = false ∧ s.params.bootStart = (Memory.read s.buf 16).toNat + 256 * (Memory.read s.buf 17).toNat)
    ∧ Memory.read (aboutPage 0x6FE0 1).buf (18 + 13) ≠ 0#8 := by decide +kernel

/-- The highest page below the reserved region with a wrong tag, and R217's message. -/
theorem witness_DecodeProgramChecksTheMac :
    (let s := aboutPage 0x6FE0 0
     let w := (Memory.read s.buf 16).toNat + 256 * (Memory.read s.buf 17).toNat
     s.opM = s.params.pageSize + 32 ∧ s.exited = false ∧ s.params.wideAddr = false ∧ w % s.params.pageSize = 0
     ∧ w < s.params.bootStart ∧ (∀ i, i < 14 → Memory.read s.buf (18 + i) = 0#8)
     ∧ Memory.readBlock s.buf (32 + s.params.pageSize) ≠ cbcMac s.key (Memory.readBlocks s.buf 16 (s.params.pageSize / 16 + 1)))
    ∧ (let s := withBlocks (about .decode 0 0 64) 16 programMessage
       (Memory.read s.buf 16).toNat + 256 * (Memory.read s.buf 17).toNat = 0x100
       ∧ (∀ i, i < 14 → Memory.read s.buf (18 + i) = 0#8)
       ∧ Memory.readBlock s.buf (32 + s.params.pageSize)
          = cbcMac s.key (Memory.readBlocks s.buf 16 (s.params.pageSize / 16 + 1))) := by decide +kernel

theorem witness_DecodeChangekeyTakesTheKey :
    (let s := withBlocks (about .decode 0 0 48) 16 [0x61a6936e4e8f101c1cc1f993b542a0d4#128, 0x0f6eac919d8c733bee8593bf182cf16c#128,
       0xc1c43c48de3e48f81a3780d4b3c5c7b4#128]
     s.opM = 48 ∧ s.exited = false
     ∧ Memory.readBlock s.buf 48 = cbcMac s.key [Memory.readBlock s.buf 16, Memory.readBlock s.buf 32])
    ∧ (let s := withBlocks (about .decode 0 0 48) 16 [0#128, 0#128, 0#128]
       Memory.readBlock s.buf 48 ≠ cbcMac s.key [Memory.readBlock s.buf 16, Memory.readBlock s.buf 32]) := by decide +kernel

theorem witness_DecodeAuthRecoversTheChallenge :
    (let s := withBlocks (about .decode 0 0 32) 16 [blockP1, 0x8ea2b7ca516745bfeafc49904b496089#128]
     s.opM = 32 ∧ s.exited = false ∧ Memory.readBlock s.buf 32 = encrypt s.key (Memory.readBlock s.buf 16))
    ∧ (let s := withBlocks (about .decode 0 0 32) 16 [blockP1, 0#128]
       Memory.readBlock s.buf 32 ≠ encrypt s.key (Memory.readBlock s.buf 16)) := by decide +kernel

theorem witness_RejectsLeaveTheDeviceState :
    (let s := withBlocks (about .decode 0 0 32) 16 [blockP1, 0#128]
     exec .decode s = .next (performDecode s) ∧ s.verdict = false ∧ (performDecode s).verdict = false
     ∧ (performDecode s).kind ≠ .none ∧ s.exited = false ∧ (performDecode s).kind ≠ .program)
    ∧ (performDecode (about .decode 0 0 33)).kind = .none ∧ (performDecode (about .decode 0 0 33)).verdict = false
    ∧ (performDecode (aboutPage 0x7000 0)).kind = .program ∧ (aboutPage 0x7000 0).policyPasses = false
    ∧ (performDecode (aboutPage 0x7000 0)).verdict = false := by
  refine ⟨⟨rfl, ?_⟩, ?_⟩ <;> decide +kernel

/-- A state DECODE performs in after an ENCODE, for each of the four; the highest page below the reserved region. -/
theorem witness_DecodeAcceptsWhatEncodeBuilt :
    (let s := about .encodeProgram 0 0x6FE0 0
     ∃ t : State, exec .encodeProgram s = .next t
      ∧ (let r := { about .decode 0 0 64 with buf := t.buf }
         r.buf = t.buf ∧ r.key = s.key ∧ r.params = s.params ∧ r.exited = false ∧ r.opM = t.msglen.toNat)
      ∧ widen s.params s.opW % s.params.pageSize = 0 ∧ widen s.params s.opW < s.params.bootStart)
    ∧ (about .decode 0 0 2).opM = (performEncodeSetaddr (about .encodeSetaddr 0 0xFFFF 0)).msglen.toNat
    ∧ (about .encodeSetaddr 0 0xFFFF 0).opW = (about .encodeSetaddr 0 0xFFFF 0).params.startApp
    ∧ (about .encodeSetaddr 0 0xFFFE 0).opW ≠ (about .encodeSetaddr 0 0xFFFE 0).params.startApp
    ∧ (about .decode 0 0 48).opM = (performEncodeChangekey (about .encodeChangekey 0 0 0)).msglen.toNat
    ∧ (about .decode 0 0 32).opM = (performEncodeAuth (about .encodeAuth 0 0 0)).msglen.toNat := by
  refine ⟨⟨_, rfl, ⟨rfl, rfl, rfl, rfl, ?_⟩, ?_, ?_⟩, ?_⟩ <;> decide +kernel

theorem witness_ErrorsChangeOnlyStatus :
    exec .keyload (about .keyload 225 0 0) = .next (performKeyload (about .keyload 225 0 0))
    ∧ (about .keyload 225 0 0).err = none ∧ (performKeyload (about .keyload 225 0 0)).err = some .bounds
    ∧ (performMacvfy (about .macvfy 0 8 0)).err = some .notBlockAligned
    ∧ (stateV.withFetchWord 32 0x0F).wait = 0 ∧ decodeWord 0x0F#32 = .error .opcodeUnknown := by
  refine ⟨rfl, ?_⟩
  decide +kernel

/-- KEY written by KEYLOAD, and by a reset. -/
theorem witness_KeyIsWrittenOnlyByItsOperations :
    let s := { about .keyload 0 0 0 with buf := Memory.writeStr [] 0 keyK1 }
    let r := hosting stateV [.reset keyK1 []]
    step s = .next (performKeyload s) ∧ (performKeyload s).key ≠ s.key ∧ step r = .next r.busTurn ∧ r.busTurn.key ≠ r.key := by
  exact ⟨rfl, by decide +kernel, rfl, by decide +kernel⟩

/-- EXITED set by the sentinel, and cleared by a reset. -/
theorem witness_ExitedIsSetBySentinelAndHeld :
    let s := { about .decode 0 0 2 with buf := [(16, 0xFF#8), (17, 0xFF#8)] }
    let r := hosting { stateV with exited := true } [.reset keyK1 []]
    step s = .next (performDecode s) ∧ s.exited = false ∧ (performDecode s).exited = true
    ∧ step r = .next r.busTurn ∧ r.exited = true ∧ r.busTurn.exited = false := by
  exact ⟨rfl, by decide +kernel, by decide +kernel, rfl, by decide +kernel, by decide +kernel⟩

theorem witness_PgaddrIsWrittenOnlyByAcceptedPages :
    let s := withBlocks (about .decode 0 0 64) 16 programMessage
    step s = .next (performDecode s) ∧ (performDecode s).pgaddr ≠ s.pgaddr := by
  exact ⟨rfl, by decide +kernel⟩

/-- Two states with different keys, with a collision to come. -/
theorem witness_HostTurnsCannotReadSecrets :
    let s := hosting (waiting stateV 1) [.write .word 0#16 4#32]
    let t := { s with key := keyK1, acc := blockP1 }
    s.SameButSecrets t ∧ (s.busy = true → s.wait ≠ 0) := by
  exact ⟨rfl, by decide +kernel⟩

/-- The host about to make one move, its record as given. -/
def hostMoving (d : Duties) (m : HostMove) : State :=
  { hosting stateV [.host m] with duties := d }

/-- The moves of a dutiful host, and of bare accesses that wait. -/
theorem witness_DutifulHostNeverCollides :
    (let s := hosting stateV [.host (.write .word 0#16 4#32), .host .poll, .reset keyK1 []]
     s.Dutiful ∧ step s = .next s.busTurn)
    ∧ (let s := hosting stateV (assemble (expand .cbcenc [0#32, 16#32]) ++ assemble (expand .decode [2#32]))
       s.KeepsWaiting ∧ step s = .next s.busTurn) := by
  exact ⟨⟨⟨by decide +kernel, by decide +kernel⟩, rfl⟩, ⟨by decide +kernel, by decide +kernel⟩, rfl⟩

/-- A move that breaks a duty, for each row: "issue an operation" and "wait". -/
theorem witness_DutifulHostNeverCollides_wait :
    BreaksMust (hostMoving .fresh (.write .word 0#16 1#32)) (.write .word 0#16 1#32)
    ∧ BreaksMust (hosting (waiting stateV 1) [.host (.write .byte 0x8000#16 0#32)]) (.write .byte 0x8000#16 0#32)
    ∧ BreaksMust (hosting (waiting stateV 1) [.host (.read .byte 0x8000#16)]) (.read .byte 0x8000#16)
    ∧ (waiting stateV 1).wait ≠ 0 := by
  refine ⟨.issueWithoutOperands _ .keyload .arg0 ?_ ?_ rfl, .writeBeforeWait _ _ _ (.inr ?_), .readBeforeWait _ _ (.inr ?_) (.inl ?_), ?_⟩
    <;> decide +kernel

/-- "deliver a message": one byte too few in MSGLEN, and a last byte changed. -/
theorem witness_DutifulHostNeverCollides_deliver :
    let d := { Duties.fresh with msglenWritten := true, message := some [0xFF#8, 0xFE#8] }
    let s := { hostMoving d (.write .word 0#16 0x10#32) with msglen := 1#16 }
    let t := { hostMoving d (.write .word 0#16 0x10#32) with msglen := 2#16, buf := [(16, 0xFF#8), (17, 0xFF#8)] }
    BreaksMust s (.write .word 0#16 0x10#32) ∧ BreaksMust t (.write .word 0#16 0x10#32) := by
  refine ⟨.decodeOtherLength _ [0xFF#8, 0xFE#8] ?_ rfl ?_, .decodeOtherBytes _ [0xFF#8, 0xFE#8] 1 0xFE#8 ?_ rfl ?_ rfl ?_⟩
    <;> decide +kernel

/-- Bytes owed, at the ends of their regions: the unpersisted key by a byte and by a word, the unprogrammed page at 32 and
31 + N, the unsent response; then by MACSTORE 47, and by the DECODE of another ProgramPage. -/
theorem witness_DutifulHostNeverCollides_owed :
    let owing (debt : Debt) : State :=
      hostMoving { Duties.fresh with debts := [debt], arg0Written := true, msglenWritten := true } .poll
    BreaksMust (owing .persist) (.write .byte (BitVec.ofNat 16 (0x8000 + 16)) 0#32)
    ∧ BreaksMust (owing .persist) (.write .word (BitVec.ofNat 16 (0x8000 + 44)) 0#32)
    ∧ BreaksMust (owing .program) (.write .byte (BitVec.ofNat 16 (0x8000 + 32)) 0#32)
    ∧ BreaksMust (owing .program) (.write .byte (BitVec.ofNat 16 (0x8000 + 63)) 0#32)
    ∧ BreaksMust (owing .respond) (.write .half (BitVec.ofNat 16 (0x8000 + 30)) 0#32)
    ∧ BreaksMust { owing .persist with arg0 := 47#16 } (.write .word 0#16 7#32)
    ∧ BreaksMust { owing .program with msglen := 64#16 } (.write .word 0#16 0x10#32) := by
  refine ⟨.overwriteOwed _ 16 _ .persist 16 32 16 ?_ ?_ ?_ ?_ ?_ ?_, .overwriteOwed _ 44 _ .persist 16 32 47 ?_ ?_ ?_ ?_ ?_ ?_,
    .overwriteOwed _ 32 _ .program 32 32 32 ?_ ?_ ?_ ?_ ?_ ?_, .overwriteOwed _ 63 _ .program 32 32 63 ?_ ?_ ?_ ?_ ?_ ?_,
    .overwriteOwed _ 30 _ .respond 16 16 31 ?_ ?_ ?_ ?_ ?_ ?_,
    .operateOverOwed _ .macstore (47, 16) .persist 16 32 47 ?_ ?_ ?_ ?_ ?_ ?_, .decodePageOverOwed _ ?_ ?_ ?_⟩ <;> decide +kernel

/-- A command word before the response, the start or the stall. -/
theorem witness_DutifulHostNeverCollides_unpaid :
    ∀ debt ∈ [Debt.respond, .start, .stall],
      BreaksMust (hostMoving { Duties.fresh with debts := [debt] } .poll) (.write .word 0#16 4#32) := by
  intro debt h
  refine .issueBeforePaying _ debt (List.mem_singleton.mpr rfl) ?_
  simpa using h

/-- "host-side encoding": a challenge used before, a key a ChangeKey put there, a meant key not loaded, another key loaded;
"CTR streams": KEYLOAD, and a DECODE of ChangeKey length; SET_READ_ADDR: RDADDR at the end of the flash, and before it. -/
theorem witness_DutifulHostNeverCollides_keys :
    BreaksMust { hostMoving { Duties.fresh with challenges := [blockP1] } .poll with buf := Memory.writeBlock [] 16 blockP1 }
      (.write .word 0#16 0x411#32)
    ∧ BreaksMust (hostMoving { Duties.fresh with keySource := .changed } .poll) (.write .word 0#16 0x311#32)
    ∧ BreaksMust (hostMoving { Duties.fresh with encodeKey := some keyK1 } .poll) (.write .word 0#16 0x311#32)
    ∧ BreaksMust (hostMoving { Duties.fresh with encodeKey := some keyK1, keySource := .loaded keyK0 } .poll) (.write .word 0#16 0x311#32)
    ∧ BreaksMust (hostMoving { Duties.fresh with oneStreamKey := true } .poll) (.write .word 0#16 1#32)
    ∧ BreaksMust { hostMoving { Duties.fresh with oneStreamKey := true } .poll with msglen := 48#16 } (.write .word 0#16 0x10#32)
    ∧ BreaksMust { stateV with rdaddr := 0x8000#32 } (.readPage 0 0x8000)
    ∧ BreaksMust { stateV with rdaddr := 0x0FFF#32 } (.readPage 0x1000 0x8000) := by
  refine ⟨.staleChallenge _ ?_ ?_, .encodeUnderChangedKey _ .encodeChangekey ?_ ?_ rfl,
    .encodeUnderOtherKey _ .encodeChangekey keyK1 ?_ ?_ rfl ?_, .encodeUnderOtherKey _ .encodeChangekey keyK1 ?_ ?_ rfl ?_,
    .changeStreamKey _ .keyload rfl ?_ (.inl rfl), .changeStreamKey _ .decode rfl ?_ (.inr ⟨rfl, ?_⟩),
    .readOutsideFlash _ _ (.inr ?_), .readOutsideFlash _ _ (.inl ?_)⟩ <;> decide +kernel

/-- Moves that break no duty: a DECODE of the message delivered, an issue that leaves the bytes of a deferred debt alone
(MACSTORE 48 with the key in BUF[16..48) unpersisted), an ENCODE under the meant and loaded key, a read, and a read of STATUS
with an operation in flight. -/
theorem witness_DutifulHostNeverCollides_made :
    let delivered := { hostMoving { Duties.fresh with msglenWritten := true, message := some [0xFF#8, 0xFE#8] }
        (.write .word 0#16 0x10#32) with msglen := 2#16, buf := [(16, 0xFF#8), (17, 0xFE#8)] }
    let deferring := { hostMoving { Duties.fresh with debts := [.persist], arg0Written := true }
        (.write .word 0#16 7#32) with arg0 := 48#16 }
    let meaning := hostMoving { Duties.fresh with encodeKey := some keyK1, keySource := .loaded keyK1 } (.write .word 0#16 0x311#32)
    let reading := hostMoving .fresh (.read .byte 0x8000#16)
    let polling := hosting (waiting stateV 1) [.host (.read .word 0x0010#16)]
    ¬ BreaksMust delivered (.write .word 0#16 0x10#32) ∧ delivered.bus = .host (.write .word 0#16 0x10#32) :: []
    ∧ ¬ BreaksMust deferring (.write .word 0#16 7#32) ∧ ¬ BreaksMust meaning (.write .word 0#16 0x311#32)
    ∧ ¬ BreaksMust reading (.read .byte 0x8000#16) ∧ ¬ BreaksMust polling (.read .word 0x0010#16)
    ∧ reading.bus = .host (.read .byte 0x8000#16) :: [] ∧ reading.busy = false ∧ polling.wait ≠ 0 := by
  refine ⟨not_breaks_of_mayMove ?_, rfl, not_breaks_of_mayMove ?_, not_breaks_of_mayMove ?_, not_breaks_of_mayMove ?_,
    not_breaks_of_mayMove ?_, rfl, ?_, ?_⟩ <;> decide +kernel

/-- An operation with its latch as the operand registers are, a DECODE seen completed, each debt about to be paid, and the ends
of a bare program and of a host's. -/
theorem witness_DutifulHostNeverCollides_paid :
    (let s := about .macstore 240 0 0
     ∃ l t, s.latch = some l ∧ l.arg0 = s.arg0 ∧ l.arg1 = s.arg1 ∧ l.msglen = s.msglen ∧ exec .macstore s = .next t
      ∧ ∀ region ∈ s.writtenRegions .macstore, 239 < region.1 ∨ region.1 + region.2 ≤ 239)
    ∧ (let s := { hostMoving { Duties.fresh with awaited := some ⟨0x10#32, true⟩ } .poll with action := .keyChanged }
       s.busy = false ∧ s.duties.awaited = some ⟨0x10#32, true⟩ ∧ decodeWord 0x10#32 = .ok .decode ∧ s.bus = .host .poll :: [])
    ∧ (let s := hostMoving { Duties.fresh with debts := [.persist] } .persistKey
       s.rested = true ∧ Debt.persist ∈ s.duties.debts ∧ s.bus = .host .persistKey :: [])
    ∧ (let s := hostMoving { Duties.fresh with debts := [.scrub [47]] } (.write .byte (BitVec.ofNat 16 (0x8000 + 47)) 0#32)
       s.rested = true ∧ s.duties.debts = [.scrub [47]] ∧ 47 % Width.byte.bytes = 0 ∧ 47 + Width.byte.bytes ≤ s.params.bufSize
       ∧ s.bus = .host (.write .byte (BitVec.ofNat 16 (0x8000 + 47)) 0#32) :: [])
    ∧ (let s := hostMoving { Duties.fresh with debts := [.program] } (.programPage true)
       s.rested = true ∧ Debt.program ∈ s.duties.debts ∧ s.bus = .host (.programPage true) :: [])
    ∧ (let s := hostMoving { Duties.fresh with debts := [.surface] } .surfaceFlashError
       s.rested = true ∧ Debt.surface ∈ s.duties.debts ∧ s.bus = .host .surfaceFlashError :: [])
    ∧ (hosting stateV (assemble (expand .macinit []) ++ [.read .byte 0x8000#16])).endsProgram = false
    ∧ (hosting stateV [.poll, .read .byte 0x8000#16]).endsProgram = true
    ∧ (hosting stateV [.host .poll]).endsProgram = true := by
  refine ⟨⟨_, _, rfl, rfl, rfl, rfl, rfl, ?_⟩, ?_⟩ <;> decide +kernel

/-- What is noted: a KEYLOAD inside BUF and one past its end, an ENCODE.AUTH, each operand register, an offset that holds
none, BUF, a read that is not of STATUS, and a read of BUSY = 0 after an ENCODE.AUTH and after a MACINIT. -/
theorem witness_DutifulHostNeverCollides_noted :
    (let s := fun (arg0 : Half) (w : Width) (offset : Half) (v : Word) =>
       { hostMoving { Duties.fresh with arg0Written := true, arg1Written := true } (.write w offset v) with arg0 := arg0 }
     ¬ BreaksMust (s 16#16 .word 0#16 1#32) (.write .word 0#16 1#32)
     ∧ ¬ BreaksMust (s 0xFFFF#16 .word 0#16 1#32) (.write .word 0#16 1#32)
     ∧ ¬ BreaksMust (s 0#16 .word 0#16 0x411#32) (.write .word 0#16 0x411#32)
     ∧ ¬ BreaksMust (s 0#16 .word 4#16 1#32) (.write .word 4#16 1#32)
     ∧ ¬ BreaksMust (s 0#16 .word 8#16 1#32) (.write .word 8#16 1#32)
     ∧ ¬ BreaksMust (s 0#16 .word 0xC#16 1#32) (.write .word 0xC#16 1#32)
     ∧ ¬ BreaksMust (s 0#16 .byte 4#16 1#32) (.write .byte 4#16 1#32)
     ∧ ¬ BreaksMust (s 0#16 .word 0x10#16 1#32) (.write .word 0x10#16 1#32)
     ∧ ¬ BreaksMust (s 0#16 .half 0x8000#16 1#32) (.write .half 0x8000#16 1#32))
    ∧ (¬ BreaksMust (hostMoving .fresh (.read .word 0x14#16)) (.read .word 0x14#16))
    ∧ (let s := fun (cmd : Word) =>
         hostMoving { Duties.fresh with awaited := some ⟨cmd, false⟩, challenges := [blockP1] } (.read .word 0x10#16)
       (s 0x411#32).busy = false ∧ decodeWord 0x411#32 = .ok .encodeAuth ∧ (s 4#32).busy = false
         ∧ decodeWord 4#32 ≠ .ok .decode ∧ decodeWord 4#32 ≠ .ok .encodeAuth) := by
  refine ⟨⟨not_breaks_of_mayMove ?_, not_breaks_of_mayMove ?_, not_breaks_of_mayMove ?_, not_breaks_of_mayMove ?_,
    not_breaks_of_mayMove ?_, not_breaks_of_mayMove ?_, not_breaks_of_mayMove ?_, not_breaks_of_mayMove ?_,
    not_breaks_of_mayMove ?_⟩, not_breaks_of_mayMove ?_, ?_⟩ <;> decide +kernel

/-- A comparison with an older debt before it, a page of the flash to read at each end of its bounds, and with an operation in
flight or none a message, an intention and a reset. -/
theorem witness_DutifulHostNeverCollides_recorded :
    (let s := hostMoving { Duties.fresh with debts := [.persist, .compare blockP1] } (.compareResponse blockP1)
     s.rested = true ∧ s.duties.debts = [.persist] ++ .compare blockP1 :: [] ∧ s.bus = .host (.compareResponse blockP1) :: [])
    ∧ (let s := { hostMoving .fresh (.readPage 0 0x8000) with rdaddr := 0x7FFF#32 }
       s.rested = true ∧ 0 ≤ s.rdaddr.toNat ∧ s.rdaddr.toNat < 0x8000 ∧ s.bus = .host (.readPage 0 0x8000) :: [])
    ∧ (let s := hostMoving .fresh (.readPage 0 1)
       s.rested = true ∧ 0 ≤ s.rdaddr.toNat ∧ s.rdaddr.toNat < 1)
    ∧ ∀ e ∈ [.host (.receive [0xFF#8]), .host (.encodeUnder (some keyK1)), .host (.keepStreamKey true), .reset keyK1 []],
      let s := hosting stateV [e]
      let t := hosting (waiting stateV 1) [e]
      s.bus = e :: [] ∧ s.busy = false ∧ t.bus = e :: [] ∧ t.busy = true ∧ t.wait ≠ 0 := by
  decide +kernel

theorem witness_EveryStepKeepsTheInvariant : issuing.Inv ∧ step issuing = .next issuing.busTurn := by
  refine ⟨⟨?_, ?_, ?_, ?_, ?_, ?_, .inl rfl, ?_, ?_, ?_, ?_⟩, rfl⟩
  · decide +kernel
  · decide +kernel
  · decide +kernel
  · decide +kernel
  · decide +kernel
  · decide +kernel
  · decide +kernel
  · decide +kernel
  · intro l h; cases h
  · decide +kernel

end Sys2Proof.Tests
end

/-! PROOFS. The state of the block (spec/10_state.md): where the fields of the registers stand, what a bus write of a register
takes, what a step can do to the fields that only DECODE, KEYLOAD and reset write, and the invariant of every step. -/

namespace Sys2Proof.Machine

/-! ### Register accesses (R23, R52) -/

theorem regAt_offset {n : Nat} {r : Reg} (h : regAt n = some r) : n = r.offset.toNat := by
  unfold regAt at h
  split at h <;> cases h <;> rfl

/-- An access of the register window reaches the register at its offset, or nothing. -/
theorem target_register (p : Params) {offset : Half} (h : offset.toNat < 0x8000) :
    (∃ r, offset = r.offset ∧ target p .word offset = .reg r)
    ∨ ((∀ r : Reg, offset ≠ r.offset) ∧ target p .word offset = .nothing) := by
  by_cases hr : ∃ r : Reg, offset = r.offset
  · obtain ⟨r, rfl⟩ := hr
    exact .inl ⟨r, rfl, by cases r <;> rfl⟩
  · have hr := not_exists.mp hr
    refine .inr ⟨hr, ?_⟩
    have hn : regAt offset.toNat = none := by
      cases hreg : regAt offset.toNat with
      | none => rfl
      | some r => exact absurd (BitVec.eq_of_toNat_eq (regAt_offset hreg)) (hr r)
    simp [target, h, hn]

/-- A write with no operation in flight, as a step. -/
theorem step_write_idle {s : State} {w : Width} {offset : Half} {v : Word} {rest : List BusEvent} (hb : s.busy = false)
    (hbus : s.bus = .write w offset v :: rest) :
    step s = .next (({ s with bus := rest } : State).busWrite w offset v) := by
  have hl : s.latch = none := by simpa [State.busy] using hb
  simp [step, hl, State.busTurn, hbus]

/-- An aligned word write in the register window with no operation in flight. -/
theorem busWrite_register {s : State} {r : Reg} (v : Word) (hb : s.busy = false) :
    s.busWrite .word r.offset v = s.writeReg v r := by
  have ht : target s.params .word r.offset = .reg r := by cases r <;> rfl
  simp [State.busWrite, hb, ht]

theorem busWrite_no_register {s : State} {offset : Half} (v : Word) (hb : s.busy = false) (h : offset.toNat < 0x8000)
    (hr : ∀ r : Reg, offset ≠ r.offset) : s.busWrite .word offset v = s := by
  obtain ⟨r, hoff, -⟩ | ⟨-, ht⟩ := target_register s.params h
  · exact absurd hoff (hr r)
  · simp [State.busWrite, hb, ht]

/-! ### The words of STATUS and RESULT (R27, R28) -/

theorem statusWord_errCode (s : State) : s.statusWord.extractLsb' 8 4 = s.errCodeBits := by
  rw [State.statusWord]
  iterate 7 rw [BitVec.extractLsb'_append_eq_of_le (by decide)]
  rw [BitVec.extractLsb'_append_eq_of_add_le (by decide), BitVec.extractLsb'_eq_self]

theorem resultWord_kind (s : State) : s.resultWord.extractLsb' 0 3 = s.kind.code := by
  rw [State.resultWord, BitVec.extractLsb'_append_eq_of_add_le (by decide), BitVec.extractLsb'_eq_self]

theorem resultWord_action (s : State) : s.resultWord.extractLsb' 4 3 = s.action.code := by
  rw [State.resultWord]
  iterate 2 rw [BitVec.extractLsb'_append_eq_of_le (by decide)]
  rw [BitVec.extractLsb'_append_eq_of_add_le (by decide), BitVec.extractLsb'_eq_self]

theorem resultWord_order (s : State) : s.resultWord.extractLsb' 8 2 = s.order.code := by
  rw [State.resultWord]
  iterate 4 rw [BitVec.extractLsb'_append_eq_of_le (by decide)]
  rw [BitVec.extractLsb'_append_eq_of_add_le (by decide), BitVec.extractLsb'_eq_self]

theorem statusWord_flags (s : State) :
    s.statusWord.getLsbD 0 = s.latch.isSome ∧ s.statusWord.getLsbD 1 = s.err.isSome
    ∧ s.statusWord.getLsbD 2 = s.mismatch ∧ s.statusWord.getLsbD 3 = s.verdict
    ∧ s.statusWord.getLsbD 4 = s.exited ∧ s.statusWord.getLsbD 5 = s.coll := by
  refine ⟨?_, ?_, ?_, ?_, ?_, ?_⟩ <;> rw [State.statusWord, BitVec.getLsbD_append] <;>
    simp only [BitVec.getLsbD_append] <;> simp [State.busy]

theorem statusWord_reserved (s : State) :
    s.statusWord.extractLsb' 6 2 = 0#2 ∧ s.statusWord.extractLsb' 12 20 = 0#20 := by
  rw [State.statusWord]
  constructor
  · iterate 6 rw [BitVec.extractLsb'_append_eq_of_le (by decide)]
    rw [BitVec.extractLsb'_append_eq_of_add_le (by decide), BitVec.extractLsb'_eq_self]
  · iterate 8 rw [BitVec.extractLsb'_append_eq_of_le (by decide)]
    rw [BitVec.extractLsb'_eq_self]

theorem resultWord_reserved (s : State) :
    s.resultWord.getLsbD 3 = false ∧ s.resultWord.getLsbD 7 = false ∧ s.resultWord.extractLsb' 10 22 = 0#22 := by
  rw [State.resultWord]
  refine ⟨?_, ?_, ?_⟩
  · rw [BitVec.getLsbD_append]
    simp only [BitVec.getLsbD_append]
    simp
  · rw [BitVec.getLsbD_append]
    simp only [BitVec.getLsbD_append]
    simp
  · iterate 5 rw [BitVec.extractLsb'_append_eq_of_le (by decide)]
    rw [BitVec.extractLsb'_eq_self]

end Sys2Proof.Machine

namespace Sys2Proof
open Machine

/-- Settles O15: the register at the offset, or none, decides the write. -/
theorem registerWritesTakeLowHalf : Obligations.RegisterWritesTakeLowHalf := by
  intro s offset v rest hb hlt _ h0 hbus
  have hstep := step_write_idle hb hbus
  have hlow : v.setWidth 16 = v.extractLsb' 0 16 := BitVec.setWidth_eq_extractLsb' (by decide)
  have hreg : ∀ r : Reg, offset = r.offset → step s = .next (({ s with bus := rest } : State).writeReg v r) := by
    rintro r rfl
    rw [hstep, busWrite_register (s := { s with bus := rest }) v hb]
  have hhalf : ∀ x : Half, (x.setWidth 32).toNat = x.toNat := fun x => by
    rw [BitVec.toNat_setWidth, Nat.mod_eq_of_lt (by omega)]
  refine ⟨fun h => ?_, fun h => ?_, fun h => ?_, fun h1 h2 h3 => ?_, hhalf _, hhalf _, hhalf _⟩
  · rw [hreg .arg0 h, State.writeReg, hlow]
  · rw [hreg .arg1 h, State.writeReg, hlow]
  · rw [hreg .msglen h, State.writeReg, hlow]
  · by_cases hr : ∃ r : Reg, offset = r.offset
    · obtain ⟨r, hr⟩ := hr
      rw [hreg r hr]
      cases r
      case cmd => exact absurd hr h0
      case arg0 => exact absurd hr h1
      case arg1 => exact absurd hr h2
      case msglen => exact absurd hr h3
      all_goals rfl
    · rw [hstep, busWrite_no_register (s := { s with bus := rest }) v hb hlt (not_exists.mp hr)]

/-- Settles O16: each field is a slice of the concatenation that makes its word. -/
theorem statusAndResultLayout : Obligations.StatusAndResultLayout := by
  intro s
  obtain ⟨hbusy, herr, hmismatch, hverdict, hexited, hcoll⟩ := statusWord_flags s
  obtain ⟨hlow, hhigh⟩ := statusWord_reserved s
  obtain ⟨hbit3, hbit7, htop⟩ := resultWord_reserved s
  refine ⟨hbusy, herr, hmismatch, hverdict, hexited, hcoll, hlow, hhigh, ?_, ?_, ?_, ?_, hbit3, hbit7, htop, fun h => ?_⟩
  · rw [statusWord_errCode, State.errCodeBits]
    rcases s.err with - | e
    · rfl
    · cases e <;> rfl
  · rw [resultWord_kind]
    cases s.kind <;> rfl
  · rw [resultWord_action]
    cases s.action <;> rfl
  · rw [resultWord_order]
    cases s.order <;> rfl
  · rw [State.ctrstatWord, BitVec.toNat_setWidth, BitVec.toNat_ofNat]
    omega

end Sys2Proof

namespace Sys2Proof.Machine

/-! ### What only DECODE, KEYLOAD and reset write (R29, R31, R39, R201) -/

/-- VERDICT, ACTION, EXITED, RDADDR, PGADDR and KEY: what the acceptance of a message can write. -/
structure Device where
  verdict : Bool
  action : Action
  exited : Bool
  rdaddr : Word
  pgaddr : Word
  key : Key

def State.device (s : State) : Device :=
  { verdict := s.verdict, action := s.action, exited := s.exited, rdaddr := s.rdaddr, pgaddr := s.pgaddr, key := s.key }

@[simp] theorem complete_device (s : State) : s.complete.device = s.device := rfl

@[simp] theorem accept_device (s : State) (x : Action) :
    (s.accept x).device = { s.device with verdict := true, action := x } := rfl

@[simp] theorem cbcDecBody_device (s : State) (a l : Nat) : (s.cbcDecBody a l).device = s.device := rfl

@[simp] theorem macVerifyStep_device (s : State) (a l : Nat) : (s.macVerifyStep a l).device = s.device := by
  simp [State.device]

/-- What a DECODE can leave: it rejects, or it accepts a message of one of the four kinds (R204 to R209). -/
inductive Decoded (s : State) : Device → Prop where
  | rejected : Decoded s s.device
  | startApp : s.opM = 2 → s.wireAddress = s.params.startApp →
      Decoded s { s.device with verdict := true, action := .startApp, exited := true }
  | setReadAddr :
      Decoded s { s.device with
        verdict := true, action := .setReadAddr, rdaddr := BitVec.ofNat 32 (widen s.params s.wireAddress) }
  | programPage : s.opM = s.params.pageSize + 32 → s.policyPasses = true →
      Decoded s { s.device with
        verdict := true, action := .programPage, pgaddr := BitVec.ofNat 32 (widen s.params s.wireAddress) }
  | keyChanged (k : Key) : s.opM = 48 →
      Decoded s { s.device with verdict := true, action := .keyChanged, key := k }
  | authResponse : Decoded s { s.device with verdict := true, action := .authResponse }

theorem classify_setaddr {p : Params} {m : Nat} : classify p m = .setaddr ↔ m = 2 := by
  unfold classify
  split_ifs <;> simp_all

theorem decodeKind_device (s : State) {k : Kind} (hk : classify s.params s.opM = k) :
    Decoded s (s.decodeKind k).device := by
  cases k with
  | none => exact .rejected
  | setaddr =>
    simp only [State.decodeKind, State.decodeSetaddr]
    split_ifs with hw
    · exact .startApp (classify_setaddr.mp hk) hw
    · exact .setReadAddr
  | program =>
    simp only [State.decodeKind, State.decodeProgram]
    split_ifs with hp ht
    · rw [macVerifyStep_device]
      exact .rejected
    · have hd := Decoded.programPage (classify_program.mp hk) hp
      rwa [← macVerifyStep_device s 16 (16 + s.params.pageSize)] at hd
    · exact .rejected
  | changekey =>
    simp only [State.decodeKind, State.decodeChangekey]
    split_ifs with ht
    · rw [macVerifyStep_device]
      exact .rejected
    · have hd := Decoded.keyChanged (Memory.readKey ((s.macVerifyStep 16 32).cbcDecBody 0 32).buf 16)
        (classify_changekey.mp hk)
      rwa [← macVerifyStep_device s 16 32] at hd
  | auth =>
    simp only [State.decodeKind, State.decodeAuth]
    split_ifs with ht
    · rw [macVerifyStep_device]
      exact .rejected
    · rw [accept_device, cbcDecBody_device, macVerifyStep_device]
      exact .authResponse

/-- RESULT.KIND has no part in what a DECODE leaves. -/
theorem Decoded.of_kind {s : State} {k : Kind} {d : Device} (h : Decoded { s with kind := k } d) : Decoded s d := by
  cases h with
  | rejected => exact .rejected
  | startApp hm hw => exact .startApp hm hw
  | setReadAddr => exact .setReadAddr
  | programPage hm hp => exact .programPage hm hp
  | keyChanged k hm => exact .keyChanged k hm
  | authResponse => exact .authResponse

theorem performDecode_device (s : State) : Decoded s (performDecode s).device := by
  simp only [performDecode]
  split_ifs
  · exact .rejected
  · exact (decodeKind_device { s with kind := classify s.params s.opM } rfl).of_kind

/-! ### BUF canonical and inside its size (R30) -/

/-- BUF is in canonical form and lists no address past its size. -/
structure Memory.Fits (m : Memory) (size : Nat) : Prop where
  wf : Memory.wf m = true
  within : Memory.within m size = true

section
variable {m : Memory} {a size : Nat}

theorem fits_writeBytes {bs : List Byte} (h : m.Fits size) (ha : a + bs.length ≤ size) :
    (Memory.writeBytes m a bs).Fits size :=
  ⟨wf_writeBytes a bs h.wf, within_writeBytes h.within ha⟩

theorem fits_writeLe {n : Nat} (v : Nat) (h : m.Fits size) (ha : a + n ≤ size) : (Memory.writeLe m a n v).Fits size :=
  ⟨wf_writeLe a n v h.wf, within_writeLe v h.within ha⟩

theorem fits_writeBlock (b : Block) (h : m.Fits size) (ha : a + 16 ≤ size) : (Memory.writeBlock m a b).Fits size :=
  ⟨wf_writeBlock a b h.wf, within_writeBlock b h.within ha⟩

theorem fits_writeBlocks {xs : List Block} (h : m.Fits size) (ha : a + 16 * xs.length ≤ size) :
    (Memory.writeBlocks m a xs).Fits size :=
  ⟨wf_writeBlocks a xs h.wf, within_writeBlocks h.within ha⟩

end

section
variable {s : State} {a l size : Nat} (h : s.buf.Fits size)
include h

theorem fits_cbcEncBody (ha : a + (16 + l) ≤ size) : (s.cbcEncBody a l).buf.Fits size := by
  rw [cbcEncBody_buf]
  exact fits_writeBlocks (fits_writeBlock _ h (by omega)) (by simp; omega)

theorem fits_cbcDecBody (ha : a + (16 + l) ≤ size) : (s.cbcDecBody a l).buf.Fits size := by
  rw [cbcDecBody_buf]
  exact fits_writeBlocks (fits_writeBlock _ h (by omega)) (by simp; omega)

theorem fits_macVerifyStep (ha : a + l + 16 ≤ size) : (s.macVerifyStep a l).buf.Fits size := by
  unfold State.macVerifyStep
  split_ifs
  · exact h
  · exact fits_writeBlock _ h ha

theorem fits_ctrXorBody (ha : a + l ≤ size) : (s.ctrXorBody a l).buf.Fits size :=
  fits_writeBytes h (by simpa using ha)

end

/-- A message never reaches past BUF, however long a page is (R10). -/
theorem fits_decodeKind {s : State} (k : Kind) (h : s.buf.Fits s.params.bufSize) :
    (s.decodeKind k).buf.Fits s.params.bufSize := by
  have hpage := pageSize_ge s.params
  have hsize := bufSize_ge s.params
  cases k with
  | none => exact h
  | setaddr =>
    simp only [State.decodeKind, State.decodeSetaddr]
    split_ifs <;> exact h
  | program =>
    have hm : (s.macVerifyStep 16 (16 + s.params.pageSize)).buf.Fits s.params.bufSize := fits_macVerifyStep h (by omega)
    simp only [State.decodeKind, State.decodeProgram]
    split_ifs
    · exact hm
    · exact hm
    · exact h
  | changekey =>
    have hm : (s.macVerifyStep 16 32).buf.Fits s.params.bufSize := fits_macVerifyStep h (by omega)
    simp only [State.decodeKind, State.decodeChangekey]
    split_ifs
    · exact hm
    · exact fits_cbcDecBody hm (by omega)
  | auth =>
    have hm : (s.macVerifyStep 16 16).buf.Fits s.params.bufSize := fits_macVerifyStep h (by omega)
    simp only [State.decodeKind, State.decodeAuth]
    split_ifs
    · exact hm
    · exact fits_cbcDecBody hm (by omega)

/-! ### What a performance can do -/

/-- What every performance keeps that raises no error, and what only a DECODE or a KEYLOAD writes. -/
structure Succeeds (i : Instr) (s t : State) : Prop where
  err : t.err = s.err
  buf : s.buf.Fits s.params.bufSize → t.buf.Fits s.params.bufSize
  unused : s.unused ≤ 16 → t.unused ≤ 16
  device : i ≠ .decode → t.device = { s.device with key := t.key }
  key : i ≠ .decode → i ≠ .keyload → t.key = s.key

/-- How a performance ends: with success, or with an error and nothing else done (R241, R242). -/
inductive Ends (i : Instr) (s : State) : State → Prop where
  | success {t : State} : Succeeds i s t → Ends i s t
  | error (e : ErrCode) : Ends i s (s.raiseError e)
  | verifyError (e : ErrCode) : Ends i s (s.raiseVerifyError e)

section
variable {i : Instr} {s t : State}

/-- An operation that writes BUF and registers of its own alone. -/
theorem Ends.done (herr : t.err = s.err) (hdev : t.device = s.device) (hunused : s.unused ≤ 16 → t.unused ≤ 16)
    (hbuf : s.buf.Fits s.params.bufSize → t.buf.Fits s.params.bufSize) : Ends i s t :=
  .success ⟨herr, hbuf, hunused, fun _ => by rw [hdev, show t.key = s.key from congrArg Device.key hdev]; rfl,
    fun _ _ => congrArg Device.key hdev⟩

/-- An operation that only checks its bounds. -/
theorem Ends.ifInBounds {c : Prop} [Decidable c] (h : c → Ends i s t) :
    Ends i s (if c then t else s.raiseError .bounds) := by
  split_ifs with hc
  · exact h hc
  · exact .error _

/-- An operation on whole blocks. -/
theorem Ends.ifWholeBlocks {a n l : Nat} (h : s.inBounds a n → Ends i s t) :
    Ends i s (if ¬ s.inBounds a n then s.raiseError .bounds
      else if l % 16 ≠ 0 then s.raiseError .notBlockAligned else t) := by
  split_ifs with hb ha
  · exact .error _
  · exact h hb
  · exact .error _

end

theorem decodeKind_keeps (s : State) (k : Kind) : (s.decodeKind k).err = s.err ∧ (s.decodeKind k).unused = s.unused := by
  cases k with
  | none => exact ⟨rfl, rfl⟩
  | setaddr =>
    simp only [State.decodeKind, State.decodeSetaddr]
    split_ifs <;> exact ⟨rfl, rfl⟩
  | program =>
    simp only [State.decodeKind, State.decodeProgram]
    split_ifs <;> simp
  | changekey =>
    simp only [State.decodeKind, State.decodeChangekey]
    split_ifs <;> simp
  | auth =>
    simp only [State.decodeKind, State.decodeAuth]
    split_ifs <;> simp

theorem performDecode_succeeds (s : State) : Succeeds .decode s (performDecode s) := by
  simp only [performDecode]
  split_ifs
  · exact ⟨rfl, id, id, fun h => absurd rfl h, fun h => absurd rfl h⟩
  · obtain ⟨herr, hunused⟩ := decodeKind_keeps { s with kind := classify s.params s.opM } (classify s.params s.opM)
    exact ⟨herr, fits_decodeKind (s := { s with kind := classify s.params s.opM }) _,
      fun h => le_of_eq_of_le hunused h, fun h => absurd rfl h, fun h => absurd rfl h⟩

theorem performMacvfy_ends (s : State) : Ends .macvfy s (performMacvfy s) := by
  unfold performMacvfy
  split_ifs with hb ha
  · exact .verifyError _
  · exact .done (macVerifyStep_err s _ _) (macVerifyStep_device s _ _) (by simp) fun h => fits_macVerifyStep h (by omega)
  · exact .verifyError _

theorem fits_placeAddressBlock {s : State} {size : Nat} (h : s.buf.Fits size) (hsize : 32 ≤ size) :
    s.placeAddressBlock.buf.Fits size :=
  fits_writeBytes h (by simpa [addressBlock] using hsize)

theorem performEncodeProgram_ends (s : State) : Ends .encodeProgram s (performEncodeProgram s) := by
  have hsize := bufSize_ge s.params
  simp only [performEncodeProgram]
  refine .done (by simp) (by simp [State.device]) (by simp) fun h => ?_
  exact fits_writeBlock _ (fits_placeAddressBlock h (by omega)) (by omega)

theorem performed_ends (i : Instr) (s : State) : Ends i s (performed i s) := by
  have hpage := pageSize_ge s.params
  have hsize := bufSize_ge s.params
  cases i with
  | keyload => exact .ifInBounds fun _ => .success ⟨rfl, id, id, fun _ => rfl, fun _ h => absurd rfl h⟩
  | cbcenc => exact .ifWholeBlocks fun hb => .done rfl rfl id fun h => fits_cbcEncBody h hb
  | cbcdec => exact .ifWholeBlocks fun hb => .done rfl rfl id fun h => fits_cbcDecBody h hb
  | macinit => exact .done rfl rfl id id
  | macupd => exact .ifWholeBlocks fun _ => .done rfl rfl id id
  | maccalc => exact .ifWholeBlocks fun hb => .done rfl rfl id fun h => fits_writeBlock _ h (by omega)
  | macstore => exact .ifInBounds fun hb => .done rfl rfl id fun h => fits_writeBlock _ h hb
  | maccmp =>
    simp only [performed, performMaccmp]
    split_ifs
    · exact .done rfl rfl id id
    · exact .verifyError _
  | macvfy => exact performMacvfy_ends s
  | ctrload => exact .ifInBounds fun _ => .done rfl rfl (fun _ => Nat.zero_le _) id
  | ctrstore => exact .ifInBounds fun hb => .done rfl rfl id fun h => fits_writeBlock _ h hb
  | ctrxor => exact .ifInBounds fun hb => .done rfl rfl (advance_unused_le (c := s.ctrContext) _ _) fun h => fits_ctrXorBody h hb
  | cntinc => exact .ifInBounds fun hb => .done rfl rfl id fun h => fits_writeBlock _ h hb
  | cntcmp => exact .ifInBounds fun _ => .done rfl rfl id id
  | decode => exact .success (performDecode_succeeds s)
  | encodeSetaddr => exact .done rfl rfl id fun h => fits_writeLe _ h (by omega)
  | encodeProgram => exact performEncodeProgram_ends s
  | encodeChangekey => exact .done rfl rfl id fun h => fits_writeBlock _ (fits_cbcEncBody h (by omega)) (by omega)
  | encodeAuth => exact .done rfl rfl id fun h => fits_writeBlock _ (fits_cbcEncBody h (by omega)) (by omega)

end Sys2Proof.Machine

namespace Sys2Proof.Machine

/-! ### Which steps write KEY, EXITED and PGADDR (R29, R31, R39) -/

/-- What a step can do to KEY, EXITED and PGADDR. -/
inductive DeviceStep (s t : State) : Prop where
  | decode {l : Latch} : s.latch = some l → s.wait = 0 → decodeWord l.cmd = .ok .decode → Decoded s t.device →
      DeviceStep s t
  | keyload {l : Latch} : s.latch = some l → s.wait = 0 → decodeWord l.cmd = .ok .keyload → t.exited = s.exited →
      t.pgaddr = s.pgaddr → DeviceStep s t
  | kept : t.key = s.key → t.exited = s.exited → t.pgaddr = s.pgaddr → DeviceStep s t
  | reset {k : Key} {image : List Byte} {rest : List BusEvent} : s.bus = .reset k image :: rest → t.key = k →
      t.exited = false → t.pgaddr = 0#32 → DeviceStep s t

theorem Ends.device {i : Instr} {s t : State} (h : Ends i s t) (hi : i ≠ .decode) :
    t.device = { s.device with key := t.key } := by
  cases h with
  | success h => exact h.device hi
  | error e => rfl
  | verifyError e => rfl

theorem Ends.key {i : Instr} {s t : State} (h : Ends i s t) (hi : i ≠ .decode) (hk : i ≠ .keyload) : t.key = s.key := by
  cases h with
  | success h => exact h.key hi hk
  | error e => rfl
  | verifyError e => rfl

theorem performed_deviceStep {s : State} {l : Latch} {i : Instr} (hl : s.latch = some l) (hw : s.wait = 0)
    (hi : decodeWord l.cmd = .ok i) : DeviceStep s (performed i s) := by
  by_cases hd : i = .decode
  · subst hd
    exact .decode hl hw hi (performDecode_device s)
  have hdev := (performed_ends i s).device hd
  have hexited : (performed i s).exited = s.exited := congrArg Device.exited hdev
  have hpgaddr : (performed i s).pgaddr = s.pgaddr := congrArg Device.pgaddr hdev
  by_cases hk : i = .keyload
  · subst hk
    exact .keyload hl hw hi hexited hpgaddr
  · exact .kept ((performed_ends i s).key hd hk) hexited hpgaddr

theorem busTurn_deviceStep (s : State) (n : Nat) : DeviceStep s ({ s with wait := n } : State).busTurn := by
  obtain h | ⟨k, image, rest, hbus, h⟩ := busTurn_cases { s with wait := n }
  · exact .kept h.key h.exited h.pgaddr
  · rw [h]
    exact .reset hbus rfl rfl rfl

theorem step_deviceStep {s t : State} (h : step s = .next t) : DeviceStep s t := by
  obtain ⟨l, i, hl, hw, hi, rfl⟩ | ⟨l, -, -, -, rfl⟩ | ⟨l, n, -, -, rfl⟩ | ⟨-, rfl⟩ := step_cases h
  · exact performed_deviceStep hl hw hi
  · exact .kept rfl rfl rfl
  · exact busTurn_deviceStep s n
  · exact busTurn_deviceStep s s.wait

theorem opM_of_latch {s : State} {l : Latch} (h : s.latch = some l) : s.opM = l.msglen.toNat := by
  simp [State.opM, State.operands, h]

/-- A latched MSGLEN that DECODE reads as a certain length. -/
theorem msglen_of_opM {s : State} {l : Latch} {m : Nat} (h : s.latch = some l) (hm : s.opM = m) :
    l.msglen = BitVec.ofNat 16 m := by
  rw [← hm, opM_of_latch h, BitVec.ofNat_toNat, BitVec.setWidth_eq]

theorem toNat_widen (p : Params) (w : Half) : (BitVec.ofNat 32 (widen p w)).toNat = widen p w := by
  rw [BitVec.toNat_ofNat, Nat.mod_eq_of_lt (widen_lt_word p w)]

/-- A page address the policy passes is aligned and below the reserved region (R206). -/
theorem widen_of_policyPasses {s : State} (h : s.policyPasses = true) :
    widen s.params s.wireAddress % s.params.pageSize = 0 ∧ widen s.params s.wireAddress < s.params.bootStart := by
  simp only [State.policyPasses, Bool.and_eq_true, beq_iff_eq, decide_eq_true_eq] at h
  exact h.1

end Sys2Proof.Machine

namespace Sys2Proof
open Machine

/-- Settles O54: of what a DECODE can leave, only the accepted ChangeKey has another KEY. -/
theorem keyIsWrittenOnlyByItsOperations : Obligations.KeyIsWrittenOnlyByItsOperations := by
  intro s t hstep hne
  cases step_deviceStep hstep with
  | decode hl hw hi hd =>
    have hkey : t.device.key ≠ s.device.key := hne
    generalize hdev : t.device = d at hd hkey
    cases hd with
    | keyChanged k hm =>
      exact .inl ⟨_, hl, hw, .inr ⟨hi, msglen_of_opM hl hm, congrArg Device.verdict hdev, congrArg Device.action hdev⟩⟩
    | _ => exact absurd rfl hkey
  | keyload hl hw hi => exact .inl ⟨_, hl, hw, .inl hi⟩
  | kept hkey => exact absurd hkey hne
  | reset hbus hkey => exact .inr ⟨_, _, hkey ▸ hbus⟩

/-- Settles O55: of what a DECODE can leave, only the accepted sentinel has another EXITED, and it sets it. -/
theorem exitedIsSetBySentinelAndHeld : Obligations.ExitedIsSetBySentinelAndHeld := by
  intro s t hstep
  have hkept : t.exited = s.exited →
      (s.exited = false → t.exited = true → ∃ l, s.latch = some l ∧ s.wait = 0 ∧ decodeWord l.cmd = .ok .decode
        ∧ l.msglen = 2#16 ∧ s.wireAddress = s.params.startApp ∧ t.action = .startApp)
      ∧ (s.exited = true → t.exited = false → ∃ k image rest, s.bus = .reset k image :: rest) := fun e =>
    ⟨fun hs ht => absurd (e.symm.trans ht) (by simp [hs]), fun hs ht => absurd (e.symm.trans ht) (by simp [hs])⟩
  cases step_deviceStep hstep with
  | decode hl hw hi hd =>
    have hexited : t.exited = t.device.exited := rfl
    generalize hdev : t.device = d at hd hexited
    cases hd with
    | startApp hm hwire =>
      exact ⟨fun _ _ => ⟨_, hl, hw, hi, msglen_of_opM hl hm, hwire, congrArg Device.action hdev⟩,
        fun _ hf => Bool.noConfusion (hexited.symm.trans hf)⟩
    | _ => exact hkept hexited
  | keyload hl hw hi hexited => exact hkept hexited
  | kept hkey hexited => exact hkept hexited
  | reset hbus hkey hexited => exact ⟨fun _ ht => Bool.noConfusion (hexited.symm.trans ht), fun _ _ => ⟨_, _, _, hbus⟩⟩

/-- Settles O56: of what a DECODE can leave, only the accepted page has another PGADDR, and the policy passed it. -/
theorem pgaddrIsWrittenOnlyByAcceptedPages : Obligations.PgaddrIsWrittenOnlyByAcceptedPages := by
  intro s t hstep hne
  cases step_deviceStep hstep with
  | decode hl hw hi hd =>
    have hpgaddr : t.device.pgaddr ≠ s.device.pgaddr := hne
    generalize hdev : t.device = d at hd hpgaddr
    cases hd with
    | programPage hm hp =>
      obtain ⟨haligned, hbelow⟩ := widen_of_policyPasses hp
      have hpage : t.pgaddr = BitVec.ofNat 32 (widen s.params s.wireAddress) := congrArg Device.pgaddr hdev
      rw [← toNat_widen, ← hpage] at haligned hbelow
      exact .inl ⟨_, hl, hw, hi, opM_of_latch hl ▸ hm, congrArg Device.verdict hdev, congrArg Device.action hdev,
        haligned, hbelow⟩
    | _ => exact absurd rfl hpgaddr
  | keyload hl hw hi hexited hpgaddr => exact absurd hpgaddr hne
  | kept hkey hexited hpgaddr => exact absurd hpgaddr hne
  | reset hbus hkey hexited hpgaddr => exact .inr ⟨hpgaddr, _, _, _, hbus⟩

end Sys2Proof

namespace Sys2Proof.Machine

/-! ### The invariant, part by part -/

/-- What the invariant says of the fields that only DECODE, KEYLOAD and reset write (R29, R201, R206). -/
structure Device.Valid (p : Params) (d : Device) : Prop where
  rdaddrFits : d.rdaddr.toNat < 2 ^ p.addrBits
  pgaddrFits : d.pgaddr.toNat < 2 ^ p.addrBits
  pgaddrAligned : d.pgaddr.toNat % p.pageSize = 0
  pgaddrBelowBoot : d.pgaddr = 0#32 ∨ d.pgaddr.toNat < p.bootStart
  verdictIffAction : d.verdict = true ↔ d.action ≠ .none

/-- Whatever a DECODE leaves is valid, since the policy passed an accepted page's address. -/
theorem Decoded.valid {s : State} {d : Device} (hd : Decoded s d) (h : s.device.Valid s.params) : d.Valid s.params := by
  have hfits : (BitVec.ofNat 32 (widen s.params s.wireAddress)).toNat < 2 ^ s.params.addrBits := by
    rw [toNat_widen]
    exact widen_lt _ _
  cases hd with
  | rejected => exact h
  | setReadAddr => exact { h with rdaddrFits := hfits, verdictIffAction := by simp }
  | programPage hm hp =>
    obtain ⟨haligned, hbelow⟩ := widen_of_policyPasses hp
    rw [← toNat_widen] at haligned hbelow
    exact ⟨h.rdaddrFits, hfits, haligned, .inr hbelow, by simp⟩
  | startApp => exact { h with verdictIffAction := by simp }
  | keyChanged => exact { h with verdictIffAction := by simp }
  | authResponse => exact { h with verdictIffAction := by simp }

/-- The results an issue clears, without the error itself (R39, R241). -/
def State.NoResults (s : State) : Prop :=
  s.verdict = false ∧ s.kind = .none ∧ s.action = .none ∧ s.order = .equal

section
variable {s t : State}

theorem State.Inv.fits (h : s.Inv) : s.buf.Fits s.params.bufSize :=
  ⟨h.bufWf, h.bufWithin⟩

theorem State.Inv.device (h : s.Inv) : s.device.Valid s.params :=
  ⟨h.rdaddrFits, h.pgaddrFits, h.pgaddrAligned, h.pgaddrBelowBoot, h.verdictIffAction⟩

/-- The invariant of a state with no operation in flight. -/
theorem State.Inv.of_idle (hlatch : s.latch = none) (hbuf : s.buf.Fits s.params.bufSize) (hunused : s.unused ≤ 16)
    (hdevice : s.device.Valid s.params) (herr : s.err ≠ none → s.NoResults) : s.Inv where
  bufWf := hbuf.wf
  bufWithin := hbuf.within
  unusedLe := hunused
  rdaddrFits := hdevice.rdaddrFits
  pgaddrFits := hdevice.pgaddrFits
  pgaddrAligned := hdevice.pgaddrAligned
  pgaddrBelowBoot := hdevice.pgaddrBelowBoot
  verdictIffAction := hdevice.verdictIffAction
  errorQuiet := herr
  latchedOperands l hl := by simp [hlatch] at hl
  busyCleared hb := by simp [State.busy, hlatch] at hb

/-- The invariant says nothing of COLL and of what is the model's own. -/
theorem State.Inv.other_fields (h : s.Inv) (coll : Bool) (wait draws : Nat) (bus : List BusEvent) (responses : List Word)
    (duties : Duties) :
    ({ s with coll := coll, wait := wait, draws := draws, bus := bus, responses := responses, duties := duties } : State).Inv :=
  ⟨h.bufWf, h.bufWithin, h.unusedLe, h.rdaddrFits, h.pgaddrFits, h.pgaddrAligned, h.pgaddrBelowBoot, h.verdictIffAction,
    h.errorQuiet, h.latchedOperands, h.busyCleared⟩

/-! ### Performances keep the invariant -/

/-- An operation in flight that raises an error has reported nothing (R58, R241). -/
theorem State.Inv.error (h : s.Inv) (hb : s.busy = true) (e : ErrCode) (mismatch : Bool) :
    ({ s with err := some e, mismatch := mismatch, latch := none, wait := 0 } : State).Inv := by
  obtain ⟨-, -, hresults⟩ := h.busyCleared hb
  exact .of_idle rfl h.fits h.unusedLe h.device fun _ => hresults

theorem performed_valid {i : Instr} (h : s.device.Valid s.params) : (performed i s).device.Valid s.params := by
  by_cases hd : i = .decode
  · subst hd
    exact (performDecode_device s).valid h
  · rw [(performed_ends i s).device hd]
    exact { h with }

theorem State.Inv.of_ends {i : Instr} (h : s.Inv) (hb : s.busy = true) (hends : Ends i s t) (hframe : Performed s t)
    (hvalid : t.device.Valid s.params) : t.Inv := by
  cases hends with
  | success hs =>
    obtain ⟨herr, -⟩ := h.busyCleared hb
    have hbuf := hs.buf h.fits
    rw [← hframe.params] at hvalid hbuf
    exact .of_idle hframe.latch hbuf (hs.unused h.unusedLe) hvalid fun he => absurd (hs.err.trans herr) he
  | error e => exact h.error hb e s.mismatch
  | verifyError e => exact h.error hb e true

theorem State.Inv.performed (h : s.Inv) (hb : s.busy = true) (i : Instr) : (performed i s).Inv :=
  h.of_ends hb (performed_ends i s) (performed_frame i s) (performed_valid h.device)

/-! ### Turns of the bus keep the invariant -/

theorem State.Inv.issue (h : s.Inv) (cmd : Word) : (s.issue cmd).Inv where
  bufWf := h.bufWf
  bufWithin := h.bufWithin
  unusedLe := h.unusedLe
  rdaddrFits := h.rdaddrFits
  pgaddrFits := h.pgaddrFits
  pgaddrAligned := h.pgaddrAligned
  pgaddrBelowBoot := h.pgaddrBelowBoot
  verdictIffAction := by simp
  errorQuiet he := absurd rfl he
  latchedOperands l hl := by cases hl; exact ⟨rfl, rfl, rfl⟩
  busyCleared _ := ⟨rfl, rfl, rfl, rfl, rfl, rfl⟩

theorem State.Inv.writeReg (h : s.Inv) (hl : s.latch = none) (v : Word) (r : Reg) : (s.writeReg v r).Inv := by
  cases r with
  | cmd => exact h.issue v
  | arg0 => exact .of_idle hl h.fits h.unusedLe h.device h.errorQuiet
  | arg1 => exact .of_idle hl h.fits h.unusedLe h.device h.errorQuiet
  | msglen => exact .of_idle hl h.fits h.unusedLe h.device h.errorQuiet
  | _ => exact h

theorem State.Inv.busWrite (h : s.Inv) (w : Width) (offset : Half) (v : Word) : (s.busWrite w offset v).Inv := by
  unfold State.busWrite
  split_ifs with hb
  · exact h.other_fields true _ _ _ _ _
  have hl : s.latch = none := by simpa [State.busy] using hb
  split
  · exact h
  · exact h.writeReg hl v _
  next ht =>
    obtain ⟨-, -, hin⟩ := of_target_buf ht
    exact .of_idle hl (fits_writeLe _ h.fits hin) h.unusedLe h.device h.errorQuiet

theorem State.Inv.respond (h : s.Inv) (v : Word) : (s.respond v).Inv :=
  h.other_fields _ _ _ _ _ _

theorem State.Inv.respondFree (h : s.Inv) (w : Width) : (s.respondFree w).Inv :=
  h.other_fields _ _ _ _ _ _

theorem State.Inv.busRead (h : s.Inv) (w : Width) (offset : Half) : (s.busRead w offset).Inv := by
  unfold State.busRead
  split
  · exact h.respond _
  · split_ifs
    · exact h.respondFree _
    · exact h.respond _
  · split_ifs
    · exact h.respondFree _
    · exact h.respond _

theorem State.Inv.hostTurn (h : s.Inv) (m : HostMove) : (s.hostTurn m).Inv := by
  obtain ⟨w, offset, v, d, -, -, hm⟩ | ⟨w, offset, -, -, hm⟩ | hm | ⟨d, hm⟩ := hostTurn_cases s m
  · rw [hm]
    exact (h.other_fields _ _ _ _ _ d).busWrite w offset v
  · rw [hm]
    exact h.busRead w offset
  · obtain ⟨d, hd⟩ := hostReadsStatus_eq s
    rw [hm, hd]
    exact h.other_fields _ _ _ _ _ _
  · rw [hm]
    exact h.other_fields _ _ _ _ _ _

/-- A reset leaves the invariant whatever the state before, since BUF's new bytes are cut at its size. -/
theorem applyReset_inv (s : State) (k : Key) (image : List Byte) : (s.applyReset k image).Inv := by
  have hbuf : (Memory.writeBytes [] 0 (image.take s.params.bufSize)).Fits s.params.bufSize :=
    fits_writeBytes ⟨rfl, rfl⟩ (by simp)
  refine .of_idle rfl hbuf (Nat.zero_le _) ?_ fun he => absurd rfl he
  exact ⟨Nat.two_pow_pos _, Nat.two_pow_pos _, Nat.zero_mod _, .inl rfl, by simp [State.device]⟩

theorem State.Inv.busTurn (h : s.Inv) : s.busTurn.Inv := by
  have hrest : ∀ rest, ({ s with bus := rest } : State).Inv := fun rest => h.other_fields _ _ _ rest _ _
  unfold State.busTurn
  split
  · exact h
  · split_ifs
    · exact h.hostTurn _
    · exact (hrest _).hostTurn _
  · exact (hrest _).busWrite _ _ _
  · exact (hrest _).busRead _ _
  · split_ifs
    · exact h.respond _
    · exact (hrest _).respond _
  · exact applyReset_inv _ _ _

end

end Sys2Proof.Machine

namespace Sys2Proof
open Machine

/-- Settles O59: a step is a performance, an illegal word's error or a turn of the bus, and each keeps the invariant. -/
theorem everyStepKeepsTheInvariant : Obligations.EveryStepKeepsTheInvariant := by
  intro s t h hstep
  obtain ⟨l, i, hl, -, -, rfl⟩ | ⟨l, hl, -, -, rfl⟩ | ⟨l, n, -, -, rfl⟩ | ⟨-, rfl⟩ := step_cases hstep
  · exact h.performed (by simp [State.busy, hl]) i
  · exact h.error (by simp [State.busy, hl]) .illegal s.mismatch
  · exact (h.other_fields _ n _ _ _ _).busTurn
  · exact h.busTurn

end Sys2Proof

/-! PROOFS. The bus and the life of an operation (spec/20_memory.md): what a step is in each case, what a bus write and a
bus read do busy and idle, what can change while an operation waits, and that no turn of the bus reads a secret. -/

namespace Sys2Proof.Machine

/-! ### What a step is (R58, R61, R283) -/

section
variable {s : State}

theorem step_performs {l : Latch} (hl : s.latch = some l) (hw : s.wait = 0) : step s = performLatched l s := by
  simp [step, hl, hw]

theorem step_waiting {n : Nat} (hb : s.busy = true) (hw : s.wait = n + 1) :
    step s = .next ({ s with wait := n } : State).busTurn := by
  obtain ⟨l, hl⟩ := Option.isSome_iff_exists.mp hb
  simp [step, hl, hw]

theorem step_idle (hb : s.busy = false) : step s = .next s.busTurn := by
  have hl : s.latch = none := by simpa [State.busy] using hb
  simp [step, hl]

/-- The turns of the bus still to pass after one has passed: one less, while an operation waits (R283). -/
def State.waitAfterTurn (s : State) : Nat :=
  if s.busy then s.wait - 1 else s.wait

/-- A step that performs no operation is a turn of the bus. -/
theorem step_turn (h : s.busy = true → s.wait ≠ 0) :
    step s = .next ({ s with wait := s.waitAfterTurn } : State).busTurn := by
  cases hb : s.busy with
  | true =>
    rw [step_waiting hb (Nat.succ_pred_eq_of_ne_zero (h hb)).symm, State.waitAfterTurn, hb]
    rfl
  | false =>
    rw [step_idle hb, State.waitAfterTurn, hb]
    rfl

/-- A performance ends with BUSY = 0, whether the latched word is legal or not (R58, R72). -/
theorem performLatched_ends (l : Latch) (s : State) : ∃ t, performLatched l s = .next t ∧ t.busy = false := by
  by_cases hd : ∃ i, decodeWord l.cmd = .ok i
  · obtain ⟨i, hi⟩ := hd
    refine ⟨performed i s, by rw [performLatched_ok s hi, exec_eq], ?_⟩
    simp [State.busy, (performed_frame i s).latch]
  · exact ⟨_, performLatched_illegal s (not_exists.mp hd), rfl⟩

/-! ### Turns of the bus by a bare access -/

theorem busTurn_write {w : Width} {offset : Half} {v : Word} {rest : List BusEvent}
    (h : s.bus = .write w offset v :: rest) : s.busTurn = ({ s with bus := rest } : State).busWrite w offset v := by
  simp [State.busTurn, h]

theorem busTurn_read {w : Width} {offset : Half} {rest : List BusEvent} (h : s.bus = .read w offset :: rest) :
    s.busTurn = ({ s with bus := rest } : State).busRead w offset := by
  simp [State.busTurn, h]

theorem busTurn_poll_busy {rest : List BusEvent} (hb : s.busy = true)
    (h : s.bus = .poll :: rest ∨ s.bus = .host .poll :: rest) : s.busTurn = s.respond s.statusWord := by
  obtain h | h := h
  · simp [State.busTurn, h, hb]
  · simp [State.busTurn, h, hb, State.hostTurn, State.mayMove, State.makeMove, State.hostReadsStatus]

theorem busTurn_poll_idle {rest : List BusEvent} (hb : s.busy = false) (h : s.bus = .poll :: rest) :
    s.busTurn = ({ s with bus := rest } : State).respond s.statusWord := by
  simp [State.busTurn, h, hb]

/-- A bus read is made by every step that performs no operation. -/
theorem step_read {w : Width} {offset : Half} {rest : List BusEvent} (h : s.busy = true → s.wait ≠ 0)
    (hbus : s.bus = .read w offset :: rest) :
    step s = .next (({ s with wait := s.waitAfterTurn, bus := rest } : State).busRead w offset) :=
  (step_turn h).trans (congrArg _ (busTurn_read (s := { s with wait := s.waitAfterTurn }) hbus))

theorem step_read_idle {w : Width} {offset : Half} {rest : List BusEvent} (hb : s.busy = false)
    (hbus : s.bus = .read w offset :: rest) : step s = .next (({ s with bus := rest } : State).busRead w offset) :=
  (step_idle hb).trans (congrArg _ (busTurn_read hbus))

/-! ### Bus writes (R59) -/

theorem busWrite_busy (w : Width) (offset : Half) (v : Word) (hb : s.busy = true) :
    s.busWrite w offset v = { s with coll := true } := by
  simp [State.busWrite, hb]

theorem busWrite_buf {w : Width} {offset : Half} {a : Nat} (v : Word) (hb : s.busy = false)
    (ht : target s.params w offset = .buf a) :
    s.busWrite w offset v = { s with buf := Memory.writeLe s.buf a w.bytes v.toNat } := by
  simp [State.busWrite, hb, ht]

theorem busWrite_nothing {w : Width} {offset : Half} (v : Word) (hb : s.busy = false)
    (ht : target s.params w offset = .nothing) : s.busWrite w offset v = s := by
  simp [State.busWrite, hb, ht]

theorem step_write_busy {n : Nat} {w : Width} {offset : Half} {v : Word} {rest : List BusEvent} (hb : s.busy = true)
    (hw : s.wait = n + 1) (h : s.bus = .write w offset v :: rest) :
    step s = .next { s with coll := true, wait := n, bus := rest } :=
  calc step s = .next ({ s with wait := n } : State).busTurn := step_waiting hb hw
    _ = .next (({ s with wait := n, bus := rest } : State).busWrite w offset v) :=
      congrArg _ (busTurn_write (s := { s with wait := n }) h)
    _ = .next { s with coll := true, wait := n, bus := rest } :=
      congrArg _ (busWrite_busy (s := { s with wait := n, bus := rest }) w offset v hb)

/-! ### Bus reads (R60, R62) -/

/-- A read returns a value and changes nothing of the block; only a read with an operation in flight draws. -/
theorem busRead_eq (s : State) (w : Width) (offset : Half) :
    ∃ v d, s.busRead w offset = { s with responses := v :: s.responses, draws := d } ∧ (s.busy = false → d = s.draws) := by
  have hkept : ∀ v, ∃ v' d, s.respond v = { s with responses := v' :: s.responses, draws := d }
      ∧ (s.busy = false → d = s.draws) := fun v => ⟨v, s.draws, rfl, fun _ => rfl⟩
  have hfree : s.busy = true → ∃ v d, s.respondFree w = { s with responses := v :: s.responses, draws := d }
      ∧ (s.busy = false → d = s.draws) := fun hb => ⟨_, _, rfl, fun hf => absurd hf (by simp [hb])⟩
  unfold State.busRead
  split
  · exact hkept _
  · split_ifs with hb
    · exact hfree (Bool.and_eq_true_iff.mp hb).1
    · exact hkept _
  · split_ifs with hb
    · exact hfree hb
    · exact hkept _

theorem regValue_wait_bus (s : State) (n : Nat) (bus : List BusEvent) (r : Reg) :
    ({ s with wait := n, bus := bus } : State).regValue r = s.regValue r := by
  cases r <;> rfl

/-- STATUS, ARG0, ARG1 and CMD are read as they stand, and every register with no operation in flight. -/
theorem busRead_register {r : Reg} (h : s.busy = false ∨ r.readableBusy = true) :
    s.busRead .word r.offset = s.respond (s.regValue r) := by
  have ht : target s.params .word r.offset = .reg r := by cases r <;> rfl
  have hread : (s.busy && !r.readableBusy) = false := by
    obtain h | h := h <;> simp [h]
  simp [State.busRead, ht, hread]

theorem busRead_buf {w : Width} {offset : Half} {a : Nat} (hb : s.busy = false)
    (ht : target s.params w offset = .buf a) :
    s.busRead w offset = s.respond (BitVec.ofNat 32 (Memory.readLe s.buf a w.bytes)) := by
  simp [State.busRead, hb, ht]

theorem busRead_nothing {w : Width} {offset : Half} (ht : target s.params w offset = .nothing) :
    s.busRead w offset = s.respond 0#32 := by
  simp [State.busRead, ht]

end

/-! ### Accesses that reach nothing (R23, R52, R53) -/

theorem Reg.offset_aligned (r : Reg) : r.offset.toNat % 4 = 0 ∧ r.offset.toNat < 0x0024 := by
  cases r <;> decide

theorem target_misplaced_register (p : Params) {w : Width} {offset : Half} (hlt : offset.toNat < 0x8000)
    (h : w ≠ .word ∨ offset.toNat % 4 ≠ 0 ∨ 0x0024 ≤ offset.toNat) : target p w offset = .nothing := by
  cases w with
  | byte => simp [target, hlt]
  | half => simp [target, hlt]
  | word =>
    obtain ⟨r, rfl, -⟩ | ⟨-, ht⟩ := target_register p hlt
    · obtain ⟨haligned, hbelow⟩ := r.offset_aligned
      obtain h | h | h := h
      · exact absurd rfl h
      · exact absurd haligned h
      · omega
    · exact ht

theorem target_misplaced_buf (p : Params) {w : Width} {offset : Half} (hge : 0x8000 ≤ offset.toNat)
    (h : offset.toNat % w.bytes ≠ 0 ∨ p.bufSize < offset.toNat - 0x8000 + w.bytes) : target p w offset = .nothing := by
  unfold target
  rw [if_neg (by omega), if_neg (by omega)]

/-! ### Byte lanes (R51) -/

/-- Byte lane `j` of a value. -/
theorem ofNat_div_eq_extractLsb' (v : Word) (j : Nat) : BitVec.ofNat 8 (v.toNat / 256 ^ j) = v.extractLsb' (8 * j) 8 := by
  apply BitVec.eq_of_toNat_eq
  rw [BitVec.extractLsb'_toNat, BitVec.toNat_ofNat, Nat.shiftRight_eq_div_pow, Nat.pow_mul]

/-- A value read from BUF fits the bus. -/
theorem toNat_readLe (m : Memory) (a : Nat) (w : Width) :
    (BitVec.ofNat 32 (Memory.readLe m a w.bytes)).toNat = Memory.readLe m a w.bytes := by
  have hfits : 256 ^ w.bytes ≤ 2 ^ 32 := by cases w <;> decide
  rw [BitVec.toNat_ofNat, Nat.mod_eq_of_lt (lt_of_lt_of_le (readLe_lt m a w.bytes) hfits)]

/-- A byte read has zeros above its lane (notes/assumptions/7.md). -/
theorem ofNat_readLe_byte (m : Memory) (a : Nat) :
    BitVec.ofNat 32 (Memory.readLe m a Width.byte.bytes) = (Memory.read m a).setWidth 32 := by
  apply BitVec.eq_of_toNat_eq
  rw [toNat_readLe, BitVec.toNat_setWidth, Nat.mod_eq_of_lt (by omega)]
  simp [Memory.readLe, Width.bytes]

/-! ### What can change while an operation waits (R58, R59, R283) -/

/-- Two states of which the second comes after some turns of the bus with the operation still in flight: COLL and the model's
own fields may differ, and moves may have been made. -/
def State.LaterInFlight (s t : State) : Prop :=
  ∃ coll wait draws bus responses duties,
    t = { s with coll := coll, wait := wait, draws := draws, bus := bus, responses := responses, duties := duties }

theorem State.LaterInFlight.trans {s t u : State} (h : s.LaterInFlight t) (k : t.LaterInFlight u) : s.LaterInFlight u := by
  obtain ⟨_, _, _, _, _, _, rfl⟩ := h
  obtain ⟨_, _, _, _, _, _, rfl⟩ := k
  exact ⟨_, _, _, _, _, _, rfl⟩

theorem State.LaterInFlight.latch {s t : State} (h : s.LaterInFlight t) : t.latch = s.latch := by
  obtain ⟨_, _, _, _, _, _, rfl⟩ := h
  rfl

/-- What a turn of the bus leaves that is no reset and comes with an operation in flight: the latency and the block but for
COLL as they were, and the oldest move still pending or made. -/
inductive BusyTurn (s : State) : State → Prop where
  | pending (coll : Bool) (draws : Nat) (responses : List Word) (duties : Duties) :
      BusyTurn s { s with coll := coll, draws := draws, responses := responses, duties := duties }
  | made {e : BusEvent} {rest : List BusEvent} (hbus : s.bus = e :: rest) (coll : Bool) (draws : Nat)
      (responses : List Word) (duties : Duties) :
      BusyTurn s { s with coll := coll, draws := draws, bus := rest, responses := responses, duties := duties }

section
variable {s t : State}

theorem BusyTurn.later (h : BusyTurn s t) : s.LaterInFlight t := by
  cases h <;> exact ⟨_, _, _, _, _, _, rfl⟩

theorem BusyTurn.wait (h : BusyTurn s t) : t.wait = s.wait := by
  cases h <;> rfl

/-- A move to come after the turn was to come before it, at most one move later. -/
theorem BusyTurn.mem_bus (h : BusyTurn s t) {n : Nat} {e : BusEvent} (he : e ∈ t.bus.take n) : e ∈ s.bus.take (n + 1) := by
  cases h with
  | pending => exact List.take_subset_take_left s.bus (Nat.le_succ n) he
  | made hbus =>
    rw [hbus]
    exact List.mem_cons_of_mem _ he

theorem hostTurn_busy (m : HostMove) (hb : s.busy = true) :
    ∃ responses duties, s.hostTurn m = { s with responses := responses, duties := duties } := by
  obtain ⟨w, offset, v, d, -, hidle, -⟩ | ⟨w, offset, -, hidle, -⟩ | h | ⟨d, h⟩ := hostTurn_cases s m
  · simp [hb] at hidle
  · simp [hb] at hidle
  · obtain ⟨d, hd⟩ := hostReadsStatus_eq s
    exact ⟨_, d, h.trans hd⟩
  · exact ⟨_, d, h⟩

theorem busTurn_busy (hb : s.busy = true) (hr : ∀ k image rest, s.bus ≠ .reset k image :: rest) :
    BusyTurn s s.busTurn := by
  cases hbus : s.bus with
  | nil =>
    simp only [State.busTurn, hbus]
    exact .pending _ _ _ _
  | cons e rest =>
    cases e with
    | host m =>
      simp only [State.busTurn, hbus]
      split_ifs
      · obtain ⟨_, _, h⟩ := hostTurn_busy m hb
        rw [h]
        exact .pending _ _ _ _
      · obtain ⟨_, _, h⟩ := hostTurn_busy (s := { s with bus := rest }) m hb
        rw [h]
        exact .made hbus _ _ _ _
    | write w offset v =>
      rw [busTurn_write hbus, busWrite_busy (s := { s with bus := rest }) w offset v hb]
      exact .made hbus _ _ _ _
    | read w offset =>
      obtain ⟨_, _, h, -⟩ := busRead_eq { s with bus := rest } w offset
      rw [busTurn_read hbus, h]
      exact .made hbus _ _ _ _
    | poll =>
      rw [busTurn_poll_busy hb (.inl hbus)]
      exact .pending _ _ _ _
    | reset k image => exact absurd hbus (hr k image rest)

/-- A run goes on from the next state. -/
theorem run_succ {n : Nat} (h : step s = .next t) : Host.Core.run core (n + 1) s = Host.Core.run core n t := by
  simp only [Host.Core.run, show core.step s = .next t from h]

end

/-- A step with an operation that waits and no reset: one turn less to wait, and the operation still in flight. -/
theorem step_in_flight {s : State} {n : Nat} (hb : s.busy = true) (hw : s.wait = n + 1)
    (hr : ∀ e ∈ s.bus.take s.wait, ∀ k image, e ≠ .reset k image) :
    ∃ t, step s = .next t ∧ s.LaterInFlight t ∧ t.wait = n ∧ ∀ e ∈ t.bus.take n, ∀ k image, e ≠ .reset k image := by
  rw [hw] at hr
  have hturn := busTurn_busy (s := { s with wait := n }) hb fun k image rest hbus =>
    hr (.reset k image) (by simp [show s.bus = _ from hbus]) k image rfl
  exact ⟨_, step_waiting hb hw, .trans ⟨_, _, _, _, _, _, rfl⟩ hturn.later, hturn.wait, fun e he => hr e (hturn.mem_bus he)⟩

/-- An operation that waits is still in flight after any number of steps within its latency, unless a reset comes before
(R58, R283). -/
theorem run_in_flight {n : Nat} {s : State} (hb : s.busy = true) (hn : n ≤ s.wait)
    (hr : ∀ e ∈ s.bus.take s.wait, ∀ k image, e ≠ .reset k image) :
    ∃ t, Host.Core.run core n s = .next t ∧ s.LaterInFlight t ∧ t.wait = s.wait - n := by
  induction n generalizing s with
  | zero => exact ⟨s, rfl, ⟨_, _, _, _, _, _, rfl⟩, rfl⟩
  | succ n ih =>
    have hw : s.wait = s.wait - 1 + 1 := by omega
    obtain ⟨t, hstep, hlater, hwait, hrest⟩ := step_in_flight hb hw hr
    have hbt : t.busy = true := by rw [State.busy, hlater.latch, ← State.busy, hb]
    obtain ⟨u, hrun, hlater', hwait'⟩ := ih hbt (by omega) (by rwa [hwait])
    exact ⟨u, by rw [run_succ hstep, hrun], hlater.trans hlater', by omega⟩

/-! ### The secrets (R67) -/

/-- What no bus access reads: KEY, ACC, CTR and KS. -/
structure Secrets where
  key : Key
  acc : Block
  ctr : Block
  ks : Block

/-- The state with other secrets. -/
def State.withSecrets (s : State) (x : Secrets) : State :=
  { s with key := x.key, acc := x.acc, ctr := x.ctr, ks := x.ks }

theorem sameButSecrets_iff {s t : State} : s.SameButSecrets t ↔ ∃ x, t = s.withSecrets x := by
  constructor
  · intro h
    refine ⟨⟨t.key, t.acc, t.ctr, t.ks⟩, ?_⟩
    rw [← show _ = s from h]
    rfl
  · rintro ⟨x, rfl⟩
    rfl

@[simp] theorem withSecrets_params (s : State) (x : Secrets) : (s.withSecrets x).params = s.params := rfl
@[simp] theorem withSecrets_busy (s : State) (x : Secrets) : (s.withSecrets x).busy = s.busy := rfl
@[simp] theorem withSecrets_bus (s : State) (x : Secrets) : (s.withSecrets x).bus = s.bus := rfl
@[simp] theorem withSecrets_duties (s : State) (x : Secrets) : (s.withSecrets x).duties = s.duties := rfl

theorem regValue_withSecrets (s : State) (x : Secrets) (r : Reg) : (s.withSecrets x).regValue r = s.regValue r := by
  cases r <;> rfl

theorem busRead_withSecrets (s : State) (x : Secrets) (w : Width) (offset : Half) :
    (s.withSecrets x).busRead w offset = (s.busRead w offset).withSecrets x := by
  unfold State.busRead
  rw [withSecrets_params, withSecrets_busy]
  cases target s.params w offset with
  | nothing => rfl
  | reg r =>
    dsimp only
    rw [regValue_withSecrets]
    split_ifs <;> rfl
  | buf a =>
    dsimp only
    split_ifs <;> rfl

theorem busWrite_withSecrets (s : State) (x : Secrets) (w : Width) (offset : Half) (v : Word) :
    (s.withSecrets x).busWrite w offset v = (s.busWrite w offset v).withSecrets x := by
  unfold State.busWrite
  rw [withSecrets_params, withSecrets_busy]
  cases s.busy with
  | true => rfl
  | false =>
    cases target s.params w offset with
    | nothing => rfl
    | reg r => cases r <;> rfl
    | buf a => rfl

theorem hostReadsStatus_withSecrets (s : State) (x : Secrets) :
    (s.withSecrets x).hostReadsStatus = s.hostReadsStatus.withSecrets x := by
  unfold State.hostReadsStatus
  rw [withSecrets_busy]
  cases s.busy <;> rfl

theorem mayMove_withSecrets (s : State) (x : Secrets) (m : HostMove) : (s.withSecrets x).mayMove m = s.mayMove m := by
  cases m <;> rfl

theorem makeMove_withSecrets (s : State) (x : Secrets) (m : HostMove) :
    (s.withSecrets x).makeMove m = (s.makeMove m).withSecrets x := by
  cases m with
  | write w offset v => exact busWrite_withSecrets { s with duties := s.noteWrite w offset v } x w offset v
  | read w offset =>
    simp only [State.makeMove]
    split_ifs
    · exact hostReadsStatus_withSecrets s x
    · exact busRead_withSecrets s x w offset
  | poll => exact hostReadsStatus_withSecrets s x
  | compareResponse r =>
    simp only [State.makeMove, State.payCompare, withSecrets_duties]
    split <;> rfl
  | _ => rfl

theorem hostTurn_withSecrets (s : State) (x : Secrets) (m : HostMove) :
    (s.withSecrets x).hostTurn m = (s.hostTurn m).withSecrets x := by
  unfold State.hostTurn
  rw [mayMove_withSecrets, makeMove_withSecrets]
  split_ifs <;> rfl

/-- A turn of the bus reads no secret: it leaves them as they were, or a reset's own. -/
theorem busTurn_withSecrets (s : State) (x : Secrets) : ∃ y, (s.withSecrets x).busTurn = s.busTurn.withSecrets y := by
  unfold State.busTurn
  rw [withSecrets_bus, withSecrets_busy]
  cases s.bus with
  | nil => exact ⟨x, rfl⟩
  | cons e rest =>
    cases e with
    | host m =>
      refine ⟨x, ?_⟩
      dsimp only
      split_ifs
      · exact hostTurn_withSecrets s x m
      · exact hostTurn_withSecrets { s with bus := rest } x m
    | write w offset v => exact ⟨x, busWrite_withSecrets { s with bus := rest } x w offset v⟩
    | read w offset => exact ⟨x, busRead_withSecrets { s with bus := rest } x w offset⟩
    | poll =>
      refine ⟨x, ?_⟩
      dsimp only
      split_ifs <;> rfl
    | reset k image => exact ⟨⟨k, 0#128, 0#128, 0#128⟩, rfl⟩

end Sys2Proof.Machine

namespace Sys2Proof
open Machine

/-- Settles O4: the latched word's performance is that of its operation. -/
theorem stepPerformsDecodedCommand : Obligations.StepPerformsDecodedCommand := by
  intro s l i hl hw hi
  rw [step_performs hl hw, performLatched_ok s hi]

/-- Settles O5: a poll's turn is a read of STATUS, whoever polls. -/
theorem otherStepsAreHostTurns : Obligations.OtherStepsAreHostTurns := by
  refine ⟨fun s n => step_waiting, fun s => step_idle, fun s hb hbus => ?_, fun s n rest hb hw hbus => ?_,
    fun s rest hb hbus => ?_⟩
  · rw [step_idle hb, State.busTurn, hbus]
  · exact (step_waiting hb hw).trans (congrArg _ (busTurn_poll_busy (s := { s with wait := n }) hb hbus))
  · rw [step_idle hb, busTurn_poll_idle hb hbus]
    rfl

/-- Settles O7: an aligned word write at CMD's offset is the issue. -/
theorem commandWriteIssues : Obligations.CommandWriteIssues := by
  intro s w rest hl hbus
  have hb : s.busy = false := by simp [State.busy, hl]
  have hissue : ({ s with bus := rest } : State).busWrite .word Reg.cmd.offset w = ({ s with bus := rest } : State).issue w :=
    busWrite_register (s := { s with bus := rest }) w hb
  exact ⟨_, _, (step_write_idle hb hbus).trans (congrArg _ hissue)⟩

/-- Settles O8: the induction over the turns of the latency, then one performance. -/
theorem issuedOperationPerforms : Obligations.IssuedOperationPerforms := by
  intro s l hl hr
  have hb : s.busy = true := by simp [State.busy, hl]
  constructor
  · intro n hn
    obtain ⟨v, hrun, hlater, -⟩ := run_in_flight hb hn hr
    have hv : v.latch = some l := hlater.latch.trans hl
    exact ⟨v, hrun, hv, by simp [State.busy, hv]⟩
  · obtain ⟨u, hrun, hlater, hwait⟩ := run_in_flight hb le_rfl hr
    have hu : u.latch = some l := hlater.latch.trans hl
    rw [Nat.sub_self] at hwait
    have hstep := step_performs hu hwait
    obtain ⟨t, ht, hidle⟩ := performLatched_ends l u
    obtain ⟨_, _, _, _, _, _, rfl⟩ := hlater
    exact ⟨_, hrun, hu, hwait, rfl, rfl, rfl, rfl, rfl, rfl, rfl, rfl, rfl, t, hstep, hstep.trans ht, hidle⟩

/-- Settles O10: a busy write does not look at its target. -/
theorem writesWhileBusyOnlyCollide : Obligations.WritesWhileBusyOnlyCollide :=
  fun _ _ _ _ _ _ hb hw hbus => step_write_busy hb hw hbus

/-- Settles O11: each offset of the register window is read as the value of the register at it. -/
theorem readsReturn : Obligations.ReadsReturn := by
  refine ⟨fun s n w offset rest hb hw hbus => ?_, fun s offset v rest hb hbus hmem => ?_, fun s o rest hb ho hbus => ?_⟩
  · obtain ⟨v, d, hread, -⟩ := busRead_eq { s with wait := n, bus := rest } w offset
    have hvalue : ∀ r : Reg, r.readableBusy = true → w = .word → offset = r.offset → v = s.regValue r := by
      rintro r hr rfl rfl
      rw [busRead_register (.inr hr), regValue_wait_bus] at hread
      exact (List.head_eq_of_cons_eq (congrArg State.responses hread)).symm
    refine ⟨v, d, ?_, hvalue .status rfl, hvalue .arg0 rfl, hvalue .arg1 rfl⟩
    exact (step_waiting hb hw).trans (congrArg _ ((busTurn_read (s := { s with wait := n }) hbus).trans hread))
  · have hregs : (offset, v) ∈ [Reg.cmd, .arg0, .arg1, .msglen, .status, .result, .rdaddr, .pgaddr, .ctrstat].map
        (fun r => (r.offset, s.regValue r)) := hmem
    obtain ⟨r, -, hr⟩ := List.mem_map.mp hregs
    obtain ⟨rfl, rfl⟩ := Prod.mk.inj hr
    rw [step_read_idle hb hbus, busRead_register (s := { s with bus := rest }) (.inl hb),
      regValue_wait_bus s s.wait rest]
    rfl
  · have ht := target_buf s.params .byte o (Nat.mod_one o) ho
    rw [step_read_idle hb hbus, busRead_buf (s := { s with bus := rest }) hb ht, ofNat_readLe_byte]
    rfl

/-- Settles O12: whatever the read returns, `busRead_eq` is the whole of its effect. -/
theorem readsHaveNoSideEffects : Obligations.ReadsHaveNoSideEffects := by
  intro s w offset rest hturn hbus
  obtain ⟨v, d, hread, hdraws⟩ := busRead_eq { s with wait := s.waitAfterTurn, bus := rest } w offset
  refine ⟨v, d, s.waitAfterTurn, (step_read hturn hbus).trans (congrArg _ hread), fun hb => ⟨?_, hdraws hb⟩⟩
  simp [State.waitAfterTurn, hb]

/-- Settles O13: an aligned access inside BUF is a little-endian integer there. -/
theorem bufLanesAreLittleEndian : Obligations.BufLanesAreLittleEndian := by
  constructor
  · intro s w o v rest hb halign hin hbus
    have ht := target_buf s.params w o halign hin
    refine ⟨Memory.writeLe s.buf o w.bytes v.toNat,
      (step_write_idle hb hbus).trans (congrArg _ (busWrite_buf (s := { s with bus := rest }) v hb ht)),
      fun j hj => ?_, fun x hx => ?_⟩
    · rw [read_writeLe, if_pos (by omega), Nat.add_sub_cancel_left, ofNat_div_eq_extractLsb']
    · rw [read_writeLe, if_neg (by omega)]
  · intro s w o rest hb halign hin hbus
    have ht := target_buf s.params w o halign hin
    refine ⟨_, (step_read_idle hb hbus).trans (congrArg _ (busRead_buf (s := { s with bus := rest }) hb ht)),
      fun j hj => ?_, ?_⟩
    · rw [← ofNat_div_eq_extractLsb', toNat_readLe, readLe_byte s.buf o w.bytes j hj]
    · rw [toNat_readLe, Nat.pow_mul]
      exact readLe_lt s.buf o w.bytes

/-- Settles O14: such an access reaches nothing. -/
theorem misplacedAccessesAreIgnored : Obligations.MisplacedAccessesAreIgnored := by
  intro s w offset rest h
  have ht : target s.params w offset = .nothing := by
    obtain ⟨hlt, h⟩ | ⟨hge, h⟩ := h
    · exact target_misplaced_register s.params hlt h
    · exact target_misplaced_buf s.params hge h
  refine ⟨fun hb => ⟨fun v hbus => ?_, fun hbus => ?_⟩, fun n v hb hw hbus => step_write_busy hb hw hbus⟩
  · exact (step_write_idle hb hbus).trans (congrArg _ (busWrite_nothing (s := { s with bus := rest }) v hb ht))
  · exact (step_read_idle hb hbus).trans (congrArg _ (busRead_nothing (s := { s with bus := rest }) ht))

/-- Settles O57: the two states' turns of the bus are one turn, with other secrets beside it. -/
theorem hostTurnsCannotReadSecrets : Obligations.HostTurnsCannotReadSecrets := by
  intro s t hsame hturn
  obtain ⟨x, rfl⟩ := sameButSecrets_iff.mp hsame
  obtain ⟨y, hy⟩ := busTurn_withSecrets { s with wait := s.waitAfterTurn } x
  exact ⟨_, _, step_turn hturn, (step_turn (s := s.withSecrets x) hturn).trans (congrArg _ hy), rfl,
    sameButSecrets_iff.mpr ⟨y, rfl⟩⟩

end Sys2Proof

/-! PROOFS. The encoding (spec/30_encoding.md): the decoder and the encoder are inverse, a word decodes exactly when it is legal,
and a pseudo-instruction is a run of operand writes and the issue. -/

namespace Sys2Proof

/-! ### The opcode map (R71) -/

/-- The operations other than ENCODE have the OPCODEs 0x01 to 0x0E and 0x10. -/
theorem exists_plainOperation_iff (n : Nat) : (∃ i, plainOperation n = some i) ↔ (1 ≤ n ∧ n ≤ 0x0E) ∨ n = 0x10 := by
  constructor
  · rintro ⟨i, h⟩
    unfold plainOperation at h
    split at h <;> cases h <;> decide
  · rintro (⟨h1, h14⟩ | rfl)
    · interval_cases n <;> exact ⟨_, rfl⟩
    · exact ⟨_, rfl⟩

/-- ENCODE's operations have the KINDs 1 to 4. -/
theorem exists_encodeOperation_iff (n : Nat) : (∃ i, encodeOperation n = some i) ↔ 1 ≤ n ∧ n ≤ 4 := by
  constructor
  · rintro ⟨i, h⟩
    unfold encodeOperation at h
    split at h <;> cases h <;> decide
  · rintro ⟨h1, h4⟩
    interval_cases n <;> exact ⟨_, rfl⟩

theorem encode_of_plainOperation {n : Nat} {i : Instr} (h : plainOperation n = some i) :
    encode i = CmdFields.toWord ⟨0#20, 0#4, BitVec.ofNat 8 n⟩ := by
  unfold plainOperation at h
  split at h <;> cases h <;> rfl

theorem encode_of_encodeOperation {n : Nat} {i : Instr} (h : encodeOperation n = some i) :
    encode i = CmdFields.toWord ⟨0#20, BitVec.ofNat 4 n, 0x11#8⟩ := by
  unfold encodeOperation at h
  split at h <;> cases h <;> rfl

/-! ### Decoding a command word (R70, R72, R73) -/

theorem decodeFields_eq_ok_iff (f : CmdFields) (i : Instr) :
    decodeFields f = .ok i ↔ f.reserved = 0#20
      ∧ (f.opcode = 0x11#8 ∧ encodeOperation f.kind.toNat = some i
        ∨ f.opcode ≠ 0x11#8 ∧ f.kind = 0#4 ∧ plainOperation f.opcode.toNat = some i) := by
  unfold decodeFields
  by_cases hreserved : f.reserved = 0#20
  · by_cases hencode : f.opcode = 0x11#8
    · cases h : encodeOperation f.kind.toNat <;> simp [hreserved, hencode]
    · cases h : plainOperation f.opcode.toNat with
      | none => simp [hreserved, hencode]
      | some j => by_cases hkind : f.kind = 0#4 <;> simp [hreserved, hencode, hkind]
  · simp [hreserved]

/-- The decoder takes exactly the words that pass R72's four checks. -/
theorem exists_decodeFields_iff (f : CmdFields) : (∃ i, decodeFields f = .ok i) ↔ f.wf = true := by
  simp only [decodeFields_eq_ok_iff, exists_and_left, exists_or, exists_plainOperation_iff, exists_encodeOperation_iff,
    CmdFields.wf, CmdFields.opcodeKnown, CmdFields.kindUnused, CmdFields.kindInRange, CmdFields.reservedZero]
  by_cases hencode : f.opcode = 0x11#8
  · simp [hencode, and_comm]
  · have hdecode : f.opcode.toNat = 0x10 ↔ f.opcode = 0x10#8 := BitVec.toNat_inj (y := 0x10#8)
    simp [hencode, hdecode, and_comm]

theorem opcodeKnown_iff (f : CmdFields) :
    f.opcodeKnown = true ↔ f.opcode.toNat ∈ [1, 2, 3, 4, 5, 6, 7, 8, 9, 10, 11, 12, 13, 14, 16, 17] := by
  simp only [CmdFields.opcodeKnown, Bool.or_eq_true, Bool.and_eq_true, decide_eq_true_eq, beq_iff_eq, ← BitVec.toNat_inj,
    BitVec.toNat_ofNat, List.mem_cons, List.not_mem_nil, or_false]
  omega

theorem kindInRange_iff (f : CmdFields) :
    f.kindInRange = true ↔ f.opcode = 0x11#8 → f.kind.toNat ∈ [1, 2, 3, 4] := by
  have hrange : f.kind.toNat ∈ [1, 2, 3, 4] ↔ 1 ≤ f.kind.toNat ∧ f.kind.toNat ≤ 4 := by
    simp only [List.mem_cons, List.not_mem_nil, or_false]
    omega
  rw [hrange, imp_iff_not_or]
  simp [CmdFields.kindInRange]

/-- The four causes of R72, each the failure of one check. -/
theorem not_wf_iff (f : CmdFields) : ¬ f.wf = true ↔
    f.opcode.toNat ∉ [1, 2, 3, 4, 5, 6, 7, 8, 9, 10, 11, 12, 13, 14, 16, 17]
    ∨ (f.opcode ≠ 0x11#8 ∧ f.kind ≠ 0#4) ∨ (f.opcode = 0x11#8 ∧ f.kind.toNat ∉ [1, 2, 3, 4]) ∨ f.reserved ≠ 0#20 := by
  have hunused : f.kindUnused = true ↔ f.opcode = 0x11#8 ∨ f.kind = 0#4 := by simp [CmdFields.kindUnused]
  have hreserved : f.reservedZero = true ↔ f.reserved = 0#20 := beq_iff_eq
  rw [CmdFields.wf, Bool.and_eq_true, Bool.and_eq_true, Bool.and_eq_true, opcodeKnown_iff, hunused, kindInRange_iff,
    hreserved, not_and_or, not_and_or, not_and_or, not_or, Classical.not_imp, or_assoc, or_assoc]

/-- A word is its three fields. -/
theorem toWord_ofWord (w : Word) : (CmdFields.ofWord w).toWord = w := by
  have hhigh : w.extractLsb' 12 20 ++ w.extractLsb' 8 4 = w.extractLsb' 8 24 :=
    BitVec.extractLsb'_append_extractLsb'_eq_extractLsb' rfl
  rw [CmdFields.toWord, CmdFields.ofWord, hhigh]
  exact BitVec.extractLsb'_append_extractLsb' (w := 24) (len := 8)

theorem toWord_of_decodeFields {f : CmdFields} {i : Instr} (h : decodeFields f = .ok i) : f.toWord = encode i := by
  obtain ⟨reserved, kind, opcode⟩ := f
  obtain ⟨rfl, ⟨rfl, hkind⟩ | ⟨-, rfl, hopcode⟩⟩ := (decodeFields_eq_ok_iff _ _).mp h
  · rw [encode_of_encodeOperation hkind, BitVec.ofNat_toNat, BitVec.setWidth_eq]
  · rw [encode_of_plainOperation hopcode, BitVec.ofNat_toNat, BitVec.setWidth_eq]

@[simp] theorem decodeWord_encode (i : Instr) : decodeWord (encode i) = .ok i := by
  cases i <;> rfl

/-- Decoding matches all 32 bits of the word: no word but `encode i` is the operation `i`. -/
theorem decodeWord_eq_ok_iff (w : Word) (i : Instr) : decodeWord w = .ok i ↔ w = encode i := by
  constructor
  · intro h
    rw [← toWord_of_decodeFields h, toWord_ofWord]
  · rintro rfl
    exact decodeWord_encode i

/-! ### A command word's bytes (R51) -/

theorem bytesOfWord_wordOfBytes (b0 b1 b2 b3 : Byte) : bytesOfWord (wordOfBytes b0 b1 b2 b3) = [b0, b1, b2, b3] := by
  have h0 : (wordOfBytes b0 b1 b2 b3).extractLsb' 0 8 = b0 := BitVec.extractLsb'_append_eq_right
  have h1 : (wordOfBytes b0 b1 b2 b3).extractLsb' 8 8 = b1 := by
    rw [wordOfBytes, BitVec.extractLsb'_append_eq_of_le (by decide)]
    exact BitVec.extractLsb'_append_eq_right
  have h2 : (wordOfBytes b0 b1 b2 b3).extractLsb' 16 8 = b2 := by
    rw [wordOfBytes]
    iterate 2 rw [BitVec.extractLsb'_append_eq_of_le (by decide)]
    exact BitVec.extractLsb'_append_eq_right
  have h3 : (wordOfBytes b0 b1 b2 b3).extractLsb' 24 8 = b3 := by
    rw [wordOfBytes]
    iterate 3 rw [BitVec.extractLsb'_append_eq_of_le (by decide)]
    exact BitVec.extractLsb'_eq_self
  rw [bytesOfWord, h0, h1, h2, h3]

theorem decode_bytesOfWord_append (w : Word) (rest : List Byte) :
    decode (bytesOfWord w ++ rest) = (decodeWord w).map fun i => (i, rest) := by
  simp only [bytesOfWord, List.cons_append, List.nil_append, decode, Machine.wordOfBytes_bytesOfWord]
  cases decodeWord w <;> rfl

/-- A string that decodes begins with four bytes that are a legal word. -/
theorem eq_append_of_decode {bytes rest : List Byte} {i : Instr} (h : decode bytes = .ok (i, rest)) :
    ∃ w, bytes = bytesOfWord w ++ rest ∧ decodeWord w = .ok i := by
  unfold decode at h
  split at h
  next b0 b1 b2 b3 tail =>
    refine ⟨wordOfBytes b0 b1 b2 b3, ?_⟩
    rw [bytesOfWord_wordOfBytes]
    cases hd : decodeWord (wordOfBytes b0 b1 b2 b3) with
    | error e => simp [hd] at h
    | ok j =>
      obtain ⟨rfl, rfl⟩ : j = i ∧ tail = rest := by simpa [hd] using h
      exact ⟨rfl, rfl⟩
  next => cases h

end Sys2Proof

namespace Sys2Proof.Machine

/-! ### The operand registers as latched (R37, R74) -/

theorem operands_of_latch {s : State} {l : Latch} (h : s.latch = some l) : s.operands = l := by
  simp [State.operands, h]

/-! ### Runs of register writes (R75, R76) -/

/-- The access of a `wr` line. -/
def regWrite (w : Reg × Word) : BusEvent :=
  .write .word w.1.offset w.2

/-- The state with registers written in order. -/
def State.writeRegs (s : State) (ws : List (Reg × Word)) : State :=
  ws.foldl (fun t w => t.writeReg w.2 w.1) s

theorem assemble_expand (i : Instr) (vs : List Word) :
    assemble (expand i vs) = ((operandRegs i).zip vs).map regWrite ++ [.write .word 0#16 (encode i), .poll] := by
  rw [assemble, expand, List.flatMap_append, ← List.map_uncurry_zip_eq_zipWith, List.flatMap_map, List.map_eq_flatMap]
  rfl

/-- A write of a register other than CMD leaves the block at rest and the moves to come. -/
theorem writeReg_eq_of_ne_cmd (s : State) (v : Word) {r : Reg} (h : r ≠ .cmd) :
    ∃ arg0 arg1 msglen, s.writeReg v r = { s with arg0 := arg0, arg1 := arg1, msglen := msglen } := by
  cases r
  case cmd => exact absurd rfl h
  all_goals exact ⟨_, _, _, rfl⟩

theorem writeReg_bus (s : State) (v : Word) (r : Reg) (bus : List BusEvent) :
    { s.writeReg v r with bus := bus } = ({ s with bus := bus } : State).writeReg v r := by
  cases r <;> rfl

/-- With no operation in flight, pending writes of registers other than CMD are made one a step. -/
theorem run_writeRegs (ws : List (Reg × Word)) (n : Nat) {s : State} {rest : List BusEvent} (hb : s.busy = false)
    (hr : ∀ w ∈ ws, w.1 ≠ .cmd) (hbus : s.bus = ws.map regWrite ++ rest) :
    Host.Core.run core (ws.length + n) s = Host.Core.run core n (({ s with bus := rest } : State).writeRegs ws) := by
  induction ws generalizing s with
  | nil => rw [List.length_nil, Nat.zero_add, ← show s.bus = rest from hbus]; rfl
  | cons w ws ih =>
    obtain ⟨r, v⟩ := w
    obtain ⟨hr0, hrs⟩ := List.forall_mem_cons.mp hr
    have hstep : step s = .next (({ s with bus := ws.map regWrite ++ rest } : State).writeReg v r) :=
      (step_write_idle hb hbus).trans
        (congrArg _ (busWrite_register (s := { s with bus := ws.map regWrite ++ rest }) v hb))
    obtain ⟨arg0, arg1, msglen, heq⟩ := writeReg_eq_of_ne_cmd { s with bus := ws.map regWrite ++ rest } v hr0
    rw [List.length_cons, Nat.succ_add, run_succ hstep, ih (by rw [heq]; exact hb) hrs (by rw [heq]), writeReg_bus]
    rfl

/-! ### Pseudo-instructions (R76) -/

theorem operandRegs_ne_cmd (i : Instr) : ∀ r ∈ operandRegs i, r ≠ .cmd := by
  cases i <;> decide

/-- The lists of registers pseudo-instructions write. -/
theorem operandRegs_mem (i : Instr) : operandRegs i ∈ [[], [Reg.arg0], [.arg0, .arg1], [.arg1], [.msglen]] := by
  cases i <;> decide

/-- The operand registers a pseudo-instruction writes with their values, and the others as they were (R76). -/
def State.withOperands (s : State) (i : Instr) (vs : List Word) : State :=
  { s with
    arg0 := if Reg.arg0 ∈ operandRegs i then (vs.getD 0 0#32).setWidth 16 else s.arg0
    arg1 := if Reg.arg1 ∈ operandRegs i then (vs.getLastD 0#32).setWidth 16 else s.arg1
    msglen := if Reg.msglen ∈ operandRegs i then (vs.getD 0 0#32).setWidth 16 else s.msglen }

theorem writeRegs_operandRegs (s : State) (i : Instr) {vs : List Word} (hlen : vs.length = (operandRegs i).length) :
    s.writeRegs ((operandRegs i).zip vs) = s.withOperands i vs := by
  have hmem := operandRegs_mem i
  rw [State.withOperands]
  generalize operandRegs i = regs at hmem hlen
  simp only [List.mem_cons, List.not_mem_nil, or_false] at hmem
  obtain rfl | rfl | rfl | rfl | rfl := hmem
  · rfl
  · obtain ⟨a, rfl⟩ := List.length_eq_one_iff.mp hlen
    rfl
  · obtain ⟨a, l, rfl⟩ := List.length_eq_two.mp hlen
    rfl
  · obtain ⟨w, rfl⟩ := List.length_eq_one_iff.mp hlen
    rfl
  · obtain ⟨n, rfl⟩ := List.length_eq_one_iff.mp hlen
    rfl

/-- A pending write of CMD with no operation in flight issues (R58). -/
theorem step_issue {s : State} {cmd : Word} {rest : List BusEvent} (hb : s.busy = false)
    (hbus : s.bus = .write .word 0#16 cmd :: rest) : step s = .next (({ s with bus := rest } : State).issue cmd) :=
  (step_write_idle hb hbus).trans (congrArg _ (busWrite_register (s := { s with bus := rest }) (r := .cmd) cmd hb))

/-- A pseudo-instruction's accesses before the poll, run from a block at rest: its operands written, its command issued. -/
theorem run_expand {s : State} (i : Instr) {vs : List Word} {rest : List BusEvent} (hb : s.busy = false)
    (hlen : vs.length = (operandRegs i).length) (hbus : s.bus = assemble (expand i vs) ++ rest) :
    Host.Core.run core (vs.length + 1) s
      = .next ((({ s with bus := .poll :: rest } : State).withOperands i vs).issue (encode i)) := by
  have hws : vs.length = ((operandRegs i).zip vs).length := by rw [List.length_zip, hlen, min_self]
  have hcmd : ∀ w ∈ (operandRegs i).zip vs, w.1 ≠ .cmd := fun w hw =>
    operandRegs_ne_cmd i w.1 (List.of_mem_zip hw).1
  rw [assemble_expand, List.append_assoc] at hbus
  rw [hws, run_writeRegs _ 1 hb hcmd hbus, writeRegs_operandRegs _ i hlen]
  exact run_succ (step_issue hb rfl)

end Sys2Proof.Machine

namespace Sys2Proof
open Machine

/-- Settles O1: four bytes and a word are one thing, and decoding a word is `decodeWord_eq_ok_iff`. -/
theorem commandWordsRoundTrip : Obligations.CommandWordsRoundTrip := by
  intro bytes rest i
  constructor
  · intro h
    obtain ⟨w, rfl, hw⟩ := eq_append_of_decode h
    rw [encodeBytes, (decodeWord_eq_ok_iff w i).mp hw]
  · rintro rfl
    rw [encodeBytes, decode_bytesOfWord_append, decodeWord_encode]
    rfl

/-- Settles O3: the words are the encodings of their operations. -/
theorem sampleWordsDecode : Obligations.SampleWordsDecode :=
  ⟨decodeWord_encode .keyload, decodeWord_encode .cbcdec, decodeWord_encode .macvfy, decodeWord_encode .ctrxor,
    decodeWord_encode .cntcmp, decodeWord_encode .decode, decodeWord_encode .encodeProgram, decodeWord_encode .encodeAuth⟩

/-- Settles O2: each cause is the failure of one of the four checks of `CmdFields.wf`. -/
theorem illegalWordsRaiseIllegal : Obligations.IllegalWordsRaiseIllegal := by
  refine ⟨fun w => ?_, fun s w rest hl hbus => ?_, fun s l hl hw hd => ?_⟩
  · rw [← not_exists]
    exact (not_congr (exists_decodeFields_iff (CmdFields.ofWord w))).trans (not_wf_iff _)
  · obtain ⟨n, d, hstep⟩ := commandWriteIssues s w rest hl hbus
    exact ⟨_, hstep, rfl, rfl⟩
  · rw [step_performs hl hw, performLatched_illegal s hd]
    rfl

/-- Settles O6: the issue latches the operand registers, and the operands are read from the latch alone. -/
theorem operandsAreTheLatchedRegisters : Obligations.OperandsAreTheLatchedRegisters := by
  intro s w rest hl hbus
  obtain ⟨n, d, hstep⟩ := commandWriteIssues s w rest hl hbus
  refine ⟨_, hstep, fun u hu => ?_⟩
  simp [State.opA, State.opL, State.opB, State.opW, State.opM, operands_of_latch hu]

/-- Settles O17: the operand writes are a run of register writes, and the command word then issues. -/
theorem pseudoInstructionsIssue : Obligations.PseudoInstructionsIssue := by
  refine ⟨fun i a hi => ?_, fun i a l hi => ?_, fun n => ?_, fun i w hi => ?_, fun i hi => ?_,
    fun s i vs rest hb hlen hbus => ?_⟩
  · have hregs : operandRegs i = [.arg0] := by revert i; decide
    rw [assemble_expand, hregs]; rfl
  · have hregs : operandRegs i = [.arg0, .arg1] := by revert i; decide
    rw [assemble_expand, hregs]; rfl
  · rw [assemble_expand]; rfl
  · have hregs : operandRegs i = [.arg1] := by revert i; decide
    rw [assemble_expand, hregs]; rfl
  · have hregs : operandRegs i = [] := by revert i; decide
    rw [assemble_expand, hregs]; rfl
  · exact ⟨_, run_expand i hb hlen hbus, rfl, rfl, rfl, rfl⟩

end Sys2Proof

/-! PROOFS. The block cipher (spec/40_block_cipher.md): decryption takes the steps of encryption back in reverse order, and
loading a block loses nothing. -/

namespace Sys2Proof.Machine

/-! ### The state's bytes (R101) -/

/-- Loading a block keeps all of its bytes. -/
theorem Square.load_injective : Function.Injective Square.load := by
  intro x y h
  simp only [Square.load, columnAt, Square.mk.injEq, Column.mk.injEq] at h
  refine block_eq_of_strByte fun i hi => ?_
  interval_cases i <;> simp only [h]

/-- Storing a loaded block gives it back. -/
@[simp] theorem store_load (x : Block) : (Square.load x).store = x :=
  Square.load_injective (load_store (Square.load x))

/-! ### The rounds (R106, R108) -/

/-- If `g` takes a step of `f` back under the translation `tr`, a run of `g` in the reverse order takes a run of `f` back. -/
theorem foldl_reverse_undo {α β γ : Type} {f : α → γ → α} {g : β → γ → β} {tr : α → β}
    (hstep : ∀ a k, g (tr (f a k)) k = tr a) (ks : List γ) (a : α) :
    ks.reverse.foldl g (tr (ks.foldl f a)) = tr a := by
  induction ks generalizing a with
  | nil => rfl
  | cons k ks ih => rw [List.foldl_cons, List.reverse_cons, List.foldl_append, ih]; exact hstep a k

/-- The middle rounds of decryption run on the shifted and substituted states of encryption. -/
theorem middleRounds_decrypt_encrypt (ks : List Square) (s : Square) :
    ks.reverse.foldl decryptRound (shiftRows (subBytes (ks.foldl encryptRound s))) = shiftRows (subBytes s) :=
  foldl_reverse_undo (tr := fun s => shiftRows (subBytes s)) (fun s k => by simp [decryptRound, encryptRound]) ks s

/-- The middle rounds of encryption run on decryption's states with the shift and the substitution taken back. -/
theorem middleRounds_encrypt_decrypt (ks : List Square) (s : Square) :
    ks.foldl encryptRound (invSubBytes (invShiftRows (ks.reverse.foldl decryptRound s))) = invSubBytes (invShiftRows s) := by
  have hundo := foldl_reverse_undo (f := decryptRound) (g := encryptRound) (tr := fun s => invSubBytes (invShiftRows s))
    (fun s k => by simp [decryptRound, encryptRound]) ks.reverse s
  rwa [List.reverse_reverse] at hundo

/-! ### The cipher (R100) -/

theorem decrypt_encrypt (k : Key) (x : Block) : decrypt k (encrypt k x) = x := by
  simp only [decrypt, encrypt, load_store, addRoundKey_twice, middleRounds_decrypt_encrypt, invShiftRows_shiftRows,
    invSubBytes_subBytes, store_load]

theorem encrypt_decrypt (k : Key) (y : Block) : encrypt k (decrypt k y) = y := by
  simp only [decrypt, encrypt, load_store, addRoundKey_twice, middleRounds_encrypt_decrypt, subBytes_invSubBytes,
    shiftRows_invShiftRows, store_load]

end Sys2Proof.Machine

namespace Sys2Proof
open Machine

/-- Settles O18: each direction takes the other's rounds back, last round first, whatever the round keys are. -/
theorem decryptInvertsEncrypt : Obligations.DecryptInvertsEncrypt :=
  fun k x y => ⟨decrypt_encrypt k x, encrypt_decrypt k y⟩

end Sys2Proof

/-! PROOFS. KEYLOAD, CBCENC and CBCDEC (spec/41_key_cbc.md): how an operation on whole blocks ends, what the two CBC operations
make of the blocks after the IV slot, and that each takes the other back. -/

namespace Sys2Proof.Machine

/-! ### Operations on whole blocks (R243) -/

section
variable {s t : State} {a n l : Nat}

theorem ifWholeBlocks_aligned (hb : s.inBounds a n) (ha : l % 16 = 0) :
    (if ¬ s.inBounds a n then s.raiseError .bounds else if l % 16 ≠ 0 then s.raiseError .notBlockAligned else t) = t := by
  rw [if_neg (not_not.mpr hb), if_neg (not_not.mpr ha)]

theorem ifWholeBlocks_unaligned (hb : s.inBounds a n) (ha : l % 16 ≠ 0) :
    (if ¬ s.inBounds a n then s.raiseError .bounds else if l % 16 ≠ 0 then s.raiseError .notBlockAligned else t)
      = s.raiseError .notBlockAligned := by
  rw [if_neg (not_not.mpr hb), if_pos ha]

theorem ifWholeBlocks_outOfBounds (hb : ¬ s.inBounds a n) :
    (if ¬ s.inBounds a n then s.raiseError .bounds else if l % 16 ≠ 0 then s.raiseError .notBlockAligned else t)
      = s.raiseError .bounds :=
  if_pos hb

end

theorem exec_cbcenc_aligned {s : State} (hb : s.inBounds s.opA (16 + s.opL)) (ha : s.opL % 16 = 0) :
    exec .cbcenc s = .next (s.cbcEncBody s.opA s.opL).complete :=
  congrArg Host.Outcome.next (ifWholeBlocks_aligned hb ha)

theorem exec_cbcdec_aligned {s : State} (hb : s.inBounds s.opA (16 + s.opL)) (ha : s.opL % 16 = 0) :
    exec .cbcdec s = .next (s.cbcDecBody s.opA s.opL).complete :=
  congrArg Host.Outcome.next (ifWholeBlocks_aligned hb ha)

/-! ### The blocks after the IV slot (R120, R122, R123) -/

/-- Data block `j + 1` of R120, the first block after the IV slot being block 1. -/
theorem getElem_readBlocks_afterIv (m : Memory) (a n j : Nat) (h : j < (Memory.readBlocks m (a + 16) n).length) :
    (Memory.readBlocks m (a + 16) n)[j] = Memory.readBlock m (a + 16 * (j + 1)) := by
  rw [getElem_readBlocks]
  congr 1
  omega

theorem readBlock_cbcEncBody_iv (s : State) (a l : Nat) : Memory.readBlock (s.cbcEncBody a l).buf a = 0#128 :=
  readBlock_zero_and_blocks _ _ _

theorem readBlock_cbcDecBody_iv (s : State) (a l : Nat) : Memory.readBlock (s.cbcDecBody a l).buf a = 0#128 :=
  readBlock_zero_and_blocks _ _ _

/-- R122's loop: a block is encrypted after the XOR with what now stands before it, the zero IV before the first. -/
theorem readBlock_cbcEncBody_chain (s : State) (a l j : Nat) (h : j < l / 16) :
    Memory.readBlock (s.cbcEncBody a l).buf (a + 16 * (j + 1))
      = encrypt s.key (Memory.readBlock s.buf (a + 16 * (j + 1)) ^^^ Memory.readBlock (s.cbcEncBody a l).buf (a + 16 * j)) := by
  rw [readBlock_cbcEncBody s a l j h]
  cases j with
  | zero =>
    have hiv : Memory.readBlock (s.cbcEncBody a l).buf (a + 16 * 0) = 0#128 := readBlock_cbcEncBody_iv s a l
    rw [getElem_cbcEncrypt_zero _ _ _ (by simpa using h), getElem_readBlocks_afterIv, hiv]
  | succ j =>
    rw [getElem_cbcEncrypt_succ _ _ _ j (by simpa using h), getElem_readBlocks_afterIv,
      readBlock_cbcEncBody s a l j (by omega)]

/-- R123's loop: a block is decrypted and XORed with what stood before it, the zero IV before the first. -/
theorem readBlock_cbcDecBody_chain (s : State) (a l j : Nat) (h : j < l / 16) :
    Memory.readBlock (s.cbcDecBody a l).buf (a + 16 * (j + 1))
      = decrypt s.key (Memory.readBlock s.buf (a + 16 * (j + 1)))
        ^^^ (if j = 0 then 0#128 else Memory.readBlock s.buf (a + 16 * j)) := by
  rw [readBlock_cbcDecBody s a l j h]
  cases j with
  | zero => rw [getElem_cbcDecrypt_zero _ _ _ (by simpa using h), getElem_readBlocks_afterIv, if_pos rfl]
  | succ j =>
    rw [getElem_cbcDecrypt_succ _ _ _ j (by simpa using h), getElem_readBlocks_afterIv, getElem_readBlocks_afterIv,
      if_neg (Nat.succ_ne_zero j)]

/-! ### The round trip (R124) -/

theorem readBlocks_writeBlocks (m : Memory) (a : Nat) (xs : List Block) :
    Memory.readBlocks (Memory.writeBlocks m a xs) a xs.length = xs := by
  refine List.ext_getElem (by simp) fun j hj hj' => ?_
  rw [getElem_readBlocks, readBlock_writeBlocks m a j xs hj']

/-- Blocks of `m'` written back where they stood. -/
theorem read_writeBlocks_readBlocks (m m' : Memory) (a n x : Nat) :
    Memory.read (Memory.writeBlocks m a (Memory.readBlocks m' a n)) x
      = if a ≤ x ∧ x < a + 16 * n then Memory.read m' x else Memory.read m x := by
  induction n generalizing m a with
  | zero => rw [if_neg (by omega)]; rfl
  | succ n ih =>
    rw [Memory.readBlocks, Memory.writeBlocks, ih, read_writeBlock]
    by_cases hx : a ≤ x ∧ x < a + 16
    · have hbyte : strByte (Memory.readBlock m' a) (x - a) = Memory.read m' x := by
        rw [strByte_readBlock _ _ _ (by omega), Nat.add_sub_cancel' hx.1]
      rw [if_neg (by omega), if_pos hx, if_pos (by omega), hbyte]
    · rw [if_neg hx]
      exact if_congr (by omega) rfl rfl

/-- The IV slot at `a` forced to zero and the `n` blocks after it replaced by what `f` makes of them: what both CBC
operations do to BUF (R122, R123). -/
def Memory.recode (m : Memory) (a n : Nat) (f : List Block → List Block) : Memory :=
  Memory.writeBlocks (Memory.writeBlock m a 0#128) (a + 16) (f (Memory.readBlocks m (a + 16) n))

/-- Taking a recoding back restores every byte outside the IV slot. -/
theorem read_recode_recode {f g : List Block → List Block} (hlen : ∀ xs, (f xs).length = xs.length)
    (hinv : ∀ xs, g (f xs) = xs) (m : Memory) {a x : Nat} (n : Nat) (hx : x < a ∨ a + 16 ≤ x) :
    Memory.read (Memory.recode (Memory.recode m a n f) a n g) x = Memory.read m x := by
  have hblocks : Memory.readBlocks (Memory.recode m a n f) (a + 16) n = f (Memory.readBlocks m (a + 16) n) := by
    simpa [Memory.recode, hlen] using readBlocks_writeBlocks (Memory.writeBlock m a 0#128) (a + 16) (f (Memory.readBlocks m (a + 16) n))
  rw [Memory.recode, hblocks, hinv, read_writeBlocks_readBlocks]
  split_ifs with hdata
  · rfl
  · rw [read_writeBlock, if_neg (by omega)]
    exact read_zero_and_blocks m _ (by rw [hlen, length_readBlocks]; omega)

/-- Operation `i`, when it raises no error, leaves in BUF the recoding with `f` under the KEY it performs with. -/
def Recodes (i : Instr) (f : Key → List Block → List Block) : Prop :=
  ∀ s : State, s.inBounds s.opA (16 + s.opL) → s.opL % 16 = 0 →
    ∃ t, exec i s = .next t ∧ t.buf = Memory.recode s.buf s.opA (s.opL / 16) (f s.key)

theorem cbcenc_recodes : Recodes .cbcenc (cbcEncrypt · 0#128) :=
  fun _ hb ha => ⟨_, exec_cbcenc_aligned hb ha, rfl⟩

theorem cbcdec_recodes : Recodes .cbcdec (cbcDecrypt · 0#128) :=
  fun _ hb ha => ⟨_, exec_cbcdec_aligned hb ha, rfl⟩

/-- If `g` takes `f` back, then `j` restores all but the IV slot where `f` recoded the BUF of `s`, under the operands and the
KEY of `s`. -/
theorem Recodes.restores {j : Instr} {f g : Key → List Block → List Block} (hj : Recodes j g)
    (hlen : ∀ k xs, (f k xs).length = xs.length) (hinv : ∀ k xs, g k (f k xs) = xs) {s r : State}
    (hb : s.inBounds s.opA (16 + s.opL)) (ha : s.opL % 16 = 0)
    (hbuf : r.buf = Memory.recode s.buf s.opA (s.opL / 16) (f s.key)) (hkey : r.key = s.key) (hparams : r.params = s.params)
    (hA : r.opA = s.opA) (hL : r.opL = s.opL) :
    ∃ u, exec j r = .next u
      ∧ (∀ x, x < s.opA ∨ s.opA + 16 ≤ x → Memory.read u.buf x = Memory.read s.buf x)
      ∧ Memory.readBlock u.buf s.opA = 0#128 := by
  obtain ⟨u, hexec, hu⟩ := hj r (by rwa [State.inBounds, hA, hL, hparams]) (by rwa [hL])
  rw [hbuf, hkey, hA, hL] at hu
  refine ⟨u, hexec, fun x hx => ?_, ?_⟩
  · rw [hu, read_recode_recode (hlen s.key) (hinv s.key) s.buf _ hx]
  · rw [hu]
    exact readBlock_zero_and_blocks _ _ _

end Sys2Proof.Machine

namespace Sys2Proof
open Machine

/-- Settles O19: by the branches of R121's bounds check; the key has the bytes read. -/
theorem keyloadLoadsTheKey : Obligations.KeyloadLoadsTheKey := by
  refine ⟨decodeWord_encode .keyload, fun s => ⟨fun hb => ?_, fun hb => ?_⟩⟩
  · exact ⟨Memory.readKey s.buf s.opA, congrArg Host.Outcome.next (if_pos hb), fun i hi => strByte_readKey _ _ i hi⟩
  · exact congrArg Host.Outcome.next (if_neg (by omega))

/-- Settles O20: by the order of R122's error checks; the chain is R122's loop. -/
theorem cbcencEncryptsInPlace : Obligations.CbcencEncryptsInPlace := by
  refine ⟨decodeWord_encode .cbcenc, fun s => ⟨fun hb ha => ?_, fun hb ha => ?_, fun hb => ?_⟩⟩
  · have hin : s.inBounds s.opA (16 + s.opL) := by omega
    exact ⟨(s.cbcEncBody s.opA s.opL).buf, exec_cbcenc_aligned hin ha, readBlock_cbcEncBody_iv s _ _,
      readBlock_cbcEncBody_chain s _ _, sameOutside_cbcEncBody s _ _⟩
  · exact congrArg Host.Outcome.next (ifWholeBlocks_unaligned (by omega) ha)
  · exact congrArg Host.Outcome.next (ifWholeBlocks_outOfBounds (by omega))

/-- Settles O21: by the order of R123's error checks; every block is R123's of the ciphertext as it was. -/
theorem cbcdecDecryptsInPlace : Obligations.CbcdecDecryptsInPlace := by
  refine ⟨decodeWord_encode .cbcdec, fun s => ⟨fun hb ha => ?_, fun hb ha => ?_, fun hb => ?_⟩⟩
  · have hin : s.inBounds s.opA (16 + s.opL) := by omega
    exact ⟨(s.cbcDecBody s.opA s.opL).buf, exec_cbcdec_aligned hin ha, readBlock_cbcDecBody_iv s _ _,
      readBlock_cbcDecBody_chain s _ _, sameOutside_cbcDecBody s _ _⟩
  · exact congrArg Host.Outcome.next (ifWholeBlocks_unaligned (by omega) ha)
  · exact congrArg Host.Outcome.next (ifWholeBlocks_outOfBounds (by omega))

/-- Settles O22: both operations recode the same blocks, and their recodings take each other back because the cipher's
two directions do. -/
theorem cbcRoundTrips : Obligations.CbcRoundTrips := by
  intro s hb ha
  have hin : s.inBounds s.opA (16 + s.opL) := by omega
  obtain ⟨t, ht, htbuf⟩ := cbcenc_recodes s hin ha
  obtain ⟨t', ht', htbuf'⟩ := cbcdec_recodes s hin ha
  refine ⟨t, t', ht, ht', fun r r' hbuf hbuf' hkey hparams hA hL hkey' hparams' hA' hL' => ?_⟩
  obtain ⟨u, hu, hdata, hiv⟩ := cbcdec_recodes.restores (fun k => length_cbcEncrypt k _)
    (fun k => cbcDecrypt_cbcEncrypt (decrypt_encrypt k) _) hin ha (hbuf.trans htbuf) hkey hparams hA hL
  obtain ⟨u', hu', hdata', hiv'⟩ := cbcenc_recodes.restores (fun k => length_cbcDecrypt k _)
    (fun k => cbcEncrypt_cbcDecrypt (encrypt_decrypt k) _) hin ha (hbuf'.trans htbuf') hkey' hparams' hA' hL'
  exact ⟨u, u', hu, hu', hdata, hdata', hiv, hiv'⟩

end Sys2Proof

/-! PROOFS. CBC-MAC (spec/42_cbc_mac.md): how the six operations end, the running tag and the verifier's walk block by block,
and that a verification passes for the CBC-MAC alone. -/

namespace Sys2Proof.Machine

/-! ### The running tag and the verifier's walk (R142, R143, R146) -/

theorem readBlocks_succ (m : Memory) (a n : Nat) :
    Memory.readBlocks m a (n + 1) = Memory.readBlocks m a n ++ [Memory.readBlock m (a + 16 * n)] :=
  readBlocks_add m a n 1

/-- The blocks before number `b`, that block, and those after it. -/
theorem readBlocks_around (m : Memory) (a b n : Nat) :
    Memory.readBlocks m a (b + (n + 1))
      = Memory.readBlocks m a b ++ Memory.readBlock m (a + 16 * b) :: Memory.readBlocks m (a + 16 * b + 16) n :=
  readBlocks_add m a b (n + 1)

/-- The tag after the first `j` blocks from `a` on are absorbed into `acc`: R142's loop, and R143's from zero. -/
def Memory.runningTag (m : Memory) (k : Key) (acc : Block) (a j : Nat) : Block :=
  macAbsorb k acc (Memory.readBlocks m a j)

theorem runningTag_zero (m : Memory) (k : Key) (acc : Block) (a : Nat) : Memory.runningTag m k acc a 0 = acc := rfl

theorem runningTag_succ (m : Memory) (k : Key) (acc : Block) (a j : Nat) :
    Memory.runningTag m k acc a (j + 1)
      = encrypt k (Memory.runningTag m k acc a j ^^^ Memory.readBlock m (a + 16 * j)) := by
  rw [Memory.runningTag, readBlocks_succ, macAbsorb_append]
  rfl

/-- R146's `T` when of the `n` blocks from `a` on those from number `j` on have been undone, starting from the tag `t`. -/
def Memory.verifierWalk (m : Memory) (k : Key) (t : Block) (a n j : Nat) : Block :=
  macUnwind k t (Memory.readBlocks m (a + 16 * j) (n - j))

theorem verifierWalk_start (m : Memory) (k : Key) (t : Block) (a n : Nat) : Memory.verifierWalk m k t a n n = t := by
  rw [Memory.verifierWalk, Nat.sub_self]
  rfl

theorem verifierWalk_step (m : Memory) (k : Key) (t : Block) (a : Nat) {n j : Nat} (h : j < n) :
    Memory.verifierWalk m k t a n j
      = decrypt k (Memory.verifierWalk m k t a n (j + 1)) ^^^ Memory.readBlock m (a + 16 * j) := by
  have hleft : n - j = n - (j + 1) + 1 := by omega
  rw [Memory.verifierWalk, hleft]
  rfl

/-- The walk ends with the residual. -/
theorem verifierWalk_zero (s : State) (a l : Nat) :
    Memory.verifierWalk s.buf s.key (Memory.readBlock s.buf (a + l)) a (l / 16) 0 = s.macResidual a l := rfl

/-! ### How the operations end (R141 to R146, R242) -/

theorem exec_macupd_aligned {s : State} (hb : s.inBounds s.opA s.opL) (ha : s.opL % 16 = 0) :
    exec .macupd s
      = .next { s with acc := Memory.runningTag s.buf s.key s.acc s.opA (s.opL / 16), latch := none, wait := 0 } :=
  congrArg Host.Outcome.next (ifWholeBlocks_aligned hb ha)

theorem exec_maccalc_aligned {s : State} (hb : s.inBounds s.opA (s.opL + 16)) (ha : s.opL % 16 = 0) :
    exec .maccalc s = .next { s with
      acc := Memory.runningTag s.buf s.key 0#128 s.opA (s.opL / 16)
      buf := Memory.writeBlock s.buf (s.opA + s.opL) (Memory.runningTag s.buf s.key 0#128 s.opA (s.opL / 16))
      latch := none
      wait := 0 } :=
  congrArg Host.Outcome.next (ifWholeBlocks_aligned hb ha)

theorem exec_macstore_inBounds {s : State} (hb : s.inBounds s.opA 16) :
    exec .macstore s = .next { s with buf := Memory.writeBlock s.buf s.opA s.acc, latch := none, wait := 0 } :=
  congrArg Host.Outcome.next (if_pos hb)

/-- MACVFY's walk writes BUF alone. -/
theorem macVerifyStep_eq (s : State) (a l : Nat) :
    s.macVerifyStep a l = { s with buf := (s.macVerifyStep a l).buf } := by
  unfold State.macVerifyStep
  split_ifs <;> rfl

theorem exec_macvfy_aligned {s : State} (hb : s.inBounds s.opA (s.opL + 16)) (ha : s.opL % 16 = 0) :
    exec .macvfy s = .next { s with
      buf := (s.macVerifyStep s.opA s.opL).buf
      mismatch := s.macResidual s.opA s.opL != 0#128
      latch := none
      wait := 0 } := by
  rw [exec_eq, performed, performMacvfy, if_neg (not_not.mpr hb), if_neg (not_not.mpr ha), macVerifyStep_eq]
  rfl

theorem exec_macvfy_unaligned {s : State} (hb : s.inBounds s.opA (s.opL + 16)) (ha : s.opL % 16 ≠ 0) :
    exec .macvfy s = .next (s.raiseVerifyError .notBlockAligned) := by
  rw [exec_eq, performed, performMacvfy, if_neg (not_not.mpr hb), if_pos ha]

theorem exec_macvfy_outOfBounds {s : State} (hb : ¬ s.inBounds s.opA (s.opL + 16)) :
    exec .macvfy s = .next (s.raiseVerifyError .bounds) :=
  congrArg Host.Outcome.next (if_pos hb)

/-- With no data block the walk does not run and writes nothing. -/
theorem macVerifyStep_empty (s : State) (a : Nat) : s.macVerifyStep a 0 = s := rfl

/-- R145's `diff` is zero exactly when all sixteen bytes agree. -/
theorem tagDifference_eq_zero_iff (s : State) (a : Nat) :
    s.tagDifference a = 0#128 ↔ ∀ i, i < 16 → strByte s.acc i = Memory.read s.buf (a + i) := by
  rw [State.tagDifference, BitVec.xor_eq_zero_iff]
  constructor
  · intro h i hi
    rw [h, strByte_readBlock _ _ _ hi]
  · intro h
    refine block_eq_of_strByte fun i hi => ?_
    rw [strByte_readBlock _ _ _ hi, h i hi]

/-! ### Verification (R147, R149) -/

theorem encrypt_injective (k : Key) : Function.Injective (encrypt k) :=
  Function.LeftInverse.injective (decrypt_encrypt k)

/-- Absorbing given blocks loses nothing of the tag before. -/
theorem macAbsorb_injective (k : Key) (xs : List Block) : Function.Injective fun acc => macAbsorb k acc xs := by
  induction xs with
  | nil => exact Function.injective_id
  | cons x xs ih =>
    intro acc acc' h
    exact (BitVec.xor_left_inj _).mp (encrypt_injective k (ih h))

/-- A change of one absorbed block changes the tag. -/
theorem macAbsorb_ne_of_block_ne (k : Key) (acc : Block) (xs zs : List Block) {x y : Block} (h : x ≠ y) :
    macAbsorb k acc (xs ++ x :: zs) ≠ macAbsorb k acc (xs ++ y :: zs) := by
  simp only [macAbsorb_append, macAbsorb_cons]
  intro heq
  exact h ((BitVec.xor_right_inj _).mp (encrypt_injective k (macAbsorb_injective k zs heq)))

/-- A tag is the CBC-MAC of the data exactly when absorbing the data and then the tag ends in `E(0)`. -/
theorem eq_cbcMac_iff_absorb (k : Key) (t : Block) (xs : List Block) :
    t = cbcMac k xs ↔ macAbsorb k 0#128 (xs ++ [t]) = encrypt k 0#128 := by
  rw [macAbsorb_append, macAbsorb_cons, macAbsorb_nil, (encrypt_injective k).eq_iff, BitVec.xor_eq_zero_iff, eq_comm]
  rfl

theorem readBlocks_eq_of_readBlock {m m' : Memory} {a n : Nat}
    (h : ∀ j, j < n → Memory.readBlock m' (a + 16 * j) = Memory.readBlock m (a + 16 * j)) :
    Memory.readBlocks m' a n = Memory.readBlocks m a n := by
  refine List.ext_getElem (by simp) fun j hj _ => ?_
  rw [getElem_readBlocks, getElem_readBlocks, h j (by simpa using hj)]

/-- Memories that differ in one of the blocks from `a` on have other tags of these blocks. -/
theorem macAbsorb_readBlocks_ne (k : Key) (acc : Block) {m m' : Memory} {a n b : Nat} (hb : b < n)
    (hne : Memory.readBlock m' (a + 16 * b) ≠ Memory.readBlock m (a + 16 * b))
    (heq : ∀ j, j < n → j ≠ b → Memory.readBlock m' (a + 16 * j) = Memory.readBlock m (a + 16 * j)) :
    macAbsorb k acc (Memory.readBlocks m' a n) ≠ macAbsorb k acc (Memory.readBlocks m a n) := by
  obtain ⟨c, rfl⟩ : ∃ c, n = b + (c + 1) := ⟨n - b - 1, by omega⟩
  have hbefore : Memory.readBlocks m' a b = Memory.readBlocks m a b :=
    readBlocks_eq_of_readBlock fun j hj => heq j (by omega) (by omega)
  have hafter : Memory.readBlocks m' (a + 16 * b + 16) c = Memory.readBlocks m (a + 16 * b + 16) c := by
    refine readBlocks_eq_of_readBlock fun j hj => ?_
    have hplace : a + 16 * b + 16 + 16 * j = a + 16 * (b + 1 + j) := by omega
    rw [hplace, heq (b + 1 + j) (by omega) (by omega)]
  rw [readBlocks_around, readBlocks_around, hbefore, hafter]
  exact macAbsorb_ne_of_block_ne k acc _ _ hne

/-- The residual is zero exactly when the tag slot holds the CBC-MAC of the data. -/
theorem macResidual_eq_zero_iff (s : State) (a l : Nat) :
    s.macResidual a l = 0#128 ↔ Memory.readBlock s.buf (a + l) = cbcMac s.key (Memory.readBlocks s.buf a (l / 16)) :=
  macUnwind_eq_iff (decrypt_encrypt s.key) (encrypt_decrypt s.key) _ _ _

/-- The same of the data and the tag slot as one string of blocks. -/
theorem macResidual_eq_zero_iff_absorb (s : State) (a : Nat) {l : Nat} (ha : l % 16 = 0) :
    s.macResidual a l = 0#128
      ↔ macAbsorb s.key 0#128 (Memory.readBlocks s.buf a (l / 16 + 1)) = encrypt s.key 0#128 := by
  have hslot : a + l = a + 16 * (l / 16) := by omega
  rw [macResidual_eq_zero_iff, eq_cbcMac_iff_absorb, readBlocks_succ, hslot]

end Sys2Proof.Machine

namespace Sys2Proof
open Machine

/-- Settles O23: MACINIT has one branch; what MACSTORE wrote reads as ACC. -/
theorem macinitClearsTheTag : Obligations.MacinitClearsTheTag := by
  refine ⟨decodeWord_encode .macinit, fun s => ⟨rfl, fun t r ht hacc hb => ?_⟩⟩
  obtain rfl := (exec_next ht).1
  have hzero : r.acc = 0#128 := hacc
  refine ⟨_, exec_macstore_inBounds hb, fun i hi => ?_⟩
  rw [← strByte_readBlock _ _ _ hi, readBlock_writeBlock, hzero, strByte_zero]

/-- Settles O24: by the order of R142's error checks; the tags are the running tags from ACC. -/
theorem macupdAbsorbsBlocks : Obligations.MacupdAbsorbsBlocks := by
  refine ⟨decodeWord_encode .macupd, fun s => ⟨fun hb ha => ?_, fun hb ha => ?_, fun hb => ?_⟩⟩
  · exact ⟨Memory.runningTag s.buf s.key s.acc s.opA, runningTag_zero _ _ _ _, fun j _ => runningTag_succ _ _ _ _ j,
      exec_macupd_aligned hb ha⟩
  · exact congrArg Host.Outcome.next (ifWholeBlocks_unaligned hb ha)
  · exact congrArg Host.Outcome.next (ifWholeBlocks_outOfBounds (by omega))

/-- Settles O25: by the order of R143's error checks; the tags are the running tags from zero. -/
theorem maccalcAppendsTheTag : Obligations.MaccalcAppendsTheTag := by
  refine ⟨decodeWord_encode .maccalc, fun s => ⟨fun hb ha => ?_, fun hb ha => ?_, fun hb => ?_⟩⟩
  · exact ⟨Memory.runningTag s.buf s.key 0#128 s.opA, _, runningTag_zero _ _ _ _, fun j _ => runningTag_succ _ _ _ _ j,
      exec_maccalc_aligned (by omega) ha, readBlock_writeBlock _ _ _, sameOutside_writeBlock _ _ _⟩
  · exact congrArg Host.Outcome.next (ifWholeBlocks_unaligned (by omega) ha)
  · exact congrArg Host.Outcome.next (ifWholeBlocks_outOfBounds (by omega))

/-- Settles O26: by the branches of R144's bounds check. -/
theorem macstoreWritesTheTag : Obligations.MacstoreWritesTheTag := by
  refine ⟨decodeWord_encode .macstore, fun s => ⟨fun hb => ?_, fun hb => ?_⟩⟩
  · exact ⟨_, exec_macstore_inBounds hb, readBlock_writeBlock _ _ _, sameOutside_writeBlock _ _ _⟩
  · exact congrArg Host.Outcome.next (if_neg (by omega))

/-- Settles O27: by the branches of R145's bounds check; the difference is zero when all bytes agree. -/
theorem maccmpComparesAllBytes : Obligations.MaccmpComparesAllBytes := by
  refine ⟨decodeWord_encode .maccmp, fun s => ⟨fun hb => ?_, fun hb => ?_⟩⟩
  · refine ⟨s.tagDifference s.opA != 0#128, congrArg Host.Outcome.next (if_pos hb), ?_⟩
    rw [bne_iff_ne, ne_eq, tagDifference_eq_zero_iff]
    simp only [not_forall, exists_prop, ne_eq]
  · exact congrArg Host.Outcome.next (if_neg (by omega))

/-- Settles O28: by the order of R146's error checks; `T` is the verifier's walk. -/
theorem macvfyWalksBackward : Obligations.MacvfyWalksBackward := by
  refine ⟨decodeWord_encode .macvfy, fun s => ⟨fun hb ha => ?_, fun hb ha => ?_, fun hb => ?_⟩⟩
  · refine ⟨Memory.verifierWalk s.buf s.key (Memory.readBlock s.buf (s.opA + s.opL)) s.opA (s.opL / 16), _, _,
      verifierWalk_start _ _ _ _ _, fun j hj => verifierWalk_step _ _ _ _ hj, exec_macvfy_aligned (by omega) ha, ?_, ?_,
      sameOutside_macVerifyStep s _ _, fun hl => ?_⟩
    · rw [verifierWalk_zero, bne_iff_ne]
    · rw [verifierWalk_zero, readBlock_macVerifyStep]
    · rw [hl, macVerifyStep_empty]
  · exact exec_macvfy_unaligned (by omega) ha
  · exact exec_macvfy_outOfBounds (by omega)

/-- Settles O29: MISMATCH is 0 when the residual is zero, and the walk is a bijection that takes the CBC-MAC to zero. -/
theorem macvfyAcceptsExactlyTheMac : Obligations.MacvfyAcceptsExactlyTheMac := by
  intro s hb ha
  refine ⟨_, exec_macvfy_aligned (by omega) ha, ?_⟩
  rw [bne_eq_false_iff_eq, macResidual_eq_zero_iff]

/-- Settles O30: data and tag slot are one string of blocks whose running tag decides the verification, and a change of one
block of it changes that tag. -/
theorem macvfyDetectsTampering : Obligations.MacvfyDetectsTampering := by
  intro s r t hb ha hkey hparams hA hL hexec haccept b hbn hne heq
  rw [exec_macvfy_aligned (by omega) ha] at hexec
  obtain rfl := Host.Outcome.next.inj hexec
  have hverified := (macResidual_eq_zero_iff_absorb s s.opA ha).mp (bne_eq_false_iff_eq.mp haccept)
  have hin : r.inBounds r.opA (r.opL + 16) := by rw [State.inBounds, hA, hL, hparams]; omega
  refine ⟨_, exec_macvfy_aligned hin (by rwa [hL]), ?_⟩
  rw [bne_iff_ne, ne_eq, hA, hL, macResidual_eq_zero_iff_absorb r s.opA ha, hkey, ← hverified]
  exact macAbsorb_readBlocks_ne s.key 0#128 (by omega) hne fun j hj => heq j (by omega)

/-- Settles O31: the running tag of the blocks after the IV slot is the last block of their encryption. -/
theorem macIsTheLastCbcBlock : Obligations.MacIsTheLastCbcBlock := by
  intro s r hb ha hpos hbuf hkey hparams hacc hA hL
  have hin : r.inBounds r.opA r.opL := by rw [State.inBounds, hA, hL, hparams]; exact hb
  refine ⟨_, _, exec_cbcenc_aligned (by omega) ha, exec_macupd_aligned hin (by rwa [hL]), ?_⟩
  have hne : Memory.readBlocks s.buf (s.opA + 16) (s.opL / 16) ≠ [] := by
    rw [← List.length_pos_iff, length_readBlocks]
    omega
  have hlast : s.opA + s.opL = s.opA + 16 * (s.opL / 16 - 1 + 1) := by omega
  rw [hbuf, hkey, hacc, hA, hL, Memory.runningTag, macAbsorb_eq_getLast _ _ _ hne, complete_buf, hlast,
    readBlock_cbcEncBody s _ _ _ (by omega), List.getLast_eq_getElem]
  simp only [length_cbcEncrypt, length_readBlocks]

end Sys2Proof

/-! PROOFS. The CTR stream and counters (spec/43_ctr.md): the key stream a context stands for, what CTRXOR leaves in BUF at
every offset, and big-endian integers in BUF compared byte by byte. -/

namespace Sys2Proof.Machine

/-! ### The context byte by byte (R173) -/

/-- R173's loop: one more byte is a refill and then one byte of the cache used. -/
theorem advance_succ (k : Key) (n : Nat) (c : CtrContext) :
    CtrContext.advance k (n + 1) c = ((CtrContext.advance k n c).refill k).consume :=
  advance_add k n 1 c

theorem refill_of_empty (k : Key) {c : CtrContext} (h : c.unused = 0) :
    c.refill k = { ctr := c.ctr, ks := encrypt k c.ctr, unused := 16 } := by
  rw [CtrContext.refill, if_pos h]

theorem refill_of_nonempty (k : Key) {c : CtrContext} (h : c.unused ≠ 0) : c.refill k = c :=
  if_neg h

@[simp] theorem refill_ctr (k : Key) (c : CtrContext) : (c.refill k).ctr = c.ctr := by
  rw [CtrContext.refill]
  split_ifs <;> rfl

/-- The counter moves on with the cache's last byte. -/
theorem consume_eq (c : CtrContext) :
    c.consume = { ctr := if c.unused - 1 = 0 then c.ctr + 1#128 else c.ctr, ks := c.ks, unused := c.unused - 1 } := by
  rw [CtrContext.consume]
  split_ifs with h
  · rw [h, inc128]
  · rfl

/-- The key stream byte that byte `i` from now on meets. -/
def CtrContext.streamByte (k : Key) (c : CtrContext) (i : Nat) : Byte :=
  ((CtrContext.advance k i c).refill k).byte

theorem streamByte_advance (k : Key) (c : CtrContext) (m i : Nat) :
    (CtrContext.advance k m c).streamByte k i = c.streamByte k (m + i) := by
  rw [CtrContext.streamByte, CtrContext.streamByte, advance_add]

/-! ### The stream from an empty cache (R170) -/

/-- The context about to use byte `i` of the stream that starts at the counter `c`. -/
def CtrContext.atByte (k : Key) (c : Block) (i : Nat) : CtrContext :=
  { ctr := c + BitVec.ofNat 128 (i / 16)
    ks := encrypt k (c + BitVec.ofNat 128 (i / 16))
    unused := 16 - i % 16 }

/-- Using a byte and refilling leads to the next byte: the counter moves on when the byte was its block's last. -/
theorem refill_consume_atByte (k : Key) (c : Block) (i : Nat) :
    (CtrContext.atByte k c i).consume.refill k = CtrContext.atByte k c (i + 1) := by
  rw [consume_eq, CtrContext.atByte, CtrContext.atByte]
  by_cases hlast : 16 - i % 16 - 1 = 0
  · have hctr : c + BitVec.ofNat 128 (i / 16) + 1#128 = c + BitVec.ofNat 128 ((i + 1) / 16) := by
      rw [show (i + 1) / 16 = i / 16 + 1 by omega, BitVec.ofNat_add, BitVec.add_assoc]
    rw [if_pos hlast, refill_of_empty k hlast, hctr, show 16 - (i + 1) % 16 = 16 by omega]
  · rw [if_neg hlast, refill_of_nonempty k hlast, show (i + 1) / 16 = i / 16 by omega,
      show 16 - (i + 1) % 16 = 16 - i % 16 - 1 by omega]

/-- From an empty cache the refill for byte `i` leads to that byte of the stream. -/
theorem refill_advance_of_empty (k : Key) {c : CtrContext} (h : c.unused = 0) (i : Nat) :
    (CtrContext.advance k i c).refill k = CtrContext.atByte k c.ctr i := by
  induction i with
  | zero => rw [CtrContext.advance, refill_of_empty k h, CtrContext.atByte, Nat.zero_div, BitVec.add_zero]
  | succ i ih => rw [advance_succ, ih, refill_consume_atByte]

theorem streamByte_of_empty (k : Key) {c : CtrContext} (h : c.unused = 0) (i : Nat) :
    c.streamByte k i = strByte (encrypt k (c.ctr + BitVec.ofNat 128 (i / 16))) (i % 16) := by
  rw [CtrContext.streamByte, refill_advance_of_empty k h, CtrContext.byte, CtrContext.atByte,
    show 16 - (16 - i % 16) = i % 16 by omega]

theorem advance_ctr_of_empty (k : Key) {c : CtrContext} (h : c.unused = 0) (n : Nat) :
    (CtrContext.advance k n c).ctr = c.ctr + BitVec.ofNat 128 (n / 16) := by
  rw [← refill_ctr k, refill_advance_of_empty k h, CtrContext.atByte]

theorem advance_unused_of_empty (k : Key) {c : CtrContext} (h : c.unused = 0) (n : Nat) :
    (CtrContext.advance k n c).unused = (16 - n % 16) % 16 := by
  cases n with
  | zero => exact h
  | succ n =>
    rw [advance_succ, refill_advance_of_empty k h, consume_eq, CtrContext.atByte]
    show 16 - n % 16 - 1 = (16 - (n + 1) % 16) % 16
    omega

/-! ### CTRXOR (R173, R177) -/

theorem exec_ctrxor_inBounds {s : State} (hb : s.inBounds s.opA s.opL) :
    exec .ctrxor s = .next (s.ctrXorBody s.opA s.opL).complete :=
  congrArg Host.Outcome.next (if_pos hb)

/-- The bytes of the region meet the key stream, and the others stay. -/
theorem read_ctrXorBody (s : State) (a l x : Nat) :
    Memory.read (s.ctrXorBody a l).buf x
      = if a ≤ x ∧ x < a + l then Memory.read s.buf x ^^^ s.ctrContext.streamByte s.key (x - a)
        else Memory.read s.buf x := by
  rw [State.ctrXorBody, withCtrContext_buf, read_writeBytes, length_xorBytes, length_readBytes]
  split_ifs with hx
  · have hlt : x - a < (Memory.readBytes s.buf a l).length := by rw [length_readBytes]; omega
    rw [List.getD_eq_getElem _ _ (by rwa [length_xorBytes]), getElem_xorBytes _ _ _ _ hlt, getElem_readBytes,
      Nat.add_sub_cancel' hx.1]
    rfl
  · rfl

theorem read_ctrXorBody_inside (s : State) (a : Nat) {l i : Nat} (h : i < l) :
    Memory.read (s.ctrXorBody a l).buf (a + i) = Memory.read s.buf (a + i) ^^^ s.ctrContext.streamByte s.key i := by
  rw [read_ctrXorBody, if_pos (by omega), Nat.add_sub_cancel_left]

theorem sameOutside_ctrXorBody (s : State) (a l : Nat) :
    Memory.SameOutside s.buf (s.ctrXorBody a l).buf a l := by
  intro x hx
  rw [read_ctrXorBody, if_neg (by omega)]

/-- CTRXOR over `m` bytes and then, on what that left, over the `n` bytes after them is CTRXOR over all of them. -/
theorem ctrXorBody_chunks {s q : State} {a m n : Nat} (hbuf : q.buf = (s.ctrXorBody a m).buf)
    (hctx : q.ctrContext = CtrContext.advance s.key m s.ctrContext) (hkey : q.key = s.key) :
    (q.ctrXorBody (a + m) n).ctrContext = (s.ctrXorBody a (m + n)).ctrContext
      ∧ ∀ x, Memory.read (q.ctrXorBody (a + m) n).buf x = Memory.read (s.ctrXorBody a (m + n)).buf x := by
  constructor
  · show CtrContext.advance q.key n q.ctrContext = CtrContext.advance s.key (m + n) s.ctrContext
    rw [hkey, hctx, advance_add]
  · intro x
    rw [read_ctrXorBody, read_ctrXorBody, hbuf, read_ctrXorBody, hctx, hkey, streamByte_advance]
    by_cases hfirst : x < a + m
    · rw [if_neg (show ¬ (a + m ≤ x ∧ x < a + m + n) by omega)]
      exact if_congr (by omega) rfl rfl
    · rw [if_neg (show ¬ (a ≤ x ∧ x < a + m) by omega), show m + (x - (a + m)) = x - a by omega]
      exact if_congr (by omega) rfl rfl

/-! ### Counters in BUF (R174, R176) -/

theorem toNat_inc128 (x : Block) : (inc128 x).toNat = (x.toNat + 1) % 2 ^ 128 :=
  BitVec.toNat_add x 1#128

theorem readBytes_succ (m : Memory) (a n : Nat) :
    Memory.readBytes m a (n + 1) = Memory.readBytes m a n ++ [Memory.read m (a + n)] := by
  induction n generalizing a with
  | zero => rfl
  | succ n ih =>
    rw [Memory.readBytes, ih, Memory.readBytes, List.cons_append, Nat.add_right_comm a 1 n, Nat.add_assoc a n 1]

theorem beNat_readBytes_succ (m : Memory) (a n : Nat) :
    beNat (Memory.readBytes m a (n + 1)) = 256 * beNat (Memory.readBytes m a n) + (Memory.read m (a + n)).toNat := by
  rw [readBytes_succ, beNat_append]

theorem beNat_readBytes_eq_iff (m : Memory) (a b n : Nat) :
    beNat (Memory.readBytes m a n) = beNat (Memory.readBytes m b n)
      ↔ ∀ i, i < n → Memory.read m (a + i) = Memory.read m (b + i) := by
  induction n with
  | zero => simp [Memory.readBytes]
  | succ n ih =>
    rw [Nat.forall_lt_succ_right, ← ih, beNat_readBytes_succ, beNat_readBytes_succ, ← BitVec.toNat_inj]
    omega

/-- The first differing byte decides, most significant first. -/
theorem beNat_readBytes_lt_iff (m : Memory) (a b n : Nat) :
    beNat (Memory.readBytes m a n) < beNat (Memory.readBytes m b n)
      ↔ ∃ i, i < n ∧ (∀ j, j < i → Memory.read m (a + j) = Memory.read m (b + j))
          ∧ (Memory.read m (a + i)).toNat < (Memory.read m (b + i)).toNat := by
  induction n with
  | zero => simp [Memory.readBytes]
  | succ n ih =>
    rw [Nat.exists_lt_succ_right, ← ih, ← beNat_readBytes_eq_iff, beNat_readBytes_succ, beNat_readBytes_succ]
    omega

theorem counterOrder_eq_equal_iff (x y : Block) : counterOrder x y = .equal ↔ x.toNat = y.toNat := by
  rw [counterOrder]
  split_ifs <;> simp_all

theorem counterOrder_eq_less_iff (x y : Block) : counterOrder x y = .less ↔ x.toNat < y.toNat := by
  rw [counterOrder]
  split_ifs <;> simp_all

theorem counterOrder_eq_greater_iff (x y : Block) : counterOrder x y = .greater ↔ y.toNat < x.toNat := by
  rw [counterOrder]
  split_ifs <;> simp <;> omega

end Sys2Proof.Machine

namespace Sys2Proof
open Machine

/-- Settles O32: by the branches of R171's bounds check; the counter has the bytes read. -/
theorem ctrloadStartsAStream : Obligations.CtrloadStartsAStream := by
  refine ⟨decodeWord_encode .ctrload, fun s => ⟨fun hb => ?_, fun hb => ?_⟩⟩
  · exact ⟨Memory.readBlock s.buf s.opA, congrArg Host.Outcome.next (if_pos hb), fun i hi => strByte_readBlock _ _ i hi⟩
  · exact congrArg Host.Outcome.next (if_neg (by omega))

/-- Settles O33: by the branches of R172's bounds check. -/
theorem ctrstoreWritesTheCounter : Obligations.CtrstoreWritesTheCounter := by
  refine ⟨decodeWord_encode .ctrstore, fun s => ⟨fun hb => ?_, fun hb => ?_⟩⟩
  · exact ⟨_, congrArg Host.Outcome.next (if_pos hb), readBlock_writeBlock _ _ _, sameOutside_writeBlock _ _ _⟩
  · exact congrArg Host.Outcome.next (if_neg (by omega))

/-- Settles O34: the contexts are the advances of the block's own. -/
theorem ctrxorAppliesTheKeystream : Obligations.CtrxorAppliesTheKeystream := by
  refine ⟨decodeWord_encode .ctrxor, fun s => ⟨fun hb => ?_, fun hb => ?_⟩⟩
  · refine ⟨(CtrContext.advance s.key · s.ctrContext), fun i => (CtrContext.advance s.key i s.ctrContext).refill s.key,
      (s.ctrXorBody s.opA s.opL).buf, rfl, fun i hi => ?_, exec_ctrxor_inBounds hb, sameOutside_ctrXorBody s _ _⟩
    have hnext := (advance_succ s.key i s.ctrContext).trans (consume_eq _)
    exact ⟨refill_of_empty s.key, refill_of_nonempty s.key, read_ctrXorBody_inside s _ hi,
      (congrArg CtrContext.ks hnext :), (congrArg CtrContext.unused hnext :), (congrArg CtrContext.ctr hnext :)⟩
  · exact congrArg Host.Outcome.next (if_neg (by omega))

/-- Settles O35: from an empty cache every refilled context is a place of the counter's stream. -/
theorem ctrStreamIsTheCounterKeystream : Obligations.CtrStreamIsTheCounterKeystream := by
  intro s hb hempty
  have hctx : s.ctrContext.unused = 0 := hempty
  refine ⟨_, exec_ctrxor_inBounds hb, fun i hi => ?_, advance_ctr_of_empty s.key hctx _,
    advance_unused_of_empty s.key hctx _⟩
  rw [complete_buf, read_ctrXorBody_inside s _ hi, streamByte_of_empty s.key hctx]
  rfl

/-- Settles O36: the second call goes on in the stream where the first stopped. -/
theorem ctrxorIsChunkingIndependent : Obligations.CtrxorIsChunkingIndependent := by
  intro s r q hb hlen hrparams hrA hrbuf hrkey hrctx hqparams hqA hqkey
  have hr : r.inBounds r.opA r.opL := by rw [State.inBounds, hrparams, hrA]; omega
  have hq : q.inBounds q.opA q.opL := by rw [State.inBounds, hqparams, hqA]; omega
  refine ⟨_, _, exec_ctrxor_inBounds hb, exec_ctrxor_inBounds hr, fun hqbuf hqctx => ⟨_, exec_ctrxor_inBounds hq, ?_⟩⟩
  have hctx : q.ctrContext = CtrContext.advance r.key r.opL r.ctrContext := hqctx
  have hbuf : q.buf = (s.ctrXorBody s.opA r.opL).buf := by
    rw [hqbuf, complete_buf, hrA, State.ctrXorBody, hrbuf, hrkey, hrctx]
    rfl
  rw [hrkey, hrctx] at hctx
  rw [hqA, hlen]
  exact ctrXorBody_chunks hbuf hctx hqkey

/-- Settles O37: a block in BUF is the big-endian integer of its bytes, and `inc128` adds one to it. -/
theorem cntincAddsOne : Obligations.CntincAddsOne := by
  refine ⟨decodeWord_encode .cntinc, fun s => ⟨fun hb => ?_, fun hb => ?_⟩⟩
  · refine ⟨_, congrArg Host.Outcome.next (if_pos hb), ?_, sameOutside_writeBlock _ _ _⟩
    rw [← toNat_readBlock, ← toNat_readBlock, readBlock_writeBlock, toNat_inc128]
  · exact congrArg Host.Outcome.next (if_neg (by omega))

/-- Settles O38: the order of the integers is decided by the first differing byte. -/
theorem cntcmpComparesLexicographically : Obligations.CntcmpComparesLexicographically := by
  refine ⟨decodeWord_encode .cntcmp, fun s => ⟨fun hA hB => ?_, fun hb => ?_⟩⟩
  · refine ⟨counterOrder (Memory.readBlock s.buf s.opA) (Memory.readBlock s.buf s.opB),
      congrArg Host.Outcome.next (if_pos ⟨hA, hB⟩), ?_, ?_, ?_⟩
    · rw [counterOrder_eq_equal_iff, toNat_readBlock, toNat_readBlock, beNat_readBytes_eq_iff]
    · rw [counterOrder_eq_less_iff, toNat_readBlock, toNat_readBlock, beNat_readBytes_lt_iff]
    · rw [counterOrder_eq_greater_iff, toNat_readBlock, toNat_readBlock, beNat_readBytes_lt_iff]
      simp only [eq_comm]
  · exact congrArg Host.Outcome.next (if_neg (by omega))

end Sys2Proof

/-! PROOFS. The command codec (spec/44_command_codec.md): how a DECODE ends, by the kind of the message and the cause of a
reject, what the four ENCODE operations build, and that the one accepts what the other built. -/

namespace Sys2Proof.Machine

/-! ### The kind of a message and the mode (R200 to R203) -/

theorem classify_auth {p : Params} {m : Nat} : classify p m = .auth ↔ m = 32 := by
  have := pageSize_ge p
  unfold classify
  split_ifs <;> simp <;> omega

theorem classify_none {p : Params} {m : Nat} :
    classify p m = .none ↔ m ≠ 2 ∧ m ≠ p.pageSize + 32 ∧ m ≠ 48 ∧ m ≠ 32 := by
  unfold classify
  split_ifs <;> simp_all

theorem exec_decode_exited {s : State} (he : s.exited = true) :
    exec .decode s = .next { s with kind := classify s.params s.opM, latch := none, wait := 0 } :=
  congrArg (fun u : State => Host.Outcome.next u.complete) (if_pos he)

theorem exec_decode_accepting {s u : State} {k : Kind} (he : s.exited = false) (hk : classify s.params s.opM = k)
    (hdec : ({ s with kind := k } : State).decodeKind k = u) : exec .decode s = .next u.complete := by
  subst hk hdec
  exact congrArg (fun u : State => Host.Outcome.next u.complete) (if_neg (Bool.eq_false_iff.mp he))

/-- A message of no kind is rejected in either mode. -/
theorem exec_decode_none {s : State} (hk : classify s.params s.opM = .none) :
    exec .decode s = .next { s with kind := .none, latch := none, wait := 0 } := by
  by_cases he : s.exited = true
  · rw [exec_decode_exited he, hk]
  · exact exec_decode_accepting (u := { s with kind := .none }) (Bool.eq_false_iff.mpr he) hk rfl

theorem decodeKind_kind (s : State) (k : Kind) : (s.decodeKind k).kind = s.kind := by
  cases k with
  | none => rfl
  | setaddr => simp only [State.decodeKind, State.decodeSetaddr]; split_ifs <;> rfl
  | program => simp only [State.decodeKind, State.decodeProgram]; split_ifs <;> simp
  | changekey => simp only [State.decodeKind, State.decodeChangekey]; split_ifs <;> simp
  | auth => simp only [State.decodeKind, State.decodeAuth]; split_ifs <;> simp

/-- KIND is reported in either mode, whatever the message is worth. -/
theorem performDecode_kind (s : State) : (performDecode s).kind = classify s.params s.opM := by
  simp only [performDecode, complete_kind]
  split_ifs
  · rfl
  · exact decodeKind_kind _ _

/-- RESULT reads as 0 after a DECODE that reports no kind, where it did before. -/
theorem resultWord_of_kind_none {s : State} (h : s.resultWord = 0#32) :
    ({ s with kind := .none, latch := none, wait := 0 } : State).resultWord = 0#32 := by
  have hcode : s.kind.code = 0#3 := by rw [← resultWord_kind, h]; rfl
  have hkind : s.kind = .none := by
    revert hcode
    cases s.kind <;> decide
  rw [← h, ← hkind]
  rfl

/-! ### Every other operation after EXITED (R202) -/

/-- A choice between two states that the exit does not decide. -/
theorem ite_exit {c : Prop} [Decidable c] {s t s' t' : State} (h : s' = s.exit) (h' : t' = t.exit) :
    (if c then s' else t') = (if c then s else t).exit := by
  rw [h, h', apply_ite State.exit]

theorem macVerifyStep_exit (s : State) (a l : Nat) : s.exit.macVerifyStep a l = (s.macVerifyStep a l).exit :=
  ite_exit rfl rfl

theorem performed_exit {i : Instr} (hi : i ≠ .decode) (s : State) : performed i s.exit = (performed i s).exit := by
  cases i with
  | decode => exact absurd rfl hi
  | macinit | encodeSetaddr | encodeProgram | encodeChangekey | encodeAuth => rfl
  | keyload | macstore | maccmp | ctrload | ctrstore | ctrxor | cntinc | cntcmp => exact ite_exit rfl rfl
  | cbcenc | cbcdec | macupd | maccalc => exact ite_exit rfl (ite_exit rfl rfl)
  | macvfy =>
    refine ite_exit rfl (ite_exit rfl ?_)
    exact congrArg (fun t : State => ({ t with mismatch := s.macResidual s.opA s.opL != 0#128 } : State).complete)
      (macVerifyStep_exit s s.opA s.opL)

/-! ### The wire address and the address policy (R86, R206, R210) -/

theorem toNat_wireAddress (s : State) :
    s.wireAddress.toNat = (Memory.read s.buf 16).toNat + 256 * (Memory.read s.buf 17).toNat := by
  have hlow := (Memory.read s.buf 16).isLt
  have hhigh := (Memory.read s.buf 17).isLt
  simp only [State.wireAddress, Memory.readLe, BitVec.toNat_ofNat, Nat.reduceAdd]
  omega

theorem paddingZero_iff (s : State) :
    s.paddingZero = true ↔ ∀ i, i < 14 → Memory.read s.buf (18 + i) = 0#8 := by
  rw [State.paddingZero, beq_iff_eq, List.eq_replicate_iff, List.forall_mem_iff_forall_getElem]
  simp only [length_readBytes, getElem_readBytes, true_and]

theorem policyPasses_iff (s : State) :
    s.policyPasses = true ↔ widen s.params s.wireAddress % s.params.pageSize = 0
      ∧ widen s.params s.wireAddress < s.params.bootStart ∧ ∀ i, i < 14 → Memory.read s.buf (18 + i) = 0#8 := by
  simp only [State.policyPasses, Bool.and_eq_true, beq_iff_eq, decide_eq_true_eq, paddingZero_iff, and_assoc]

/-! ### SetAddress (R204, R205) -/

theorem exec_decode_startApp {s : State} (he : s.exited = false) (hm : s.opM = 2)
    (hw : s.wireAddress = s.params.startApp) :
    exec .decode s = .next { s with
      kind := .setaddr, exited := true, verdict := true, action := .startApp, latch := none, wait := 0 } :=
  (exec_decode_accepting he (classify_setaddr.mpr hm) (if_pos hw) :)

theorem exec_decode_setReadAddr {s : State} (he : s.exited = false) (hm : s.opM = 2)
    (hw : s.wireAddress ≠ s.params.startApp) :
    exec .decode s = .next { s with
      kind := .setaddr, rdaddr := BitVec.ofNat 32 (widen s.params s.wireAddress), verdict := true
      action := .setReadAddr, latch := none, wait := 0 } :=
  (exec_decode_accepting he (classify_setaddr.mpr hm) (if_neg hw) :)

/-! ### The tag of a message (R147, R207 to R209) -/

/-- BUF when the tag after the `l` bytes of data of a message is checked: the tag slot holds the residual. -/
def State.checkedBuf (s : State) (l : Nat) : Memory :=
  Memory.writeBlock s.buf (16 + l) (s.macResidual 16 l)

theorem macVerifyStep_eq_checkedBuf (s : State) {l : Nat} (hl : 16 ≤ l) :
    s.macVerifyStep 16 l = { s with buf := s.checkedBuf l } :=
  if_neg (by omega)

theorem readBlock_checkedBuf_slot (s : State) (l : Nat) :
    Memory.readBlock (s.checkedBuf l) (16 + l) = s.macResidual 16 l :=
  readBlock_writeBlock _ _ _

theorem sameOutside_checkedBuf (s : State) (l : Nat) : Memory.SameOutside s.buf (s.checkedBuf l) (16 + l) 16 :=
  sameOutside_writeBlock _ _ _

/-- BUF when, besides, the `l` bytes of data are decrypted where they stand. -/
def State.openedBuf (s : State) (l : Nat) : Memory :=
  Memory.recode (s.checkedBuf l) 0 (l / 16) (cbcDecrypt s.key 0#128)

theorem openedBuf_eq_cbcDecBody (s : State) (l : Nat) :
    s.openedBuf l = (({ s with buf := s.checkedBuf l } : State).cbcDecBody 0 l).buf := rfl

theorem readBlock_openedBuf_iv (s : State) (l : Nat) : Memory.readBlock (s.openedBuf l) 0 = 0#128 :=
  readBlock_cbcDecBody_iv { s with buf := s.checkedBuf l } 0 l

theorem readBlock_openedBuf_slot (s : State) (l : Nat) :
    Memory.readBlock (s.openedBuf l) (16 + l) = s.macResidual 16 l := by
  rw [← readBlock_checkedBuf_slot, openedBuf_eq_cbcDecBody]
  exact readBlock_congr fun i _ => sameOutside_cbcDecBody _ 0 l _ (by omega)

/-- The data blocks are CBC-decrypted (R123); block 0 is the IV slot. -/
theorem readBlock_openedBuf_data (s : State) {l j : Nat} (hj : j < l / 16) :
    Memory.readBlock (s.openedBuf l) (16 * (j + 1))
      = decrypt s.key (Memory.readBlock s.buf (16 * (j + 1)))
        ^^^ (if j = 0 then 0#128 else Memory.readBlock s.buf (16 * j)) := by
  have hchecked : ∀ b, b ≤ j + 1 → Memory.readBlock (s.checkedBuf l) (16 * b) = Memory.readBlock s.buf (16 * b) :=
    fun b hb => readBlock_writeBlock_disjoint _ _ (.inl (by omega))
  have hchain := readBlock_cbcDecBody_chain { s with buf := s.checkedBuf l } 0 l j hj
  simp only [Nat.zero_add] at hchain
  rw [openedBuf_eq_cbcDecBody, hchain, hchecked _ le_rfl, hchecked _ (Nat.le_succ j)]

theorem readBlock_openedBuf_first (s : State) {l : Nat} (hl : 16 ≤ l) :
    Memory.readBlock (s.openedBuf l) 16 = decrypt s.key (Memory.readBlock s.buf 16) :=
  (readBlock_openedBuf_data s (j := 0) (by omega)).trans BitVec.xor_zero

theorem sameOutside_openedBuf (s : State) (l : Nat) : Memory.SameOutside s.buf (s.openedBuf l) 0 (32 + l) := by
  intro x hx
  rw [openedBuf_eq_cbcDecBody, sameOutside_cbcDecBody _ 0 l x (by omega), sameOutside_checkedBuf s l x (by omega)]

section
variable {s : State}

theorem macResidual_program :
    s.macResidual 16 (16 + s.params.pageSize) = macUnwind s.key (Memory.readBlock s.buf (32 + s.params.pageSize))
      (Memory.readBlocks s.buf 16 (s.params.pageSize / 16 + 1)) := by
  rw [State.macResidual, ← Nat.add_assoc, Nat.add_div_left _ (by decide)]

theorem macResidual_program_eq_zero_iff : s.macResidual 16 (16 + s.params.pageSize) = 0#128
    ↔ Memory.readBlock s.buf (32 + s.params.pageSize)
      = cbcMac s.key (Memory.readBlocks s.buf 16 (s.params.pageSize / 16 + 1)) := by
  rw [macResidual_eq_zero_iff, ← Nat.add_assoc, Nat.add_div_left _ (by decide)]

theorem macResidual_changekey_eq_zero_iff : s.macResidual 16 32 = 0#128
    ↔ Memory.readBlock s.buf 48 = cbcMac s.key [Memory.readBlock s.buf 16, Memory.readBlock s.buf 32] :=
  macResidual_eq_zero_iff s 16 32

theorem cbcMac_singleton (k : Key) (x : Block) : cbcMac k [x] = encrypt k x :=
  congrArg (encrypt k) (BitVec.zero_xor)

theorem macResidual_auth_eq_zero_iff : s.macResidual 16 16 = 0#128
    ↔ Memory.readBlock s.buf 32 = encrypt s.key (Memory.readBlock s.buf 16) := by
  rw [← cbcMac_singleton]
  exact macResidual_eq_zero_iff s 16 16

/-! ### Messages with a tag (R206 to R209) -/

variable (he : s.exited = false)
include he

/-- A message whose validation checks the tag after `l` bytes of data and then does `f`. -/
theorem exec_decode_tagged {k : Kind} {l : Nat} (f : State → State) (hk : classify s.params s.opM = k) (hl : 16 ≤ l)
    (hdec : ({ s with kind := k } : State).decodeKind k = f (({ s with kind := k } : State).macVerifyStep 16 l)) :
    exec .decode s = .next (f { s with kind := k, buf := s.checkedBuf l }).complete := by
  rw [exec_decode_accepting he hk hdec, macVerifyStep_eq_checkedBuf _ hl]
  rfl

theorem exec_decode_program_policyFails (hm : s.opM = s.params.pageSize + 32) (hp : ¬ s.policyPasses = true) :
    exec .decode s = .next { s with kind := .program, latch := none, wait := 0 } :=
  (exec_decode_accepting he (classify_program.mpr hm) (if_pos hp) :)

theorem exec_decode_program_badTag (hm : s.opM = s.params.pageSize + 32) (hp : s.policyPasses = true)
    (ht : s.macResidual 16 (16 + s.params.pageSize) ≠ 0#128) :
    exec .decode s = .next { s with
      kind := .program, buf := s.checkedBuf (16 + s.params.pageSize), latch := none, wait := 0 } :=
  exec_decode_tagged he id (classify_program.mpr hm) (by omega) ((if_neg (not_not.mpr hp)).trans (if_pos ht))

theorem exec_decode_program_goodTag (hm : s.opM = s.params.pageSize + 32) (hp : s.policyPasses = true)
    (ht : s.macResidual 16 (16 + s.params.pageSize) = 0#128) :
    exec .decode s = .next { s with
      kind := .program, buf := s.checkedBuf (16 + s.params.pageSize)
      pgaddr := BitVec.ofNat 32 (widen s.params s.wireAddress), verdict := true, action := .programPage
      latch := none, wait := 0 } :=
  exec_decode_tagged he
    (fun t => ({ t with pgaddr := BitVec.ofNat 32 (widen s.params s.wireAddress) } : State).accept .programPage)
    (classify_program.mpr hm) (by omega) ((if_neg (not_not.mpr hp)).trans (if_neg (not_not.mpr ht)))

theorem exec_decode_changekey_badTag (hm : s.opM = 48) (ht : s.macResidual 16 32 ≠ 0#128) :
    exec .decode s = .next { s with kind := .changekey, buf := s.checkedBuf 32, latch := none, wait := 0 } :=
  exec_decode_tagged he id (classify_changekey.mpr hm) (by omega) (if_pos ht)

theorem exec_decode_changekey_goodTag (hm : s.opM = 48) (ht : s.macResidual 16 32 = 0#128) :
    exec .decode s = .next { s with
      kind := .changekey, buf := s.openedBuf 32, key := Memory.readKey (s.openedBuf 32) 16, verdict := true
      action := .keyChanged, latch := none, wait := 0 } :=
  exec_decode_tagged he
    (fun t => ({ t.cbcDecBody 0 32 with key := Memory.readKey (t.cbcDecBody 0 32).buf 16 } : State).accept .keyChanged)
    (classify_changekey.mpr hm) (by omega) (if_neg (not_not.mpr ht))

theorem exec_decode_auth_badTag (hm : s.opM = 32) (ht : s.macResidual 16 16 ≠ 0#128) :
    exec .decode s = .next { s with kind := .auth, buf := s.checkedBuf 16, latch := none, wait := 0 } :=
  exec_decode_tagged he id (classify_auth.mpr hm) (by omega) (if_pos ht)

theorem exec_decode_auth_goodTag (hm : s.opM = 32) (ht : s.macResidual 16 16 = 0#128) :
    exec .decode s = .next { s with
      kind := .auth, buf := s.openedBuf 16, verdict := true, action := .authResponse, latch := none, wait := 0 } :=
  exec_decode_tagged he (fun t => (t.cbcDecBody 0 16).accept .authResponse) (classify_auth.mpr hm) (by omega)
    (if_neg (not_not.mpr ht))

end

/-! ### Everything a DECODE can be (R211) -/

/-- DECODE of a message of kind `k` rejects before any MAC step (R202, R203, R206). -/
def State.RejectsEarly (s : State) (k : Kind) : Prop :=
  k = .none ∨ s.exited = true ∨ (k = .program ∧ s.policyPasses = false)

theorem not_rejectsEarly {s : State} {k : Kind} (hk : k ≠ .none) (he : s.exited = false)
    (hp : k = .program → s.policyPasses = true) : ¬ s.RejectsEarly k := by
  rintro (h | h | ⟨h, hfails⟩)
  · exact hk h
  · exact Bool.noConfusion (h.symm.trans he)
  · exact Bool.noConfusion ((hp h).symm.trans hfails)

/-- DECODE of a message of kind `k` with `l` bytes of data before its tag rejects the tag. -/
structure State.RejectsTag (s : State) (k : Kind) (l : Nat) : Prop where
  notEarly : ¬ s.RejectsEarly k
  length : s.opM = 16 + l
  residual : s.macResidual 16 l ≠ 0#128

theorem decode_cases {s t : State} (h : exec .decode s = .next t) :
    (∃ k, s.RejectsEarly k ∧ t = { s with kind := k, latch := none, wait := 0 })
    ∨ (∃ k l, s.RejectsTag k l ∧ t = { s with kind := k, buf := s.checkedBuf l, latch := none, wait := 0 })
    ∨ t.verdict = true := by
  have hend : ∀ {u}, exec .decode s = .next u → t = u := fun hu => Host.Outcome.next.inj (h.symm.trans hu)
  by_cases he : s.exited = true
  · exact .inl ⟨_, .inr (.inl he), hend (exec_decode_exited he)⟩
  rw [Bool.not_eq_true] at he
  cases hk : classify s.params s.opM with
  | none => exact .inl ⟨_, .inl rfl, hend (exec_decode_none hk)⟩
  | setaddr =>
    have hm := classify_setaddr.mp hk
    by_cases hw : s.wireAddress = s.params.startApp
    · exact .inr (.inr (congrArg State.verdict (hend (exec_decode_startApp he hm hw))))
    · exact .inr (.inr (congrArg State.verdict (hend (exec_decode_setReadAddr he hm hw))))
  | program =>
    have hm := classify_program.mp hk
    by_cases hp : s.policyPasses = true
    · by_cases ht : s.macResidual 16 (16 + s.params.pageSize) = 0#128
      · exact .inr (.inr (congrArg State.verdict (hend (exec_decode_program_goodTag he hm hp ht))))
      · exact .inr (.inl ⟨_, _, ⟨not_rejectsEarly (by decide) he fun _ => hp, by omega, ht⟩,
          hend (exec_decode_program_badTag he hm hp ht)⟩)
    · exact .inl ⟨_, .inr (.inr ⟨rfl, Bool.eq_false_iff.mpr hp⟩), hend (exec_decode_program_policyFails he hm hp)⟩
  | changekey =>
    have hm := classify_changekey.mp hk
    by_cases ht : s.macResidual 16 32 = 0#128
    · exact .inr (.inr (congrArg State.verdict (hend (exec_decode_changekey_goodTag he hm ht))))
    · exact .inr (.inl ⟨.changekey, 32, ⟨not_rejectsEarly (by decide) he nofun, hm, ht⟩,
        hend (exec_decode_changekey_badTag he hm ht)⟩)
  | auth =>
    have hm := classify_auth.mp hk
    by_cases ht : s.macResidual 16 16 = 0#128
    · exact .inr (.inr (congrArg State.verdict (hend (exec_decode_auth_goodTag he hm ht))))
    · exact .inr (.inl ⟨.auth, 16, ⟨not_rejectsEarly (by decide) he nofun, hm, ht⟩,
        hend (exec_decode_auth_badTag he hm ht)⟩)

/-! ### What ENCODE builds (R215 to R219) -/

/-- The tag of the `n` blocks from offset 16 on. -/
def Memory.messageTag (m : Memory) (k : Key) (n : Nat) : Block :=
  cbcMac k (Memory.readBlocks m 16 n)

/-- The tag of the `n` blocks from offset 16 on appended to them. -/
def Memory.withTag (m : Memory) (k : Key) (n : Nat) : Memory :=
  Memory.writeBlock m (16 + 16 * n) (m.messageTag k n)

section
variable (m : Memory) (k : Key) (n : Nat)

theorem sameOutside_withTag : Memory.SameOutside m (m.withTag k n) (16 + 16 * n) 16 :=
  sameOutside_writeBlock _ _ _

theorem readBlock_withTag_slot : Memory.readBlock (m.withTag k n) (16 + 16 * n) = m.messageTag k n :=
  readBlock_writeBlock _ _ _

theorem readBlock_withTag_before {x : Nat} (hx : x ≤ 16 * n) :
    Memory.readBlock (m.withTag k n) x = Memory.readBlock m x :=
  readBlock_writeBlock_disjoint _ _ (.inl (by omega))

theorem messageTag_withTag : (m.withTag k n).messageTag k n = m.messageTag k n :=
  congrArg (cbcMac k) (readBlocks_congr fun i hi => sameOutside_withTag m k n _ (by omega))

end

theorem exec_encodeSetaddr (s : State) :
    exec .encodeSetaddr s = .next { s with
      buf := Memory.writeLe s.buf 16 2 s.opW.toNat, msglen := 2#16, kind := .setaddr, latch := none, wait := 0 } := rfl

theorem exec_encodeProgram (s : State) :
    exec .encodeProgram s = .next { s with
      buf := s.placeAddressBlock.buf.withTag s.key (s.params.pageSize / 16 + 1)
      acc := s.placeAddressBlock.buf.messageTag s.key (s.params.pageSize / 16 + 1)
      msglen := BitVec.ofNat 16 (s.params.pageSize + 32), kind := .program, latch := none, wait := 0 } := by
  have hpage := pageSize_mod s.params
  have hslot : 16 + 16 * (s.params.pageSize / 16 + 1) = 32 + s.params.pageSize := by omega
  rw [exec_eq, performed, performEncodeProgram, Memory.withTag, hslot]
  -- Unfolded first: `rfl` would compare the state with the address block placed to `s` as a whole, byte by byte.
  unfold State.placeAddressBlock
  rfl

theorem exec_encodeChangekey (s : State) :
    exec .encodeChangekey s = .next { s with
      buf := (s.cbcEncBody 0 32).buf.withTag s.key 2, acc := (s.cbcEncBody 0 32).buf.messageTag s.key 2
      msglen := 48#16, kind := .changekey, latch := none, wait := 0 } := rfl

theorem exec_encodeAuth (s : State) :
    exec .encodeAuth s = .next { s with
      buf := (s.cbcEncBody 0 16).buf.withTag s.key 1, acc := (s.cbcEncBody 0 16).buf.messageTag s.key 1
      msglen := 32#16, kind := .auth, latch := none, wait := 0 } := by
  rw [exec_eq, performed, performEncodeAuth, ← cbcMac_singleton]
  rfl

theorem readBlock_cbcEncBody_first (s : State) {l : Nat} (hl : 16 ≤ l) :
    Memory.readBlock (s.cbcEncBody 0 l).buf 16 = encrypt s.key (Memory.readBlock s.buf 16) := by
  have hchain := readBlock_cbcEncBody_chain s 0 l 0 (by omega)
  simp only [Nat.zero_add, Nat.mul_zero, Nat.mul_one] at hchain
  rw [hchain, readBlock_cbcEncBody_iv, BitVec.xor_zero]

/-- The bytes `[W mod 256, W div 256]` (R87, R216) of a wire address. -/
theorem toNat_halfBytes (w : Half) :
    (w.setWidth 8).toNat = w.toNat % 256 ∧ (w.extractLsb' 8 8).toNat = w.toNat / 256 := by
  have := w.isLt
  rw [BitVec.toNat_setWidth, BitVec.extractLsb'_toNat, Nat.shiftRight_eq_div_pow]
  omega

theorem read_writeLe_half (m : Memory) (w : Half) :
    (Memory.read (Memory.writeLe m 16 2 w.toNat) 16).toNat = w.toNat % 256
      ∧ (Memory.read (Memory.writeLe m 16 2 w.toNat) 17).toNat = w.toNat / 256 := by
  have := w.isLt
  rw [read_writeLe, read_writeLe, if_pos (by decide), if_pos (by decide), BitVec.toNat_ofNat, BitVec.toNat_ofNat]
  omega

/-- The sixteen bytes of the address block from offset 16 on. -/
theorem read_placeAddressBlock (s : State) (x : Nat) :
    Memory.read s.placeAddressBlock.buf x
      = if 16 ≤ x ∧ x < 32 then (addressBlock s.opW).getD (x - 16) 0#8 else Memory.read s.buf x :=
  read_writeBytes s.buf 16 x (addressBlock s.opW)

theorem read_placeAddressBlock_wire (s : State) :
    (Memory.read s.placeAddressBlock.buf 16).toNat = s.opW.toNat % 256
      ∧ (Memory.read s.placeAddressBlock.buf 17).toNat = s.opW.toNat / 256 := by
  rw [read_placeAddressBlock, read_placeAddressBlock, if_pos (by decide), if_pos (by decide)]
  exact toNat_halfBytes s.opW

theorem read_placeAddressBlock_padding (s : State) {i : Nat} (hi : i < 14) :
    Memory.read s.placeAddressBlock.buf (18 + i) = 0#8 := by
  rw [read_placeAddressBlock, if_pos (by omega), show 18 + i - 16 = i + 2 by omega]
  exact (List.getD_eq_getElem?_getD).trans (List.getElem?_getD_replicate_default_eq _ 14 i)

end Sys2Proof.Machine

namespace Sys2Proof
open Machine

/-- Settles O39: a length that is no message's has no kind, in either mode. -/
theorem decodeRejectsMalformedLength : Obligations.DecodeRejectsMalformedLength :=
  fun _ h2 hpage h48 h32 =>
    ⟨_, exec_decode_none (classify_none.mpr ⟨h2, hpage, h48, h32⟩), rfl, resultWord_of_kind_none⟩

/-- Settles O40: the mode is looked at by DECODE alone, after the length. -/
theorem decodeRejectsAfterExit : Obligations.DecodeRejectsAfterExit := by
  refine ⟨fun s => ?_, fun i s t hi ht => ?_⟩
  · refine ⟨classify s.params s.opM, _, exec_eq _ s, performDecode_kind s, classify_setaddr, classify_program,
      classify_changekey, classify_auth, fun he => ?_⟩
    exact Host.Outcome.next.inj ((exec_eq _ s).symm.trans (exec_decode_exited he))
  · rw [exec_eq] at ht ⊢
    obtain rfl := Host.Outcome.next.inj ht
    exact congrArg Host.Outcome.next (performed_exit hi s)

/-- Settles O41: by R204's comparison with the sentinel; the wire address is the little-endian integer of its two bytes. -/
theorem decodeSetaddress : Obligations.DecodeSetaddress := by
  intro s w hm he hw
  rw [← toNat_wireAddress] at hw
  subst hw
  refine ⟨fun h => exec_decode_startApp he hm (BitVec.eq_of_toNat_eq h), fun h => ?_⟩
  exact ⟨_, exec_decode_setReadAddr he hm (fun heq => h (congrArg BitVec.toNat heq)), toNat_widen _ _⟩

/-- Settles O42: each cause is the failure of one part of the policy. -/
theorem decodeProgramAddressPolicy : Obligations.DecodeProgramAddressPolicy := by
  intro s w a hm he hw ha hcause
  rw [← toNat_wireAddress] at hw
  subst hw
  obtain rfl : a = widen s.params s.wireAddress := ha
  refine exec_decode_program_policyFails he hm fun hp => ?_
  obtain ⟨haligned, hbelow, hpadding⟩ := (policyPasses_iff s).mp hp
  obtain h | h | ⟨i, hi, h⟩ := hcause
  · exact h haligned
  · exact absurd hbelow (not_lt.mpr h)
  · exact h (hpadding i hi)

/-- Settles O43: the tag slot takes the residual, which is zero exactly for the CBC-MAC. -/
theorem decodeProgramChecksTheMac : Obligations.DecodeProgramChecksTheMac := by
  intro s w a hm he hw ha haligned hbelow hpadding
  rw [← toNat_wireAddress] at hw
  subst hw
  obtain rfl : a = widen s.params s.wireAddress := ha
  have hp : s.policyPasses = true := (policyPasses_iff s).mpr ⟨haligned, hbelow, hpadding⟩
  have hplace : 32 + s.params.pageSize = 16 + (16 + s.params.pageSize) := Nat.add_assoc 16 16 _
  have hslot : Memory.readBlock (s.checkedBuf (16 + s.params.pageSize)) (32 + s.params.pageSize)
      = s.macResidual 16 (16 + s.params.pageSize) := by rw [hplace, readBlock_checkedBuf_slot]
  have hframe : Memory.SameOutside s.buf (s.checkedBuf (16 + s.params.pageSize)) (32 + s.params.pageSize) 16 := by
    rw [hplace]
    exact sameOutside_checkedBuf s _
  refine ⟨fun h => ?_, fun h => ?_⟩
  · have ht := macResidual_program_eq_zero_iff.mpr h
    exact ⟨_, _, exec_decode_program_goodTag he hm hp ht, toNat_widen _ _, hslot.trans ht, hframe⟩
  · have ht := mt macResidual_program_eq_zero_iff.mp h
    exact ⟨_, exec_decode_program_badTag he hm hp ht, hslot ▸ ht, hslot.trans macResidual_program, hframe⟩

/-- Settles O44: the residual is zero exactly for the CBC-MAC; then the data blocks are decrypted, and the new key has their
bytes. -/
theorem decodeChangekeyTakesTheKey : Obligations.DecodeChangekeyTakesTheKey := by
  refine fun s hm he => ⟨fun h => ?_, fun h => ?_⟩
  · have ht := macResidual_changekey_eq_zero_iff.mpr h
    exact ⟨_, _, exec_decode_changekey_goodTag he hm ht, strByte_readKey _ _, readBlock_openedBuf_iv s 32,
      (readBlock_openedBuf_slot s 32).trans ht, readBlock_openedBuf_first s (by decide),
      readBlock_openedBuf_data s (j := 1) (by decide), sameOutside_openedBuf s 32⟩
  · have ht := mt macResidual_changekey_eq_zero_iff.mp h
    have hslot : Memory.readBlock (s.checkedBuf 32) 48 = s.macResidual 16 32 := readBlock_checkedBuf_slot s 32
    exact ⟨_, exec_decode_changekey_badTag he hm ht, hslot ▸ ht, sameOutside_checkedBuf s 32, hslot⟩

/-- Settles O45: the residual is zero exactly for the encrypted ciphertext block, its CBC-MAC; then that block is
decrypted. -/
theorem decodeAuthRecoversTheChallenge : Obligations.DecodeAuthRecoversTheChallenge := by
  refine fun s hm he => ⟨fun h => ?_, fun h => ?_⟩
  · have ht := macResidual_auth_eq_zero_iff.mpr h
    exact ⟨_, exec_decode_auth_goodTag he hm ht, readBlock_openedBuf_first s le_rfl, readBlock_openedBuf_iv s 16,
      (readBlock_openedBuf_slot s 16).trans ht, sameOutside_openedBuf s 16⟩
  · have ht := mt macResidual_auth_eq_zero_iff.mp h
    have hslot : Memory.readBlock (s.checkedBuf 16) 32 = s.macResidual 16 16 := readBlock_checkedBuf_slot s 16
    exact ⟨_, exec_decode_auth_badTag he hm ht, hslot ▸ ht, sameOutside_checkedBuf s 16, hslot⟩

/-- Settles O46: of what a DECODE can be, only the rejected tag writes BUF, and it leaves the residual. -/
theorem rejectsLeaveTheDeviceState : Obligations.RejectsLeaveTheDeviceState := by
  intro s t hexec _ hv
  obtain ⟨k, hearly, rfl⟩ | ⟨k, l, htag, rfl⟩ | haccept := decode_cases hexec
  · exact ⟨rfl, rfl, rfl, rfl, rfl, rfl, rfl, rfl, rfl, rfl, rfl, rfl, fun _ => rfl,
      fun hk he hp => absurd hearly (not_rejectsEarly hk he hp)⟩
  · refine ⟨rfl, rfl, rfl, rfl, rfl, rfl, rfl, rfl, rfl, rfl, rfl, rfl, fun hearly => absurd hearly htag.notEarly,
      fun _ _ _ => ?_⟩
    rw [htag.length, readBlock_checkedBuf_slot]
    exact ⟨htag.residual, sameOutside_checkedBuf s l⟩
  · exact Bool.noConfusion (haccept.symm.trans hv)

/-- Settles O47: the address is written as a little-endian integer. -/
theorem encodeSetaddrBuildsTheMessage : Obligations.EncodeSetaddrBuildsTheMessage := by
  refine ⟨decodeWord_encode .encodeSetaddr, fun s => ?_⟩
  obtain ⟨hlow, hhigh⟩ := read_writeLe_half s.buf s.opW
  exact ⟨_, exec_encodeSetaddr s, hlow, hhigh, sameOutside_writeLe _ _ _ _⟩

/-- Settles O48: the tag stands after the blocks it is computed over, so it is still theirs when it is written. -/
theorem encodeProgramBuildsTheMessage : Obligations.EncodeProgramBuildsTheMessage := by
  refine ⟨decodeWord_encode .encodeProgram, fun s => ?_⟩
  have hmod := pageSize_mod s.params
  have hle := pageSize_le s.params
  have hslot : 32 + s.params.pageSize = 16 + 16 * (s.params.pageSize / 16 + 1) := by omega
  obtain ⟨hlow, hhigh⟩ := read_placeAddressBlock_wire s
  have hframe := sameOutside_withTag s.placeAddressBlock.buf s.key (s.params.pageSize / 16 + 1)
  refine ⟨_, _, _, exec_encodeProgram s, ?_, ?_, ?_, fun i hi => ?_, (messageTag_withTag _ _ _).symm, ?_,
    fun x hx => ?_⟩
  · rw [BitVec.toNat_ofNat]
    omega
  · rw [hframe _ (by omega), hlow]
  · rw [hframe _ (by omega), hhigh]
  · rw [hframe _ (by omega), read_placeAddressBlock_padding s hi]
  · rw [hslot, readBlock_withTag_slot]
  · rw [hframe _ (by omega), read_placeAddressBlock, if_neg (by omega)]

/-- Settles O49: the key is CBC-encrypted where it stands, and the tag of the two ciphertext blocks stands after them. -/
theorem encodeChangekeyBuildsTheMessage : Obligations.EncodeChangekeyBuildsTheMessage := by
  refine ⟨decodeWord_encode .encodeChangekey, fun s => ?_⟩
  have hblock : ∀ x, x ≤ 32 → Memory.readBlock ((s.cbcEncBody 0 32).buf.withTag s.key 2) x
      = Memory.readBlock (s.cbcEncBody 0 32).buf x := fun x hx => readBlock_withTag_before _ _ 2 hx
  refine ⟨_, _, exec_encodeChangekey s, ?_, ?_, ?_, (messageTag_withTag _ _ _).symm, readBlock_withTag_slot _ _ 2,
    fun x hx => ?_⟩
  · rw [hblock 0 (by decide), readBlock_cbcEncBody_iv]
  · rw [hblock 16 (by decide), readBlock_cbcEncBody_first s (by decide)]
  · rw [hblock 16 (by decide), hblock 32 (by decide)]
    exact readBlock_cbcEncBody_chain s 0 32 1 (by decide)
  · rw [sameOutside_withTag _ _ 2 x (by omega), sameOutside_cbcEncBody s 0 32 x (by omega)]

/-- Settles O50: the CBC-MAC of the one ciphertext block is its encryption. -/
theorem encodeAuthBuildsTheMessage : Obligations.EncodeAuthBuildsTheMessage := by
  refine ⟨decodeWord_encode .encodeAuth, fun s => ?_⟩
  have hblock : ∀ x, x ≤ 16 → Memory.readBlock ((s.cbcEncBody 0 16).buf.withTag s.key 1) x
      = Memory.readBlock (s.cbcEncBody 0 16).buf x := fun x hx => readBlock_withTag_before _ _ 1 hx
  refine ⟨_, _, exec_encodeAuth s, ?_, ?_, ?_, readBlock_withTag_slot _ _ 1, fun x hx => ?_⟩
  · rw [hblock 0 (by decide), readBlock_cbcEncBody_iv]
  · rw [hblock 16 (by decide), readBlock_cbcEncBody_first s le_rfl]
  · rw [hblock 16 (by decide)]
    exact cbcMac_singleton _ _
  · rw [sameOutside_withTag _ _ 1 x (by omega), sameOutside_cbcEncBody s 0 16 x (by omega)]

end Sys2Proof

namespace Sys2Proof.Machine

/-! ### What ENCODE built, decoded (R221) -/

/-- `r` is about to DECODE the message that an ENCODE of `s` left in `t`, under the same KEY and in the mode ACCEPTING. -/
structure State.Receives (s t r : State) : Prop where
  buf : r.buf = t.buf
  key : r.key = s.key
  params : r.params = s.params
  accepting : r.exited = false
  length : r.opM = t.msglen.toNat

theorem wireAddress_of_bytes {r : State} {w : Half} (hlow : (Memory.read r.buf 16).toNat = w.toNat % 256)
    (hhigh : (Memory.read r.buf 17).toNat = w.toNat / 256) : r.wireAddress = w := by
  apply BitVec.eq_of_toNat_eq
  rw [toNat_wireAddress, hlow, hhigh]
  omega

theorem readKey_eq_of_readBlock {m m' : Memory} {a : Nat} (h : Memory.readBlock m' a = Memory.readBlock m a)
    (h' : Memory.readBlock m' (a + 16) = Memory.readBlock m (a + 16)) : Memory.readKey m' a = Memory.readKey m a := by
  refine key_eq_of_strByte fun i hi => ?_
  rw [strByte_readKey _ _ _ hi, strByte_readKey _ _ _ hi]
  by_cases hlow : i < 16
  · rw [← strByte_readBlock _ _ _ hlow, h, strByte_readBlock _ _ _ hlow]
  · obtain ⟨j, rfl⟩ : ∃ j, i = 16 + j := ⟨i - 16, by omega⟩
    rw [← Nat.add_assoc, ← strByte_readBlock _ _ _ (by omega), h', strByte_readBlock _ _ _ (by omega)]

section
variable {s t r : State} (hr : s.Receives t r)
include hr

theorem State.Receives.decode_setaddr (ht : exec .encodeSetaddr s = .next t) :
    ∃ u, exec .decode r = .next u ∧ u.verdict = true ∧ (s.opW = s.params.startApp → u.action = .startApp)
      ∧ (s.opW ≠ s.params.startApp → u.action = .setReadAddr ∧ u.rdaddr.toNat = widen s.params s.opW) := by
  obtain ⟨m, hexec, hlow, hhigh, -⟩ := encodeSetaddrBuildsTheMessage.2 s
  obtain rfl := Host.Outcome.next.inj (hexec.symm.trans ht)
  have hbuf : r.buf = m := hr.buf
  rw [← hbuf] at hlow hhigh
  have hwire := wireAddress_of_bytes hlow hhigh
  rw [← hwire, ← hr.params]
  by_cases hw : r.wireAddress = r.params.startApp
  · exact ⟨_, exec_decode_startApp hr.accepting hr.length hw, rfl, fun _ => rfl, fun h => absurd hw h⟩
  · exact ⟨_, exec_decode_setReadAddr hr.accepting hr.length hw, rfl, fun h => absurd h hw,
      fun _ => ⟨rfl, toNat_widen _ _⟩⟩

theorem State.Receives.decode_program (ht : exec .encodeProgram s = .next t)
    (haligned : widen s.params s.opW % s.params.pageSize = 0) (hbelow : widen s.params s.opW < s.params.bootStart) :
    ∃ u, exec .decode r = .next u ∧ u.verdict = true ∧ u.action = .programPage
      ∧ u.pgaddr.toNat = widen s.params s.opW
      ∧ ∀ x, 32 ≤ x → x < 32 + s.params.pageSize → Memory.read u.buf x = Memory.read s.buf x := by
  obtain ⟨m, tag, n, hexec, hn, hlow, hhigh, hpadding, htag, hslot, hframe⟩ := encodeProgramBuildsTheMessage.2 s
  obtain rfl := Host.Outcome.next.inj (hexec.symm.trans ht)
  have hbuf : r.buf = m := hr.buf
  have hm : r.opM = n.toNat := hr.length
  rw [← hbuf] at hlow hhigh hpadding htag hslot hframe
  have hwire := wireAddress_of_bytes hlow hhigh
  rw [← hwire, ← hr.params] at haligned hbelow ⊢
  rw [← hr.params] at hn hframe
  have hp := (policyPasses_iff r).mpr ⟨haligned, hbelow, hpadding⟩
  have hres : r.macResidual 16 (16 + r.params.pageSize) = 0#128 :=
    macResidual_program_eq_zero_iff.mpr (by rw [hr.params, hr.key, hslot, htag])
  refine ⟨_, exec_decode_program_goodTag hr.accepting (hm.trans hn) hp hres, rfl, rfl, toNat_widen _ _,
    fun x hlo hhi => ?_⟩
  rw [sameOutside_checkedBuf r _ x (by omega), hframe x (.inr (.inl ⟨hlo, hhi⟩))]

theorem State.Receives.decode_changekey (ht : exec .encodeChangekey s = .next t) :
    ∃ u, exec .decode r = .next u ∧ u.verdict = true ∧ u.action = .keyChanged
      ∧ u.key = Memory.readKey s.buf 16 := by
  obtain ⟨m, tag, hexec, -, hfirst, hsecond, htag, hslot, -⟩ := encodeChangekeyBuildsTheMessage.2 s
  obtain rfl := Host.Outcome.next.inj (hexec.symm.trans ht)
  have hbuf : r.buf = m := hr.buf
  rw [← hbuf] at hfirst hsecond htag hslot
  have hres : r.macResidual 16 32 = 0#128 := macResidual_changekey_eq_zero_iff.mpr (by rw [hr.key, hslot, htag])
  refine ⟨_, exec_decode_changekey_goodTag hr.accepting hr.length hres, rfl, rfl, readKey_eq_of_readBlock ?_ ?_⟩
  · rw [readBlock_openedBuf_first r (by decide), hr.key, hfirst, decrypt_encrypt]
  · have hdata : Memory.readBlock (r.openedBuf 32) 32
        = decrypt r.key (Memory.readBlock r.buf 32) ^^^ Memory.readBlock r.buf 16 :=
      readBlock_openedBuf_data r (j := 1) (by decide)
    rw [hdata, hr.key, hsecond, decrypt_encrypt, BitVec.xor_assoc, BitVec.xor_self, BitVec.xor_zero]

theorem State.Receives.decode_auth (ht : exec .encodeAuth s = .next t) :
    ∃ u, exec .decode r = .next u ∧ u.verdict = true ∧ u.action = .authResponse
      ∧ Memory.readBlock u.buf 16 = Memory.readBlock s.buf 16 := by
  obtain ⟨m, tag, hexec, -, hfirst, htag, hslot, -⟩ := encodeAuthBuildsTheMessage.2 s
  obtain rfl := Host.Outcome.next.inj (hexec.symm.trans ht)
  have hbuf : r.buf = m := hr.buf
  rw [← hbuf] at hfirst htag hslot
  have hres : r.macResidual 16 16 = 0#128 := macResidual_auth_eq_zero_iff.mpr (by rw [hr.key, hslot, htag])
  refine ⟨_, exec_decode_auth_goodTag hr.accepting hr.length hres, rfl, rfl, ?_⟩
  rw [readBlock_openedBuf_first r (by decide), hr.key, hfirst, decrypt_encrypt]

end

end Sys2Proof.Machine

namespace Sys2Proof
open Machine

/-- Settles O51: kind by kind, the built message passes the checks of DECODE, and decryption takes encryption back. -/
theorem decodeAcceptsWhatEncodeBuilt : Obligations.DecodeAcceptsWhatEncodeBuilt := by
  intro i s t r ht hbuf hkey hparams he hm
  have hr : s.Receives t r := ⟨hbuf, hkey, hparams, he, hm⟩
  refine ⟨?_, ?_, ?_, ?_⟩
  · rintro rfl
    exact hr.decode_setaddr ht
  · rintro rfl
    exact hr.decode_program ht
  · rintro rfl
    exact hr.decode_changekey ht
  · rintro rfl
    exact hr.decode_auth ht

end Sys2Proof

/-! PROOFS. Errors, the host's duties and the end of a host program (spec/60_exceptions.md): what a step makes of a move
of the host, what the host's record notes of each, the bytes of BUF an operation writes, and that a host that waits never
collides. -/

namespace Sys2Proof.Machine

/-! ### Performances and turns of the bus -/

/-- A step performs the operation in flight, or is a turn of the bus. -/
theorem step_performed_or_turn {s t : State} (h : step s = .next t) :
    Performed s t ∨ ∃ n, t = ({ s with wait := n } : State).busTurn := by
  obtain ⟨l, i, -, -, -, rfl⟩ | ⟨l, -, -, -, rfl⟩ | ⟨l, n, -, -, rfl⟩ | ⟨-, rfl⟩ := step_cases h
  · exact .inl (performed_frame i s)
  · exact .inl (.raiseError s .illegal)
  · exact .inr ⟨n, rfl⟩
  · exact .inr ⟨s.wait, rfl⟩

/-- Every state has a next one (R244, R247). -/
theorem step_next (s : State) : ∃ t, step s = .next t := by
  by_cases h : s.busy = true ∧ s.wait = 0
  · obtain ⟨l, hl⟩ := Option.isSome_iff_exists.mp h.1
    obtain ⟨t, ht, -⟩ := performLatched_ends l s
    exact ⟨t, (step_performs hl h.2).trans ht⟩
  · exact ⟨_, step_turn fun hb hw => h ⟨hb, hw⟩⟩

/-! ### How an operation raises an error (R241, R242) -/

/-- From `s` a performance ends in `t` with no error raised, or as `raise` raises one. -/
def RaisesBy (raise : ErrCode → State) (s t : State) : Prop :=
  t.err = s.err ∨ ∃ e, t = raise e

section
variable {raise : ErrCode → State} {s t u : State}

theorem RaisesBy.ite {c : Prop} [Decidable c] (ht : RaisesBy raise s t) (hu : RaisesBy raise s u) :
    RaisesBy raise s (if c then t else u) :=
  iteInduction (motive := RaisesBy raise s) (fun _ => ht) fun _ => hu

theorem RaisesBy.eq_of_err {e : ErrCode} (h : RaisesBy raise s t) (hraise : ∀ e, (raise e).err = some e)
    (hs : s.err = none) (ht : t.err = some e) : t = raise e := by
  obtain h | ⟨e', rfl⟩ := h
  · simp [h, hs] at ht
  · rw [Option.some.inj ((hraise e').symm.trans ht)]

theorem performed_raisesBy {i : Instr} (hcmp : i ≠ .maccmp) (hvfy : i ≠ .macvfy) (s : State) :
    RaisesBy s.raiseError s (performed i s) := by
  cases i with
  | maccmp => exact absurd rfl hcmp
  | macvfy => exact absurd rfl hvfy
  | decode => exact .inl (performDecode_succeeds s).err
  | macinit | encodeSetaddr | encodeChangekey | encodeAuth => exact .inl rfl
  | encodeProgram => exact .inl (by simp [performed, performEncodeProgram])
  | keyload | macstore | ctrload | ctrstore | ctrxor | cntinc | cntcmp => exact .ite (.inl rfl) (.inr ⟨_, rfl⟩)
  | cbcenc | cbcdec | macupd | maccalc => exact .ite (.inr ⟨_, rfl⟩) (.ite (.inr ⟨_, rfl⟩) (.inl rfl))

theorem performed_raisesBy_verify {i : Instr} (hi : i = .maccmp ∨ i = .macvfy) (s : State) :
    RaisesBy s.raiseVerifyError s (performed i s) := by
  obtain rfl | rfl := hi
  · exact .ite (.inl rfl) (.inr ⟨_, rfl⟩)
  · exact .ite (.inr ⟨_, rfl⟩) (.ite (.inr ⟨_, rfl⟩) (.inl (macVerifyStep_err s _ _)))

end

/-! ### No collision (R245, R256, R281) -/

section
variable {s : State}

/-- With no operation in flight a write issues, or it writes an operand register, BUF or nothing. -/
theorem busWrite_idle_cases (w : Width) (offset : Half) (v : Word) (hb : s.busy = false) :
    ((w = .word ∧ offset = 0#16) ∧ s.busWrite w offset v = s.issue v)
    ∨ (¬ (w = .word ∧ offset = 0#16) ∧ ∃ arg0 arg1 msglen buf,
        s.busWrite w offset v = { s with arg0 := arg0, arg1 := arg1, msglen := msglen, buf := buf }) := by
  have hcmd : target s.params w offset ≠ .reg .cmd → ¬ (w = .word ∧ offset = 0#16) := by
    rintro h ⟨rfl, rfl⟩
    exact h (target_cmd _)
  unfold State.busWrite
  rw [if_neg (by simp [hb])]
  cases ht : target s.params w offset with
  | nothing => exact .inr ⟨hcmd (by simp [ht]), _, _, _, _, rfl⟩
  | reg r =>
    cases r with
    | cmd => exact .inl ⟨of_target_cmd ht, rfl⟩
    | _ => exact .inr ⟨hcmd (by simp [ht]), _, _, _, _, rfl⟩
  | buf a => exact .inr ⟨hcmd (by simp [ht]), _, _, _, _, rfl⟩

/-- A write with no operation in flight is no collision. -/
theorem busWrite_noCollision (w : Width) (offset : Half) (v : Word) (hb : s.busy = false) (hc : s.coll = false) :
    (s.busWrite w offset v).bus = s.bus ∧ (s.busWrite w offset v).coll = false := by
  obtain ⟨-, h⟩ | ⟨-, _, _, _, _, h⟩ := busWrite_idle_cases w offset v hb <;> rw [h]
  · exact ⟨rfl, rfl⟩
  · exact ⟨rfl, hc⟩

theorem hostTurn_noCollision (m : HostMove) (hc : s.coll = false) :
    (s.hostTurn m).bus = s.bus ∧ (s.hostTurn m).coll = false := by
  obtain ⟨w, offset, v, d, -, hb, h⟩ | ⟨w, offset, -, -, h⟩ | h | ⟨d, h⟩ := hostTurn_cases s m
  · rw [h]
    exact busWrite_noCollision (s := { s with duties := d }) w offset v hb hc
  · obtain ⟨_, _, hread, -⟩ := busRead_eq s w offset
    rw [h, hread]
    exact ⟨rfl, hc⟩
  · obtain ⟨d, hd⟩ := hostReadsStatus_eq s
    rw [h, hd]
    exact ⟨rfl, hc⟩
  · rw [h]
    exact ⟨rfl, hc⟩

theorem State.Dutiful.busTurn (h : s.Dutiful) : s.busTurn.Dutiful := by
  obtain ⟨honly, hc⟩ := h
  cases hbus : s.bus with
  | nil =>
    simp only [State.busTurn, hbus]
    exact ⟨honly, hc⟩
  | cons e rest =>
    have hrest := honly
    rw [hbus, List.all_cons, Bool.and_eq_true] at hrest
    cases e with
    | host m =>
      simp only [State.busTurn, hbus]
      split_ifs
      · obtain ⟨hkept, hcoll⟩ := hostTurn_noCollision m hc
        exact ⟨hkept ▸ honly, hcoll⟩
      · obtain ⟨hkept, hcoll⟩ := hostTurn_noCollision (s := { s with bus := rest }) m hc
        exact ⟨hkept ▸ hrest.2, hcoll⟩
    | reset k image =>
      simp only [State.busTurn, hbus]
      exact ⟨hrest.2, rfl⟩
    | write | read | poll => simp [BusEvent.bound] at hrest

/-- Accesses that wait with an operation in flight wait without one. -/
theorem keepsWaiting_of_busy {bus : List BusEvent} (h : keepsWaiting true bus = true) : keepsWaiting false bus = true := by
  induction bus with
  | nil => rfl
  | cons e rest ih =>
    cases e with
    | host m => exact h
    | write w offset v => exact absurd h (by simp [keepsWaiting, BusEvent.readsStatus])
    | read w offset => exact ih (Bool.and_eq_true_iff.mp h).2
    | poll => exact h
    | reset k image => exact h

/-- After a read the accesses to come still wait. -/
theorem keepsWaiting_after_read {busy : Bool} {w : Width} {offset : Half} {rest : List BusEvent}
    (h : keepsWaiting busy (.read w offset :: rest) = true) : keepsWaiting busy rest = true := by
  cases busy with
  | true => exact (Bool.and_eq_true_iff.mp h).2
  | false => exact h

theorem write_issues_iff {w : Width} {offset : Half} {v : Word} :
    (BusEvent.write w offset v).issues = true ↔ w = .word ∧ offset = 0#16 := by
  simp [BusEvent.issues]

/-- With no operation in flight a write has one in flight exactly when it issues. -/
theorem busy_busWrite_idle (w : Width) (offset : Half) (v : Word) (hb : s.busy = false) :
    (s.busWrite w offset v).busy = (BusEvent.write w offset v).issues := by
  obtain ⟨hi, h⟩ | ⟨hi, _, _, _, _, h⟩ := busWrite_idle_cases w offset v hb <;> rw [h]
  · exact (write_issues_iff.mpr hi).symm
  · exact hb.trans (Bool.eq_false_iff.mpr (mt write_issues_iff.mp hi)).symm

theorem State.KeepsWaiting.busTurn (h : s.KeepsWaiting) : s.busTurn.KeepsWaiting := by
  obtain ⟨hwaits, hc⟩ := h
  cases hbus : s.bus with
  | nil =>
    simp only [State.busTurn, hbus]
    exact ⟨hwaits, hc⟩
  | cons e rest =>
    have hnext := hwaits
    rw [hbus] at hnext
    cases e with
    | host m => simp [keepsWaiting] at hnext
    | write w offset v =>
      have hb : s.busy = false := by
        rw [← Bool.not_eq_true]
        intro hb
        simp [hb, keepsWaiting, BusEvent.readsStatus] at hnext
      obtain ⟨hkept, hcoll⟩ := busWrite_noCollision (s := { s with bus := rest }) w offset v hb hc
      rw [busTurn_write hbus]
      refine ⟨?_, hcoll⟩
      rw [hkept, busy_busWrite_idle (s := { s with bus := rest }) w offset v hb]
      simpa only [hb, keepsWaiting] using hnext
    | read w offset =>
      obtain ⟨_, _, hread, -⟩ := busRead_eq { s with bus := rest } w offset
      rw [busTurn_read hbus, hread]
      exact ⟨keepsWaiting_after_read hnext, hc⟩
    | poll =>
      cases hb : s.busy with
      | true =>
        rw [busTurn_poll_busy hb (.inl hbus)]
        exact ⟨hwaits, hc⟩
      | false =>
        rw [busTurn_poll_idle hb hbus]
        rw [hb] at hnext
        exact ⟨(congrArg (keepsWaiting · rest) hb).trans hnext, hc⟩
    | reset k image =>
      simp only [State.busTurn, hbus]
      cases hb : s.busy <;> rw [hb] at hnext <;> exact ⟨hnext, rfl⟩

theorem Performed.dutiful {t : State} (hp : Performed s t) (h : s.Dutiful) : t.Dutiful :=
  ⟨hp.bus ▸ h.onlyHost, hp.coll.trans h.noCollision⟩

theorem Performed.keepsWaiting {t : State} (hp : Performed s t) (h : s.KeepsWaiting) : t.KeepsWaiting := by
  refine ⟨?_, hp.coll.trans h.noCollision⟩
  have hidle : Machine.keepsWaiting false s.bus = true := by
    have hwaits := h.waits
    cases hb : s.busy <;> rw [hb] at hwaits
    · exact hwaits
    · exact keepsWaiting_of_busy hwaits
  rwa [State.busy, hp.latch, hp.bus]

end

/-! ### Moves of the host as steps (R256) -/

section
variable {s : State} {m : HostMove} {rest : List BusEvent}

/-- The host's oldest move is taken up by every step that performs no operation, but for a poll that goes on. -/
theorem step_host (h : s.busy = true → s.wait ≠ 0) (hpoll : s.busy = true → m ≠ .poll)
    (hbus : s.bus = .host m :: rest) :
    step s = .next (({ s with wait := s.waitAfterTurn, bus := rest } : State).hostTurn m) := by
  rw [step_turn h]
  refine congrArg _ ?_
  simp only [State.busTurn, hbus]
  exact if_neg fun hp => hpoll hp.1 hp.2

theorem waitAfterTurn_idle (hb : s.busy = false) : s.waitAfterTurn = s.wait := by
  simp [State.waitAfterTurn, hb]

/-- A move that breaks a "must" passes the turn. -/
theorem step_host_not_made (h : s.busy = true → s.wait ≠ 0) (hbus : s.bus = .host m :: rest) (hm : BreaksMust s m) :
    step s = .next { s with bus := rest, wait := s.waitAfterTurn } := by
  have hpoll : m ≠ .poll := by
    rintro rfl
    cases hm
  have hmay := (mayMove_bus_wait s m s.waitAfterTurn rest).trans (mayMove_of_breaks hm)
  rw [step_host h (fun _ => hpoll) hbus, hostTurn_of_not_mayMove hmay]

/-- A move that breaks no "must" is made. -/
theorem step_host_made (h : s.busy = true → s.wait ≠ 0) (hpoll : s.busy = true → m ≠ .poll)
    (hm : s.mayMove m = true) (hbus : s.bus = .host m :: rest) :
    step s = .next (({ s with wait := s.waitAfterTurn, bus := rest } : State).makeMove m) := by
  rw [step_host h hpoll hbus, hostTurn_of_mayMove ((mayMove_bus_wait s m _ rest).trans hm)]

theorem step_host_made_idle (hb : s.busy = false) (hm : s.mayMove m = true) (hbus : s.bus = .host m :: rest) :
    step s = .next (({ s with bus := rest } : State).makeMove m) := by
  rw [step_host_made (by simp [hb]) (by simp [hb]) hm hbus, waitAfterTurn_idle hb]

theorem busy_of_rested (h : s.rested = true) : s.busy = false := by
  simp only [State.rested, Bool.and_eq_true, Bool.not_eq_true'] at h
  exact h.2

/-! ### Writes and reads of the host -/

theorem mayMove_write_of_not_breaks {w : Width} {offset : Half} {v : Word} (h : ¬ BreaksMust s (.write w offset v)) :
    s.mayMove (.write w offset v) = true := by
  by_contra hn
  exact h (write_breaks_of (Bool.eq_false_iff.mpr hn))

theorem mayMove_read_of_not_breaks {w : Width} {offset : Half} (h : ¬ BreaksMust s (.read w offset)) :
    s.mayMove (.read w offset) = true := by
  by_contra hn
  exact h (read_breaks_of (Bool.eq_false_iff.mpr hn))

theorem rested_of_mayMove_write {w : Width} {offset : Half} {v : Word} (h : s.mayMove (.write w offset v) = true) :
    s.rested = true :=
  (Bool.and_eq_true_iff.mp h).1

/-- The state with another record of the host's. -/
def State.withDuties (s : State) (d : Duties) : State :=
  { s with duties := d }

@[simp] theorem withDuties_params (s : State) (d : Duties) : (s.withDuties d).params = s.params := rfl
@[simp] theorem withDuties_busy (s : State) (d : Duties) : (s.withDuties d).busy = s.busy := rfl

/-- A bus write neither reads nor writes the host's record. -/
theorem busWrite_withDuties (s : State) (d : Duties) (w : Width) (offset : Half) (v : Word) :
    (s.withDuties d).busWrite w offset v = (s.busWrite w offset v).withDuties d := by
  unfold State.busWrite
  rw [withDuties_params, withDuties_busy]
  cases s.busy with
  | true => rfl
  | false =>
    cases target s.params w offset with
    | nothing => rfl
    | reg r => cases r <;> rfl
    | buf a => rfl

/-- A write the host makes is the bare write, noted. -/
theorem step_host_write {w : Width} {offset : Half} {v : Word} (hm : s.mayMove (.write w offset v) = true)
    (hbus : s.bus = .host (.write w offset v) :: rest) :
    step s = .next { ({ s with bus := rest } : State).busWrite w offset v with duties := s.noteWrite w offset v } := by
  rw [step_host_made_idle (busy_of_rested (rested_of_mayMove_write hm)) hm hbus]
  exact congrArg _ (busWrite_withDuties { s with bus := rest } (s.noteWrite w offset v) w offset v)

theorem noteIssue_eq (s : State) (cmd : Word) :
    s.noteIssue cmd = { s.duties with
      awaited := some {
        cmd := cmd, fromSender := decide (decodeWord cmd = .ok .decode) && s.duties.message.isSome }
      message := if decodeWord cmd = .ok .decode then none else s.duties.message
      keySource :=
        if decodeWord cmd = .ok .keyload ∧ s.arg0.toNat + 32 ≤ s.params.bufSize then
          .loaded (Memory.readKey s.buf s.arg0.toNat)
        else s.duties.keySource
      challenges :=
        if decodeWord cmd = .ok .encodeAuth then Memory.readBlock s.buf 16 :: s.duties.challenges
        else s.duties.challenges } := by
  unfold State.noteIssue
  split
  next hd => simp [hd]
  next hd => simp [hd]
  next hd => simp [hd]
  next hdecode hkeyload hauth =>
    have hload : ¬ (decodeWord cmd = .ok .keyload ∧ s.arg0.toNat + 32 ≤ s.params.bufSize) := fun h => hkeyload h.1
    simp only [if_neg hdecode, decide_eq_false hdecode, if_neg hauth, if_neg hload, Bool.false_and]

theorem noteWrite_buf {w : Width} {offset : Half} {a : Nat} (v : Word) (ht : target s.params w offset = .buf a) :
    s.noteWrite w offset v = { s.duties with debts := s.duties.debts.filterMap (Debt.overwrite a w.bytes) } := by
  simp [State.noteWrite, ht]

theorem noteWrite_nothing {w : Width} {offset : Half} (v : Word) (ht : target s.params w offset = .nothing) :
    s.noteWrite w offset v = s.duties := by
  simp [State.noteWrite, ht]

/-- A write of the register window that neither issues nor writes an operand register is not noted. -/
theorem noteWrite_unnoted {w : Width} {offset : Half} (v : Word) (hlt : offset.toNat < 0x8000)
    (h : w ≠ .word ∨ offset ∉ [0x0000#16, 0x0004#16, 0x0008#16, 0x000C#16]) : s.noteWrite w offset v = s.duties := by
  by_cases hw : w = .word
  · subst hw
    obtain ⟨r, rfl, ht⟩ | ⟨-, ht⟩ := target_register s.params hlt
    · have hr := h.resolve_left (not_not.mpr rfl)
      cases r with
      | cmd | arg0 | arg1 | msglen => exact absurd (by decide) hr
      | _ => rfl
    · exact noteWrite_nothing v ht
  · exact noteWrite_nothing v (target_misplaced_register s.params hlt (.inl hw))

/-- An overwrite takes nothing but offsets from a scrub. -/
theorem overwrite_eq_some_iff {a n : Nat} {debt debt' : Debt} (h : ∀ left, debt' ≠ .scrub left) :
    Debt.overwrite a n debt = some debt' ↔ debt = debt' := by
  cases debt with
  | scrub left =>
    simp only [Debt.overwrite]
    split_ifs
    · simp [(h left).symm]
    · simp [(h left).symm, (h _).symm]
  | _ => simp [Debt.overwrite]

theorem mem_filterMap_overwrite_iff {a n : Nat} {debts : List Debt} {debt : Debt} (h : ∀ left, debt ≠ .scrub left) :
    debt ∈ debts.filterMap (Debt.overwrite a n) ↔ debt ∈ debts := by
  simp [List.mem_filterMap, overwrite_eq_some_iff h]

/-- A write of the BUF window touches the host's debts alone, and of these a scrub alone. -/
theorem noteWrite_window {w : Width} {offset : Half} (v : Word) (hge : 0x8000 ≤ offset.toNat) :
    s.noteWrite w offset v = { s.duties with debts := (s.noteWrite w offset v).debts }
      ∧ ∀ debt, (∀ left, debt ≠ .scrub left) →
          (debt ∈ (s.noteWrite w offset v).debts ↔ debt ∈ s.duties.debts) := by
  cases ht : target s.params w offset with
  | reg r =>
    unfold target at ht
    rw [if_neg (Nat.not_lt.mpr hge)] at ht
    split_ifs at ht
  | buf a =>
    rw [noteWrite_buf v ht]
    exact ⟨rfl, fun debt h => mem_filterMap_overwrite_iff h⟩
  | nothing =>
    rw [noteWrite_nothing v ht]
    exact ⟨rfl, fun debt _ => Iff.rfl⟩

theorem readsStatus_iff {w : Width} {offset : Half} : readsStatus w offset = true ↔ w = .word ∧ offset = 0x0010#16 := by
  simp [readsStatus]

/-- A read of STATUS returns it, with an operation in flight or not. -/
theorem busRead_status (s : State) : s.busRead .word 0x0010#16 = s.respond s.statusWord :=
  busRead_register (r := .status) (.inr rfl)

theorem busRead_duties (w : Width) (offset : Half) : (s.busRead w offset).duties = s.duties := by
  obtain ⟨_, _, hread, -⟩ := busRead_eq s w offset
  rw [hread]

theorem hostReadsStatus_idle (hb : s.busy = false) :
    s.hostReadsStatus = { s with responses := s.statusWord :: s.responses, duties := s.settled } :=
  if_neg (by simp [hb])

/-- A read the host makes is the bare read, and is noted only if it returns BUSY = 0. -/
theorem makeMove_read (s : State) (w : Width) (offset : Half) :
    ∃ d, s.makeMove (.read w offset) = { s.busRead w offset with duties := d }
      ∧ (s.busy = true ∨ w ≠ .word ∨ offset ≠ 0x0010#16 → d = s.duties) := by
  simp only [State.makeMove]
  split_ifs with hs
  · obtain ⟨rfl, rfl⟩ := readsStatus_iff.mp hs
    rw [busRead_status]
    cases hb : s.busy with
    | true => exact ⟨s.duties, if_pos hb, fun _ => rfl⟩
    | false => exact ⟨s.settled, hostReadsStatus_idle hb, by simp⟩
  · exact ⟨s.duties, by rw [← busRead_duties w offset], fun _ => rfl⟩

/-! ### What a read of BUSY = 0 makes of a result -/

/-- A read of STATUS with BUSY = 0, alone or in a poll. -/
theorem step_host_reads_status (hb : s.busy = false) (hm : m = .poll ∨ m = .read .word 0x0010#16)
    (hbus : s.bus = .host m :: rest) :
    step s = .next { s with bus := rest, responses := s.statusWord :: s.responses, duties := s.settled } := by
  have hmay : s.mayMove m = true := by
    obtain rfl | rfl := hm
    · rfl
    · simp [State.mayMove, readsStatus]
  have hmake : ({ s with bus := rest } : State).makeMove m = ({ s with bus := rest } : State).hostReadsStatus := by
    obtain rfl | rfl := hm <;> rfl
  rw [step_host_made_idle hb hmay hbus, hmake, hostReadsStatus_idle (s := { s with bus := rest }) hb]
  rfl

theorem decodeDebts_eq_persist_iff {x : Action} {fromSender : Bool} :
    decodeDebts x fromSender = [.persist] ↔ x = .keyChanged := by
  cases x <;> cases fromSender <;> simp [decodeDebts]

theorem settled_of_none (h : s.duties.awaited = none) : s.settled = s.duties := by
  simp [State.settled, h]

section
variable {a : Awaited} (h : s.duties.awaited = some a)
include h

theorem settled_of_decode (hd : decodeWord a.cmd = .ok .decode) :
    s.settled = { s.duties with
      awaited := none
      debts := s.duties.debts ++ decodeDebts s.action a.fromSender
      keySource := if s.action = .keyChanged then .changed else s.duties.keySource } := by
  simp [State.settled, h, State.debtsOf, hd, decodeDebts_eq_persist_iff]

theorem settled_of_encodeAuth (hd : decodeWord a.cmd = .ok .encodeAuth) :
    s.settled = { s.duties with
      awaited := none, debts := s.duties.debts ++ (s.duties.challenges.take 1).map Debt.compare } := by
  have hne : (s.duties.challenges.take 1).map Debt.compare ≠ [.persist] := by
    cases s.duties.challenges <;> simp
  simp only [State.settled, h, State.debtsOf, hd, if_neg hne]

theorem settled_of_other (hdecode : decodeWord a.cmd ≠ .ok .decode) (hauth : decodeWord a.cmd ≠ .ok .encodeAuth) :
    s.settled = { s.duties with awaited := none } := by
  have hdebts : s.debtsOf a = [] := by
    unfold State.debtsOf
    split
    next hd => exact absurd hd hdecode
    next hd => exact absurd hd hauth
    next => rfl
  simp [State.settled, h, hdebts]

end

/-! ### Payments -/

/-- A debt of the host's paid by the move that pays it. -/
theorem step_pay {debt : Debt} {deed : Deed} {after : List Debt} (hr : s.rested = true) (hd : debt ∈ s.duties.debts)
    (hmay : s.mayMove m = (s.rested && s.duties.debts.contains debt))
    (hmake : ({ s with bus := rest } : State).makeMove m = ({ s with bus := rest } : State).pay debt deed after)
    (hbus : s.bus = .host m :: rest) :
    step s = .next (({ s with bus := rest } : State).pay debt deed after) := by
  rw [← hmake]
  exact step_host_made_idle (busy_of_rested hr) (by simp [hmay, hr, hd]) hbus

theorem pay_nothing_after (s : State) (debt : Debt) (deed : Deed) :
    s.pay debt deed [] = { s with
      duties := { s.duties with debts := s.duties.debts.erase debt, deeds := deed :: s.duties.deeds } } := by
  simp [State.pay]

theorem compares_iff {debt : Debt} : debt.compares = true ↔ ∃ c, debt = .compare c := by
  cases debt <;> simp [Debt.compares]

/-- The comparison that has waited longest. -/
theorem payCompare_eq {response challenge : Block} {before after : List Debt}
    (hdebts : s.duties.debts = before ++ .compare challenge :: after) (hbefore : ∀ c, Debt.compare c ∉ before) :
    s.payCompare response = { s with
      duties := { s.duties with
        debts := before ++ after, deeds := .compared (decide (response = challenge)) :: s.duties.deeds } } := by
  have hnone : before.find? Debt.compares = none := by
    rw [List.find?_eq_none]
    intro debt hmem hc
    obtain ⟨c, rfl⟩ := compares_iff.mp hc
    exact hbefore c hmem
  have hfind : s.duties.debts.find? Debt.compares = some (.compare challenge) := by
    rw [hdebts, List.find?_append, hnone, Option.none_or]
    exact List.find?_cons_of_pos rfl
  have herase : s.duties.debts.erase (.compare challenge) = before ++ after := by
    rw [hdebts, List.erase_append_right _ (hbefore challenge), List.erase_cons_head]
  simp only [State.payCompare, hfind, pay_nothing_after, herase]
  rfl

/-- A scrub owes no byte of BUF, so it keeps no write from being made. -/
theorem mayMove_write_of_scrub {w : Width} {offset : Half} {v : Word} {a : Nat} {left : List Nat} (hr : s.rested = true)
    (hdebts : s.duties.debts = [.scrub left]) (ht : target s.params w offset = .buf a) :
    s.mayMove (.write w offset v) = true := by
  simp [State.mayMove, hr, ht, State.releases, hdebts, Debt.held]

theorem overwrite_scrub_eq_none_iff {a n : Nat} {left : List Nat} :
    Debt.overwrite a n (.scrub left) = none ↔ ∀ x ∈ left, a ≤ x ∧ x < a + n := by
  simp [Debt.overwrite]

theorem of_overwrite_scrub {a n : Nat} {left : List Nat} {debt : Debt}
    (h : Debt.overwrite a n (.scrub left) = some debt) :
    ∃ l, debt = .scrub l ∧ ∀ x, x ∈ l ↔ x ∈ left ∧ (x < a ∨ a + n ≤ x) := by
  simp only [Debt.overwrite] at h
  split_ifs at h
  exact ⟨_, (Option.some.inj h).symm, by simp⟩

/-- A write of BUF takes its bytes from the one scrub, which is paid when none is left (R285). -/
theorem noteWrite_scrub {w : Width} {offset : Half} {a : Nat} {left : List Nat} (v : Word)
    (hdebts : s.duties.debts = [.scrub left]) (ht : target s.params w offset = .buf a) :
    ((s.noteWrite w offset v).debts = [] ↔ ∀ x ∈ left, a ≤ x ∧ x < a + w.bytes)
      ∧ ∀ debt ∈ (s.noteWrite w offset v).debts,
          ∃ l, debt = .scrub l ∧ ∀ x, x ∈ l ↔ x ∈ left ∧ (x < a ∨ a + w.bytes ≤ x) := by
  rw [noteWrite_buf v ht, hdebts]
  constructor
  · simp [overwrite_scrub_eq_none_iff]
  · intro debt hmem
    simp only [List.mem_filterMap, List.mem_singleton, exists_eq_left] at hmem
    exact of_overwrite_scrub hmem

end

/-! ### The bytes an operation writes (R256) -/

/-- Every byte outside all of the regions reads in `m'` as in `m`. -/
def Memory.SameOffRegions (m m' : Memory) (regions : List (Nat × Nat)) : Prop :=
  ∀ x, (∀ region ∈ regions, x < region.1 ∨ region.1 + region.2 ≤ x) → Memory.read m' x = Memory.read m x

section
variable {m m' m'' : Memory} {regions : List (Nat × Nat)}

theorem sameOffRegions_refl (m : Memory) (regions : List (Nat × Nat)) : m.SameOffRegions m regions :=
  fun _ _ => rfl

/-- A write inside one of the regions. -/
theorem Memory.SameOutside.offRegions {a n b k : Nat} (h : Memory.SameOutside m m' a n) (hmem : (b, k) ∈ regions)
    (hstart : b ≤ a) (hend : a + n ≤ b + k) : m.SameOffRegions m' regions := by
  intro x hx
  have hout : x < b ∨ b + k ≤ x := hx (b, k) hmem
  exact h x (by omega)

/-- A write inside the one region. -/
theorem Memory.SameOutside.offRegion {a n b k : Nat} (h : Memory.SameOutside m m' a n) (hstart : b ≤ a)
    (hend : a + n ≤ b + k) : m.SameOffRegions m' [(b, k)] :=
  h.offRegions (List.mem_singleton.mpr rfl) hstart hend

theorem Memory.SameOffRegions.trans (h : m.SameOffRegions m' regions) (h' : m'.SameOffRegions m'' regions) :
    m.SameOffRegions m'' regions :=
  fun x hx => (h' x hx).trans (h x hx)

theorem Memory.SameOffRegions.ite {c : Prop} [Decidable c] {t u : State} (ht : m.SameOffRegions t.buf regions)
    (hu : m.SameOffRegions u.buf regions) : m.SameOffRegions (if c then t else u).buf regions :=
  iteInduction (motive := fun v : State => m.SameOffRegions v.buf regions) (fun _ => ht) fun _ => hu

end

/-- What the validation of a message writes (R206 to R209). -/
theorem decodeKind_sameOffRegions (s : State) {k : Kind} (hk : classify s.params s.msglen.toNat = k) :
    s.buf.SameOffRegions (s.decodeKind k).buf (s.writtenRegions .decode) := by
  simp only [State.writtenRegions, hk]
  cases k with
  | none => exact sameOffRegions_refl _ _
  | setaddr => exact .ite (sameOffRegions_refl _ _) (sameOffRegions_refl _ _)
  | program =>
    have hslot := (sameOutside_macVerifyStep s 16 (16 + s.params.pageSize)).offRegion (b := 32 + s.params.pageSize)
      (k := 16) (by omega) (by omega)
    exact .ite (sameOffRegions_refl _ _) (.ite hslot hslot)
  | changekey =>
    have hslot := (sameOutside_macVerifyStep s 16 32).offRegion (b := 0) (k := 64) (by omega) (by omega)
    have hdata := (sameOutside_cbcDecBody (s.macVerifyStep 16 32) 0 32).offRegion (b := 0) (k := 64) (by omega) (by omega)
    exact .ite hslot (hslot.trans hdata)
  | auth =>
    have hslot := (sameOutside_macVerifyStep s 16 16).offRegion (b := 0) (k := 48) (by omega) (by omega)
    have hdata := (sameOutside_cbcDecBody (s.macVerifyStep 16 16) 0 16).offRegion (b := 0) (k := 48) (by omega) (by omega)
    exact .ite hslot (hslot.trans hdata)

theorem performDecode_sameOffRegions {s : State} (hM : s.opM = s.msglen.toNat) :
    s.buf.SameOffRegions (performDecode s).buf (s.writtenRegions .decode) := by
  simp only [performDecode, complete_buf]
  split_ifs
  · exact sameOffRegions_refl _ _
  · exact decodeKind_sameOffRegions { s with kind := classify s.params s.opM } (congrArg (classify s.params) hM.symm)

/-- ENCODE.PROGRAM writes its address block and its tag (R217). -/
theorem performEncodeProgram_sameOffRegions (s : State) :
    s.buf.SameOffRegions (performEncodeProgram s).buf (s.writtenRegions .encodeProgram) := by
  have haddress := (sameOutside_writeBytes s.buf 16 (addressBlock s.opW)).offRegions
    (regions := s.writtenRegions .encodeProgram) (List.mem_cons_self ..) le_rfl le_rfl
  have htag := fun b => (sameOutside_writeBlock s.placeAddressBlock.buf (32 + s.params.pageSize) b).offRegions
    (regions := s.writtenRegions .encodeProgram) (List.mem_cons_of_mem _ (List.mem_singleton.mpr rfl)) le_rfl le_rfl
  exact haddress.trans (htag _)

/-- An ENCODE of `l` bytes under KEY writes the IV slot, its data and its tag (R218, R219). -/
theorem encode_sameOffRegions (s : State) (l : Nat) (tag : Block) :
    s.buf.SameOffRegions (Memory.writeBlock (s.cbcEncBody 0 l).buf (16 + l) tag) [(0, 32 + l)] :=
  ((sameOutside_cbcEncBody s 0 l).offRegion (by omega) (by omega)).trans
    ((sameOutside_writeBlock _ _ tag).offRegion (by omega) (by omega))

/-- An operation writes no byte of BUF outside its regions. -/
theorem performed_sameOffRegions {s : State} (hA : s.opA = s.arg0.toNat) (hL : s.opL = s.arg1.toNat)
    (hM : s.opM = s.msglen.toNat) (i : Instr) : s.buf.SameOffRegions (performed i s).buf (s.writtenRegions i) := by
  have hkept : ∀ regions, s.buf.SameOffRegions s.buf regions := sameOffRegions_refl s.buf
  have hone : ∀ {m : Memory} {a n : Nat}, Memory.SameOutside s.buf m a n → s.buf.SameOffRegions m [(a, n)] :=
    fun h => h.offRegion le_rfl le_rfl
  cases i with
  | decode => exact performDecode_sameOffRegions hM
  | encodeProgram => exact performEncodeProgram_sameOffRegions s
  | encodeSetaddr => exact hone (sameOutside_writeLe _ _ _ _)
  | encodeChangekey => exact encode_sameOffRegions s 32 _
  | encodeAuth => exact encode_sameOffRegions s 16 _
  | macinit => exact hkept _
  | keyload | ctrload | cntcmp | maccmp => exact .ite (hkept _) (hkept _)
  | macupd => exact .ite (hkept _) (.ite (hkept _) (hkept _))
  | macstore | ctrstore | cntinc =>
    simp only [State.writtenRegions, ← hA]
    exact .ite (hone (sameOutside_writeBlock _ _ _)) (hkept _)
  | ctrxor =>
    simp only [State.writtenRegions, ← hA, ← hL]
    exact .ite (hone (sameOutside_ctrXorBody _ _ _)) (hkept _)
  | cbcenc =>
    simp only [State.writtenRegions, ← hA, ← hL]
    exact .ite (hkept _) (.ite (hkept _) (hone (sameOutside_cbcEncBody _ _ _)))
  | cbcdec =>
    simp only [State.writtenRegions, ← hA, ← hL]
    exact .ite (hkept _) (.ite (hkept _) (hone (sameOutside_cbcDecBody _ _ _)))
  | maccalc =>
    simp only [State.writtenRegions, ← hA, ← hL]
    exact .ite (hkept _) (.ite (hkept _) (hone (sameOutside_writeBlock _ _ _)))
  | macvfy =>
    simp only [State.writtenRegions, ← hA, ← hL]
    exact .ite (hkept _) (.ite (hkept _) (hone (sameOutside_macVerifyStep _ _ _)))

/-! ### A reset and the end of a host program -/

/-- The debts whose bytes of BUF a reset takes away. -/
theorem held_isNone_iff {p : Params} {debt : Debt} :
    (debt.held p).isNone = true ↔ debt ∉ [Debt.persist, .program, .respond] := by
  cases debt <;> simp [Debt.held]

theorem duties_afterReset (d : Duties) (p : Params) :
    d.afterReset p = { d with
      awaited := none, arg0Written := false, arg1Written := false, msglenWritten := false, message := none
      debts := d.debts.filter (fun debt => debt ∉ [Debt.persist, .program, .respond]), keySource := .boot } := by
  have hheld : (fun debt : Debt => (debt.held p).isNone)
      = fun debt => decide (debt ∉ [Debt.persist, .program, .respond]) :=
    funext fun debt => Bool.eq_iff_iff.mpr (held_isNone_iff.trans decide_eq_true_iff.symm)
  rw [Duties.afterReset, hheld]

/-- A move that reads STATUS, of any master, with BUSY = 0. -/
theorem step_reads_status {s : State} {e : BusEvent} {rest : List BusEvent} (hb : s.busy = false)
    (he : e.readsStatus = true) (hbus : s.bus = e :: rest) :
    ∃ d, step s = .next { s with bus := rest, responses := s.statusWord :: s.responses, duties := d } := by
  cases e with
  | host m =>
    refine ⟨_, step_host_reads_status hb ?_ hbus⟩
    cases m with
    | poll => exact .inl rfl
    | read w offset =>
      obtain ⟨rfl, rfl⟩ := readsStatus_iff.mp he
      exact .inr rfl
    | _ => cases he
  | read w offset =>
    obtain ⟨rfl, rfl⟩ := readsStatus_iff.mp he
    exact ⟨s.duties, (step_read_idle hb hbus).trans (congrArg _ (busRead_status { s with bus := rest }))⟩
  | poll => exact ⟨s.duties, (step_idle hb).trans (congrArg _ (busTurn_poll_idle hb hbus))⟩
  | write | reset => cases he

end Sys2Proof.Machine

namespace Sys2Proof
open Machine

/-- Settles O58: a move of the host is made exactly when it breaks no "must", and each kind of move has its note. -/
theorem dutifulHostNeverCollides : Obligations.DutifulHostNeverCollides := by
  refine ⟨fun s t h hstep => ?_, fun s t h hstep => ?_, fun s m rest hturn hbus hm => ?_,
    fun s w offset v rest hbus hm => ?_, fun s w offset rest hturn hbus hm => ?_,
    fun s t l i hl h0 h1 hn hexec x hx => ?_, fun s m rest hb hm hbus => ?_, fun s rest hr hd hbus => ?_,
    fun s w o v left rest hr hdebts halign hin hbus => ?_, fun s failed rest hr hd hbus => ?_,
    fun s m debt deed rest hr hmem hd hbus => ?_, fun s response challenge before after rest hr hdebts hbefore hbus => ?_,
    fun s flashStart flashEnd rest hr hlow hhigh hbus => ?_, fun s m d message k on rest hturn hmem hbus => ?_,
    fun s k image rest hturn hbus => ?_, fun s hend => ?_⟩
  -- no collision
  · obtain hp | ⟨n, rfl⟩ := step_performed_or_turn hstep
    · exact hp.dutiful h
    · exact State.Dutiful.busTurn (s := { s with wait := n }) ⟨h.onlyHost, h.noCollision⟩
  · obtain hp | ⟨n, rfl⟩ := step_performed_or_turn hstep
    · exact hp.keepsWaiting h
    · exact State.KeepsWaiting.busTurn (s := { s with wait := n }) ⟨h.waits, h.noCollision⟩
  -- moves not made, writes and reads
  · exact ⟨_, step_host_not_made hturn hbus hm, waitAfterTurn_idle⟩
  · have hmay := mayMove_write_of_not_breaks hm
    have hb := busy_of_rested (rested_of_mayMove_write hmay)
    refine ⟨_, _, step_write_idle hb rfl, step_host_write hmay hbus, ?_, ?_, ?_, ?_, noteWrite_unnoted v,
      noteWrite_window v⟩
    · rintro rfl rfl
      exact noteIssue_eq s v
    all_goals
      rintro rfl rfl
      rfl
  · obtain ⟨d, hmake, hd⟩ := makeMove_read { s with wait := s.waitAfterTurn, bus := rest } w offset
    refine ⟨_, d, step_read (s := { s with bus := .read w offset :: rest }) hturn rfl, ?_, hd⟩
    rw [step_host_made hturn (by simp) (mayMove_read_of_not_breaks hm) hbus, hmake]
    rfl
  -- the regions an operation writes
  · obtain ⟨rfl, -⟩ := exec_next hexec
    exact performed_sameOffRegions (by simp [State.opA, operands_of_latch hl, h0])
      (by simp [State.opL, operands_of_latch hl, h1]) (by simp [State.opM, operands_of_latch hl, hn]) i x hx
  -- a read of BUSY = 0
  · exact ⟨_, step_host_reads_status hb hm hbus, settled_of_none, fun a ha =>
      ⟨settled_of_decode ha, settled_of_encodeAuth ha, settled_of_other ha⟩⟩
  -- payments
  · exact ⟨List.range' 16 32, by simp, step_pay hr hd rfl rfl hbus⟩
  · have ht := target_buf s.params w o halign hin
    have hmay := mayMove_write_of_scrub (v := v) hr hdebts ht
    refine ⟨_, step_host_write hmay hbus, fun i hi => ?_, noteWrite_scrub v hdebts ht⟩
    rw [busWrite_buf (s := { s with bus := rest }) v (busy_of_rested hr) ht, read_writeLe, if_pos (by omega),
      Nat.add_sub_cancel_left, ofNat_div_eq_extractLsb']
  · exact step_pay hr hd rfl rfl hbus
  · have hpay : step s = .next (({ s with bus := rest } : State).pay debt deed []) := by
      simp only [List.mem_cons, Prod.mk.injEq, List.not_mem_nil, or_false] at hmem
      obtain ⟨rfl, rfl, rfl⟩ | ⟨rfl, rfl, rfl⟩ | ⟨rfl, rfl, rfl⟩ | ⟨rfl, rfl, rfl⟩ | ⟨rfl, rfl, rfl⟩ := hmem
      all_goals exact step_pay hr hd rfl rfl hbus
    rw [hpay, pay_nothing_after]
  · have hany : s.duties.debts.any Debt.compares = true := by simp [hdebts, Debt.compares]
    rw [step_host_made_idle (busy_of_rested hr) (by simp [State.mayMove, hr, hany]) hbus]
    exact congrArg _ (payCompare_eq (s := { s with bus := rest }) hdebts hbefore)
  · exact step_host_made_idle (busy_of_rested hr) (by simp [State.mayMove, hr, hlow, hhigh]) hbus
  -- messages and intentions
  · simp only [List.mem_cons, Prod.mk.injEq, List.not_mem_nil, or_false] at hmem
    obtain ⟨rfl, rfl⟩ | ⟨rfl, rfl⟩ | ⟨rfl, rfl⟩ := hmem <;>
      exact ⟨_, step_host_made hturn (by simp) rfl hbus, waitAfterTurn_idle⟩
  -- a reset
  · refine ⟨_, step_turn hturn, ?_⟩
    simp only [State.busTurn, hbus]
    exact duties_afterReset s.duties s.params
  -- the end of a host program
  · cases hbus : s.bus with
    | nil => simp [State.endsProgram, hbus] at hend
    | cons e rest =>
      simp only [State.endsProgram, hbus, Bool.and_eq_true, Bool.not_eq_true', List.any_eq_false,
        Bool.not_eq_true] at hend
      obtain ⟨hb, hreads, hissues⟩ := hend
      obtain ⟨d, hstep⟩ := step_reads_status hb hreads hbus
      exact ⟨rest, d, hstep, (statusWord_flags s).1.trans hb, hissues⟩

/-- Settles O52: an operation raises an error in one way, MACCMP and MACVFY in theirs. -/
theorem errorsChangeOnlyStatus : Obligations.ErrorsChangeOnlyStatus := by
  refine ⟨fun i s t e hexec hs ht => ?_, fun s l hl hw hd => ?_⟩
  · obtain ⟨rfl, -⟩ := exec_next hexec
    exact ⟨fun hcmp hvfy => (performed_raisesBy hcmp hvfy s).eq_of_err (fun _ => rfl) hs ht,
      fun hi => (performed_raisesBy_verify hi s).eq_of_err (fun _ => rfl) hs ht⟩
  · exact (step_performs hl hw).trans (performLatched_illegal s hd)

/-- Settles O53: a step is a performance or a turn of the bus, and neither changes the parameters. -/
theorem everyStepAnswersNext : Obligations.EveryStepAnswersNext := by
  intro s
  obtain ⟨t, hstep⟩ := step_next s
  refine ⟨t, hstep, ?_⟩
  obtain hp | ⟨n, rfl⟩ := step_performed_or_turn hstep
  · exact hp.params
  · exact busTurn_params _

end Sys2Proof

/-! PROOFS. Reset (spec/70_reset_and_hazards.md, R270 and R271): what the reset input leaves, that a step takes it whether
or not an operation waits, and that power-on reset is one use of it. -/

namespace Sys2Proof.Machine

section
variable (s : State) (k : Key) (image : List Byte)

/-! ### The words of STATUS, RESULT and CTRSTAT after a reset -/

@[simp] theorem applyReset_statusWord : (s.applyReset k image).statusWord = 0#32 := by
  simp [State.statusWord, State.errCodeBits, State.busy]

@[simp] theorem applyReset_resultWord : (s.applyReset k image).resultWord = 0#32 := by
  simp [State.resultWord, Kind.code, Action.code, Order.code]

@[simp] theorem applyReset_ctrstatWord : (s.applyReset k image).ctrstatWord = 0#32 := by
  simp [State.ctrstatWord]

end

/-! ### The two ways to a reset (R270) -/

/-- Power-on asserts the reset input, with nothing written to BUF. -/
theorem reset_eq_applyReset : State.reset = State.reset.applyReset Config.bootKey [] := by
  simp [State.applyReset, State.reset, Memory.writeBytes, Duties.afterReset, Duties.fresh]

/-- A reset move comes before the performance of an operation that waits, and abandons it (R280). -/
theorem step_reset {s : State} {k : Key} {image : List Byte} {rest : List BusEvent}
    (h : s.latch = none ∨ s.wait ≠ 0) (hbus : s.bus = .reset k image :: rest) :
    step s = .next (({ s with wait := s.waitAfterTurn, bus := rest } : State).applyReset k image) := by
  have hturn : s.busy = true → s.wait ≠ 0 := fun hb => h.resolve_left (Option.isSome_iff_ne_none.mp hb)
  rw [step_turn hturn]
  simp [State.busTurn, hbus]

end Sys2Proof.Machine

namespace Sys2Proof
open Machine

/-- Settles O9: every field is as the reset input leaves it, and power-on reset is a use of that input. -/
theorem resetLeavesTheSpecValues : Obligations.ResetLeavesTheSpecValues := by
  refine ⟨fun s k image rest hidle hbus => ⟨_, step_reset hidle hbus, ?_⟩, ?_⟩
  · simp
  · rw [reset_eq_applyReset]
    simp

/-- Settles O60: power-on asserts the reset input, which leaves the invariant whatever the state before. -/
theorem resetMeetsTheInvariant : Obligations.ResetMeetsTheInvariant := by
  unfold Obligations.ResetMeetsTheInvariant
  rw [reset_eq_applyReset]
  exact applyReset_inv State.reset Config.bootKey []

end Sys2Proof
